-- ==== Sys2Proof/Word.lean ====
section
/-! DEFINITION. The two word types of VM-16 (spec 00_scope.md R9, R10): bytes and 16-bit words, unsigned, wrapping. -/

namespace Sys2Proof

/-- A byte, 0..0xFF (R10). -/
abbrev Byte := BitVec 8

/-- A register, immediate, address or memory word, 0..0xFFFF; its arithmetic wraps modulo 65536 (R10, R25). -/
abbrev Word := BitVec 16

end Sys2Proof
end

