-- ==== Sys2Proof/Syntax.lean ====
section
/-! DEFINITION. The instruction set as syntax (spec 30_encoding.md R102, R109, R112): registers, addressing modes, the 44
(mnemonic, mode) pairs, and `Instr`, one constructor per row of the opcode table, with its operands. -/

namespace Sys2Proof

/-- The fourteen registers in ordinal order (10_state.md R20, R21). -/
inductive Reg where
  | pc | acc | r1 | r2 | r3 | r4 | r5 | r6 | r7 | r8 | sp | fp | im | mb
deriving DecidableEq, Repr

/-- The mnemonics of R112. -/
inductive Mnemonic where
  | mov | add | sub | inc | dec | mul | lsf | rsf | and | or | xor | not | jne | jeq | jlt | jgt | jle | jge | psh | pop | cal | ret | hlt | int | rti
deriving DecidableEq, Repr

/-- The closed set of eleven addressing modes, in VM16's order (R102). -/
inductive Mode where
  | immReg | regImm8 | regReg | regMem | memReg | immMem | regPtrReg | immOffReg | reg | imm | noOperand
deriving DecidableEq, Repr

/-- The size in bytes of an instruction of each mode, opcode included (the table of R103). -/
def Mode.size : Mode → Nat
  | .immReg => 4
  | .regImm8 => 3
  | .regReg => 3
  | .regMem => 4
  | .memReg => 4
  | .immMem => 5
  | .regPtrReg => 3
  | .immOffReg => 5
  | .reg => 2
  | .imm => 3
  | .noOperand => 1

/-- An instruction without its operands: one (mnemonic, mode) pair (glossary of R16; the 44 rows of R112). The semantics
is keyed by this pair, never by an opcode value (R101). -/
inductive Op where
  | movImmReg
  | movRegReg
  | movRegMem
  | movMemReg
  | movImmMem
  | movRegPtrReg
  | movImmOffReg
  | addRegReg
  | addImmReg
  | subImmReg
  | subRegReg
  | incReg
  | decReg
  | mulImmReg
  | mulRegReg
  | lsfRegImm8
  | lsfRegReg
  | rsfRegImm8
  | rsfRegReg
  | andRegReg
  | orRegReg
  | xorRegReg
  | notReg
  | jneImmMem
  | jneRegMem
  | jeqImmMem
  | jeqRegMem
  | jltImmMem
  | jltRegMem
  | jgtImmMem
  | jgtRegMem
  | jleImmMem
  | jleRegMem
  | jgeImmMem
  | jgeRegMem
  | pshImm
  | pshReg
  | popReg
  | calImm
  | calReg
  | ret
  | hlt
  | intImm
  | rti
deriving DecidableEq, Repr

/-- The mnemonic of each pair (R112). -/
def Op.mnemonic : Op → Mnemonic
  | .movImmReg => .mov
  | .movRegReg => .mov
  | .movRegMem => .mov
  | .movMemReg => .mov
  | .movImmMem => .mov
  | .movRegPtrReg => .mov
  | .movImmOffReg => .mov
  | .addRegReg => .add
  | .addImmReg => .add
  | .subImmReg => .sub
  | .subRegReg => .sub
  | .incReg => .inc
  | .decReg => .dec
  | .mulImmReg => .mul
  | .mulRegReg => .mul
  | .lsfRegImm8 => .lsf
  | .lsfRegReg => .lsf
  | .rsfRegImm8 => .rsf
  | .rsfRegReg => .rsf
  | .andRegReg => .and
  | .orRegReg => .or
  | .xorRegReg => .xor
  | .notReg => .not
  | .jneImmMem => .jne
  | .jneRegMem => .jne
  | .jeqImmMem => .jeq
  | .jeqRegMem => .jeq
  | .jltImmMem => .jlt
  | .jltRegMem => .jlt
  | .jgtImmMem => .jgt
  | .jgtRegMem => .jgt
  | .jleImmMem => .jle
  | .jleRegMem => .jle
  | .jgeImmMem => .jge
  | .jgeRegMem => .jge
  | .pshImm => .psh
  | .pshReg => .psh
  | .popReg => .pop
  | .calImm => .cal
  | .calReg => .cal
  | .ret => .ret
  | .hlt => .hlt
  | .intImm => .int
  | .rti => .rti

/-- The addressing mode of each pair (R112). -/
def Op.mode : Op → Mode
  | .movImmReg => .immReg
  | .movRegReg => .regReg
  | .movRegMem => .regMem
  | .movMemReg => .memReg
  | .movImmMem => .immMem
  | .movRegPtrReg => .regPtrReg
  | .movImmOffReg => .immOffReg
  | .addRegReg => .regReg
  | .addImmReg => .immReg
  | .subImmReg => .immReg
  | .subRegReg => .regReg
  | .incReg => .reg
  | .decReg => .reg
  | .mulImmReg => .immReg
  | .mulRegReg => .regReg
  | .lsfRegImm8 => .regImm8
  | .lsfRegReg => .regReg
  | .rsfRegImm8 => .regImm8
  | .rsfRegReg => .regReg
  | .andRegReg => .regReg
  | .orRegReg => .regReg
  | .xorRegReg => .regReg
  | .notReg => .reg
  | .jneImmMem => .immMem
  | .jneRegMem => .regMem
  | .jeqImmMem => .immMem
  | .jeqRegMem => .regMem
  | .jltImmMem => .immMem
  | .jltRegMem => .regMem
  | .jgtImmMem => .immMem
  | .jgtRegMem => .regMem
  | .jleImmMem => .immMem
  | .jleRegMem => .regMem
  | .jgeImmMem => .immMem
  | .jgeRegMem => .regMem
  | .pshImm => .imm
  | .pshReg => .reg
  | .popReg => .reg
  | .calImm => .imm
  | .calReg => .reg
  | .ret => .noOperand
  | .hlt => .noOperand
  | .intImm => .imm
  | .rti => .noOperand

/-- A decoded instruction: one constructor per row of the opcode table, its operands in the order of its encoding (R103, R104).
Register bytes are already reduced to registers (R105), so no field value is illegal (R115). -/
inductive Instr where
  -- Move (41_move.md)
  | movImmReg (imm : Word) (rd : Reg)
  | movRegReg (rs : Reg) (rd : Reg)
  | movRegMem (rs : Reg) (addr : Word)
  | movMemReg (addr : Word) (rd : Reg)
  | movImmMem (imm : Word) (addr : Word)
  | movRegPtrReg (rp : Reg) (rd : Reg)
  | movImmOffReg (imm : Word) (ri : Reg) (rd : Reg)
  -- ALU (42_alu.md)
  | addRegReg (ra : Reg) (rb : Reg)
  | addImmReg (imm : Word) (ra : Reg)
  | subImmReg (imm : Word) (ra : Reg)
  | subRegReg (ra : Reg) (rb : Reg)
  | incReg (ra : Reg)
  | decReg (ra : Reg)
  | mulImmReg (imm : Word) (ra : Reg)
  | mulRegReg (ra : Reg) (rb : Reg)
  | lsfRegImm8 (ra : Reg) (n : Byte)
  | lsfRegReg (ra : Reg) (rb : Reg)
  | rsfRegImm8 (ra : Reg) (n : Byte)
  | rsfRegReg (ra : Reg) (rb : Reg)
  | andRegReg (ra : Reg) (rb : Reg)
  | orRegReg (ra : Reg) (rb : Reg)
  | xorRegReg (ra : Reg) (rb : Reg)
  | notReg (ra : Reg)
  -- Conditional jumps (43_branch.md)
  | jneImmMem (imm : Word) (target : Word)
  | jneRegMem (r : Reg) (target : Word)
  | jeqImmMem (imm : Word) (target : Word)
  | jeqRegMem (r : Reg) (target : Word)
  | jltImmMem (imm : Word) (target : Word)
  | jltRegMem (r : Reg) (target : Word)
  | jgtImmMem (imm : Word) (target : Word)
  | jgtRegMem (r : Reg) (target : Word)
  | jleImmMem (imm : Word) (target : Word)
  | jleRegMem (r : Reg) (target : Word)
  | jgeImmMem (imm : Word) (target : Word)
  | jgeRegMem (r : Reg) (target : Word)
  -- Stack and call (44_stack_call.md)
  | pshImm (imm : Word)
  | pshReg (r : Reg)
  | popReg (r : Reg)
  | calImm (target : Word)
  | calReg (r : Reg)
  | ret
  -- System (45_system.md)
  | hlt
  | intImm (imm : Word)
  | rti
deriving DecidableEq, Repr

/-- The (mnemonic, mode) pair of an instruction. -/
def Instr.op : Instr → Op
  | .movImmReg _ _ => .movImmReg
  | .movRegReg _ _ => .movRegReg
  | .movRegMem _ _ => .movRegMem
  | .movMemReg _ _ => .movMemReg
  | .movImmMem _ _ => .movImmMem
  | .movRegPtrReg _ _ => .movRegPtrReg
  | .movImmOffReg _ _ _ => .movImmOffReg
  | .addRegReg _ _ => .addRegReg
  | .addImmReg _ _ => .addImmReg
  | .subImmReg _ _ => .subImmReg
  | .subRegReg _ _ => .subRegReg
  | .incReg _ => .incReg
  | .decReg _ => .decReg
  | .mulImmReg _ _ => .mulImmReg
  | .mulRegReg _ _ => .mulRegReg
  | .lsfRegImm8 _ _ => .lsfRegImm8
  | .lsfRegReg _ _ => .lsfRegReg
  | .rsfRegImm8 _ _ => .rsfRegImm8
  | .rsfRegReg _ _ => .rsfRegReg
  | .andRegReg _ _ => .andRegReg
  | .orRegReg _ _ => .orRegReg
  | .xorRegReg _ _ => .xorRegReg
  | .notReg _ => .notReg
  | .jneImmMem _ _ => .jneImmMem
  | .jneRegMem _ _ => .jneRegMem
  | .jeqImmMem _ _ => .jeqImmMem
  | .jeqRegMem _ _ => .jeqRegMem
  | .jltImmMem _ _ => .jltImmMem
  | .jltRegMem _ _ => .jltRegMem
  | .jgtImmMem _ _ => .jgtImmMem
  | .jgtRegMem _ _ => .jgtRegMem
  | .jleImmMem _ _ => .jleImmMem
  | .jleRegMem _ _ => .jleRegMem
  | .jgeImmMem _ _ => .jgeImmMem
  | .jgeRegMem _ _ => .jgeRegMem
  | .pshImm _ => .pshImm
  | .pshReg _ => .pshReg
  | .popReg _ => .popReg
  | .calImm _ => .calImm
  | .calReg _ => .calReg
  | .ret => .ret
  | .hlt => .hlt
  | .intImm _ => .intImm
  | .rti => .rti

/-- The encoded size of an instruction in bytes (R103, R114). -/
def Instr.size (i : Instr) : Nat := i.op.mode.size

end Sys2Proof
end

