-- ==== Sys2Proof/Config.lean ====
section
/-! DEFINITION. What is fixed when an engine is constructed (spec 00_scope.md R8, 10_state.md R39) and the free values: constants
with no body, about which nothing can be proved, for the values the spec leaves open. -/

namespace Sys2Proof

/-- One row of the instruction metadata table: a (mnemonic, addressing mode) pair with its opcode byte and total size
(30_encoding.md R100). -/
structure Row where
  op : Op
  opcode : Byte
  size : Nat
deriving DecidableEq, Repr

/-- `UNKNOWN_OPCODE_POLICY`: what an opcode byte with no row does (R113). -/
inductive UnknownOpcodePolicy where
  /-- The step raises `IllegalOpcode`. The default. -/
  | fault
  /-- The byte is a one-byte instruction with no effect. -/
  | nop
deriving DecidableEq, Repr

/-- The six instructions that `ALU_INPLACE` may name (42_alu.md R200). -/
inductive InplaceOp where
  | incReg | decReg | lsfRegImm8 | lsfRegReg | rsfRegImm8 | rsfRegReg
deriving DecidableEq, Repr

/-- The parameters of R8 that belong to the engine; the platform's (regions and devices) are in the state, since the host
changes them (R39, R76). Each is fixed when the engine is constructed. -/
structure Config where
  /-- `RESET_PC`: `pc` after reset (R40). -/
  resetPc : Word
  /-- `STACK_TOP`: `sp` and `fp` after reset (R40). -/
  stackTop : Word
  /-- `IM_RESET`: `im` after reset (R40). -/
  imReset : Word
  /-- `IVT_BASE`: base address of the interrupt vector table (R78). -/
  ivtBase : Word
  /-- `UNKNOWN_OPCODE_POLICY` (R113). -/
  unknownOpcode : UnknownOpcodePolicy
  /-- `ALU_INPLACE` (R200). -/
  aluInplace : List InplaceOp
  /-- `OPCODE_MAP`, the one table that decoder, encoder and engine read (R100). -/
  opcodeMap : List Row
deriving DecidableEq, Repr

/-- FREE VALUE (20_memory.md R75, I4; log entry 9): the byte the n-th draw gives an 8-bit read of an I/O sink. -/
opaque Config.ioReadByte : Nat → Byte

/-- FREE VALUE (20_memory.md R75, I4; log entry 9): the word the n-th draw gives a 16-bit read of an I/O sink. -/
opaque Config.ioReadWord : Nat → Word

/-- FREE VALUE (40_cycle.md R169, I3; log entry 7): what the k-th 16-bit register of a failed engine holds. -/
opaque Config.failedWord : Nat → Nat → Word

/-- FREE VALUE (40_cycle.md R169, I3; log entry 7): the in-handler flag of a failed engine. -/
opaque Config.failedFlag : Nat → Bool

/-- FREE VALUE (40_cycle.md R169, I3; log entry 7): the bytes that buffer `bank` of device `device` holds once the engine has
failed, as (address, byte) pairs. -/
opaque Config.failedBytes : Nat → Nat → Nat → List (Nat × Byte)

/-- FREE VALUE (20_memory.md R61; log entry 12): what `get8(local)` of an object mapped by the host answers, and its contents after.
The arguments are the object's kind, `mb`, its contents and the local address. -/
opaque Config.objectGet8 : Nat → Word → Nat → Nat → Byte × Nat

/-- FREE VALUE (R61; log entry 12): the same for `get16(local)`. -/
opaque Config.objectGet16 : Nat → Word → Nat → Nat → Word × Nat

/-- FREE VALUE (R61; log entry 12): the contents of an object after `set8(local, v)`. -/
opaque Config.objectSet8 : Nat → Word → Nat → Nat → Byte → Nat

/-- FREE VALUE (R61; log entry 12): the contents of an object after `set16(local, v)`. -/
opaque Config.objectSet16 : Nat → Word → Nat → Nat → Word → Nat

/-- FREE VALUE (40_cycle.md R169, I3; log entry 7): the contents of object `device` once the engine has failed. -/
opaque Config.failedObject : Nat → Nat → Nat

end Sys2Proof
end

