-- ==== Sys2Proof/WellFormed.lean ====
section
/-! DEFINITION. Well-formedness (spec 30_encoding.md R101): of a metadata table, and of an instruction under a table. No field
value of an instruction is illegal (R115), so an instruction is well-formed exactly when the table has a row for its pair. -/

namespace Sys2Proof

/-- No two rows share an opcode byte (R101 a). -/
def OpcodeMap.opcodesDistinct (t : List Row) : Bool := (t.map Row.opcode).Nodup

/-- No two rows share a (mnemonic, mode) pair (R101 b). -/
def OpcodeMap.pairsDistinct (t : List Row) : Bool := (t.map Row.op).Nodup

/-- Each row's size is the size its mode gives (R101 c). -/
def OpcodeMap.sizesMatch (t : List Row) : Bool := t.all fun row => row.size == row.op.mode.size

/-- A table a model may take as `OPCODE_MAP` (R101). -/
def OpcodeMap.wf (t : List Row) : Bool :=
  OpcodeMap.opcodesDistinct t && OpcodeMap.pairsDistinct t && OpcodeMap.sizesMatch t

/-- The table has a row for the instruction's (mnemonic, mode) pair (R100, R115). -/
def Instr.wf (t : List Row) (i : Instr) : Bool := t.any fun row => row.op == i.op

end Sys2Proof
end

