-- ==== Sys2Proof/Decode.lean ====
section
/-! DEFINITION. The encoding (spec 30_encoding.md): the default metadata table, the operand layout of each mode, the decoder and
the encoder. Decoder, encoder and the engine's operand fetch are all derived from one table and one layout (R100). -/

namespace Sys2Proof

/-- The byte of bits 15..8, which stands at the lower address (00_scope.md R9, 20_memory.md R68). -/
def hiByte (w : Word) : Byte := w.extractLsb' 8 8

/-- The byte of bits 7..0, which stands at the higher address (R9, R68). -/
def loByte (w : Word) : Byte := w.extractLsb' 0 8

/-- The big-endian word of two bytes, the first from the lower address (R10, R68, R106). -/
def joinBytes (hi lo : Byte) : Word := hi ++ lo

/-- The ordinal of a register (10_state.md R21). -/
def Reg.ordinal : Reg → Nat
  | .pc => 0
  | .acc => 1
  | .r1 => 2
  | .r2 => 3
  | .r3 => 4
  | .r4 => 5
  | .r5 => 6
  | .r6 => 7
  | .r7 => 8
  | .r8 => 9
  | .sp => 10
  | .fp => 11
  | .im => 12
  | .mb => 13

/-- The register of an ordinal 0..13 (R21); it is asked only of numbers already reduced modulo 14. -/
def Reg.ofOrdinal : Nat → Reg
  | 0 => .pc
  | 1 => .acc
  | 2 => .r1
  | 3 => .r2
  | 4 => .r3
  | 5 => .r4
  | 6 => .r5
  | 7 => .r6
  | 8 => .r7
  | 9 => .r8
  | 10 => .sp
  | 11 => .fp
  | 12 => .im
  | _ => .mb

/-- The number of registers, `REG_COUNT` (R20). -/
def regCount : Nat := 14

/-- A register byte selects the ordinal `b mod REG_COUNT`; no byte is an error (10_state.md R22, R105). -/
def Reg.ofByte (b : Byte) : Reg := Reg.ofOrdinal (b.toNat % regCount)

/-- A register is emitted as its ordinal (R103, R118). -/
def Reg.toByte (r : Reg) : Byte := BitVec.ofNat 8 r.ordinal

/-- One operand field of a mode: a 16-bit immediate, a 16-bit address, the first or second register byte, an 8-bit immediate. -/
inductive Field where
  | imm | addr | regA | regB | imm8
deriving DecidableEq, Repr

/-- The bytes a field occupies (R103). -/
def Field.width : Field → Nat
  | .imm => 2
  | .addr => 2
  | .regA => 1
  | .regB => 1
  | .imm8 => 1

/-- The operand fields of each mode in the order of its bytes (the table of R103). -/
def Mode.layout : Mode → List Field
  | .immReg => [.imm, .regA]
  | .regImm8 => [.regA, .imm8]
  | .regReg => [.regA, .regB]
  | .regMem => [.regA, .addr]
  | .memReg => [.addr, .regA]
  | .immMem => [.imm, .addr]
  | .regPtrReg => [.regA, .regB]
  | .immOffReg => [.imm, .regA, .regB]
  | .reg => [.regA]
  | .imm => [.imm]
  | .noOperand => []

/-- The operand values of one instruction; a mode uses the fields of its layout, the others stay at their defaults. -/
structure Operands where
  imm : Word := 0
  addr : Word := 0
  regA : Reg := .pc
  regB : Reg := .pc
  imm8 : Byte := 0
deriving DecidableEq, Repr

/-- The instruction of a pair with the operand values its mode's layout gives (R104; the roles of each family file). -/
def Instr.ofOp : Op → Operands → Instr
  | .movImmReg, o => .movImmReg o.imm o.regA
  | .movRegReg, o => .movRegReg o.regA o.regB
  | .movRegMem, o => .movRegMem o.regA o.addr
  | .movMemReg, o => .movMemReg o.addr o.regA
  | .movImmMem, o => .movImmMem o.imm o.addr
  | .movRegPtrReg, o => .movRegPtrReg o.regA o.regB
  | .movImmOffReg, o => .movImmOffReg o.imm o.regA o.regB
  | .addRegReg, o => .addRegReg o.regA o.regB
  | .addImmReg, o => .addImmReg o.imm o.regA
  | .subImmReg, o => .subImmReg o.imm o.regA
  | .subRegReg, o => .subRegReg o.regA o.regB
  | .incReg, o => .incReg o.regA
  | .decReg, o => .decReg o.regA
  | .mulImmReg, o => .mulImmReg o.imm o.regA
  | .mulRegReg, o => .mulRegReg o.regA o.regB
  | .lsfRegImm8, o => .lsfRegImm8 o.regA o.imm8
  | .lsfRegReg, o => .lsfRegReg o.regA o.regB
  | .rsfRegImm8, o => .rsfRegImm8 o.regA o.imm8
  | .rsfRegReg, o => .rsfRegReg o.regA o.regB
  | .andRegReg, o => .andRegReg o.regA o.regB
  | .orRegReg, o => .orRegReg o.regA o.regB
  | .xorRegReg, o => .xorRegReg o.regA o.regB
  | .notReg, o => .notReg o.regA
  | .jneImmMem, o => .jneImmMem o.imm o.addr
  | .jneRegMem, o => .jneRegMem o.regA o.addr
  | .jeqImmMem, o => .jeqImmMem o.imm o.addr
  | .jeqRegMem, o => .jeqRegMem o.regA o.addr
  | .jltImmMem, o => .jltImmMem o.imm o.addr
  | .jltRegMem, o => .jltRegMem o.regA o.addr
  | .jgtImmMem, o => .jgtImmMem o.imm o.addr
  | .jgtRegMem, o => .jgtRegMem o.regA o.addr
  | .jleImmMem, o => .jleImmMem o.imm o.addr
  | .jleRegMem, o => .jleRegMem o.regA o.addr
  | .jgeImmMem, o => .jgeImmMem o.imm o.addr
  | .jgeRegMem, o => .jgeRegMem o.regA o.addr
  | .pshImm, o => .pshImm o.imm
  | .pshReg, o => .pshReg o.regA
  | .popReg, o => .popReg o.regA
  | .calImm, o => .calImm o.imm
  | .calReg, o => .calReg o.regA
  | .ret, _ => .ret
  | .hlt, _ => .hlt
  | .intImm, o => .intImm o.imm
  | .rti, _ => .rti

/-- The operand values of an instruction, as its encoding lays them out. -/
def Instr.operands : Instr → Operands
  | .movImmReg imm rd => { imm := imm, regA := rd }
  | .movRegReg rs rd => { regA := rs, regB := rd }
  | .movRegMem rs addr => { regA := rs, addr := addr }
  | .movMemReg addr rd => { addr := addr, regA := rd }
  | .movImmMem imm addr => { imm := imm, addr := addr }
  | .movRegPtrReg rp rd => { regA := rp, regB := rd }
  | .movImmOffReg imm ri rd => { imm := imm, regA := ri, regB := rd }
  | .addRegReg ra rb => { regA := ra, regB := rb }
  | .addImmReg imm ra => { imm := imm, regA := ra }
  | .subImmReg imm ra => { imm := imm, regA := ra }
  | .subRegReg ra rb => { regA := ra, regB := rb }
  | .incReg ra => { regA := ra }
  | .decReg ra => { regA := ra }
  | .mulImmReg imm ra => { imm := imm, regA := ra }
  | .mulRegReg ra rb => { regA := ra, regB := rb }
  | .lsfRegImm8 ra n => { regA := ra, imm8 := n }
  | .lsfRegReg ra rb => { regA := ra, regB := rb }
  | .rsfRegImm8 ra n => { regA := ra, imm8 := n }
  | .rsfRegReg ra rb => { regA := ra, regB := rb }
  | .andRegReg ra rb => { regA := ra, regB := rb }
  | .orRegReg ra rb => { regA := ra, regB := rb }
  | .xorRegReg ra rb => { regA := ra, regB := rb }
  | .notReg ra => { regA := ra }
  | .jneImmMem imm target => { imm := imm, addr := target }
  | .jneRegMem r target => { regA := r, addr := target }
  | .jeqImmMem imm target => { imm := imm, addr := target }
  | .jeqRegMem r target => { regA := r, addr := target }
  | .jltImmMem imm target => { imm := imm, addr := target }
  | .jltRegMem r target => { regA := r, addr := target }
  | .jgtImmMem imm target => { imm := imm, addr := target }
  | .jgtRegMem r target => { regA := r, addr := target }
  | .jleImmMem imm target => { imm := imm, addr := target }
  | .jleRegMem r target => { regA := r, addr := target }
  | .jgeImmMem imm target => { imm := imm, addr := target }
  | .jgeRegMem r target => { regA := r, addr := target }
  | .pshImm imm => { imm := imm }
  | .pshReg r => { regA := r }
  | .popReg r => { regA := r }
  | .calImm target => { imm := target }
  | .calReg r => { regA := r }
  | .ret => {}
  | .hlt => {}
  | .intImm imm => { imm := imm }
  | .rti => {}

/-! ## The metadata table -/

/-- The default metadata table: the opcode byte and size of each of the 44 instructions (R112). -/
def OpcodeMap.default : List Row :=
  [⟨.movImmReg, 0x10, 4⟩,
   ⟨.movRegReg, 0x11, 3⟩,
   ⟨.movRegMem, 0x12, 4⟩,
   ⟨.movMemReg, 0x13, 4⟩,
   ⟨.movImmMem, 0x1B, 5⟩,
   ⟨.movRegPtrReg, 0x1C, 3⟩,
   ⟨.movImmOffReg, 0x1D, 5⟩] ++
  [⟨.addRegReg, 0x14, 3⟩,
   ⟨.addImmReg, 0x3F, 4⟩,
   ⟨.subImmReg, 0x16, 4⟩,
   ⟨.subRegReg, 0x1F, 3⟩,
   ⟨.incReg, 0x35, 2⟩,
   ⟨.decReg, 0x36, 2⟩,
   ⟨.mulImmReg, 0x20, 4⟩,
   ⟨.mulRegReg, 0x21, 3⟩,
   ⟨.lsfRegImm8, 0x26, 3⟩,
   ⟨.lsfRegReg, 0x27, 3⟩,
   ⟨.rsfRegImm8, 0x2A, 3⟩,
   ⟨.rsfRegReg, 0x2B, 3⟩,
   ⟨.andRegReg, 0x2F, 3⟩,
   ⟨.orRegReg, 0x31, 3⟩,
   ⟨.xorRegReg, 0x33, 3⟩,
   ⟨.notReg, 0x34, 2⟩] ++
  [⟨.jneImmMem, 0x15, 5⟩,
   ⟨.jneRegMem, 0x40, 4⟩,
   ⟨.jeqImmMem, 0x41, 5⟩,
   ⟨.jeqRegMem, 0x3E, 4⟩,
   ⟨.jltImmMem, 0x43, 5⟩,
   ⟨.jltRegMem, 0x42, 4⟩,
   ⟨.jgtImmMem, 0x45, 5⟩,
   ⟨.jgtRegMem, 0x44, 4⟩,
   ⟨.jleImmMem, 0x47, 5⟩,
   ⟨.jleRegMem, 0x46, 4⟩,
   ⟨.jgeImmMem, 0x49, 5⟩,
   ⟨.jgeRegMem, 0x48, 4⟩] ++
  [⟨.pshImm, 0x17, 3⟩,
   ⟨.pshReg, 0x18, 2⟩,
   ⟨.popReg, 0x1A, 2⟩,
   ⟨.calImm, 0x5E, 3⟩,
   ⟨.calReg, 0x5F, 2⟩,
   ⟨.ret, 0x60, 1⟩] ++
  [⟨.hlt, 0xFF, 1⟩,
   ⟨.intImm, 0xFD, 3⟩,
   ⟨.rti, 0xFC, 1⟩]

/-- The row an opcode byte selects, if any (R100, R116). -/
def OpcodeMap.rowOfByte (t : List Row) (b : Byte) : Option Row := t.find? fun row => row.opcode == b

/-- The row of a (mnemonic, mode) pair, if any (R100, R118). -/
def OpcodeMap.rowOfOp (t : List Row) (op : Op) : Option Row := t.find? fun row => row.op == op

/-! ## The decoder -/

/-- Why a byte string decodes to no instruction. -/
inductive DecodeError where
  /-- The first byte has no row in the table (R113, R116). -/
  | unassignedOpcode (op : Byte)
  /-- The string ends before the instruction does (log entry 15). -/
  | truncated
deriving DecidableEq, Repr

/-- Read one operand field from the bytes (R105, R106, R107). -/
def Field.decode : Field → List Byte → Operands → Option (Operands × List Byte)
  | .imm, hi :: lo :: rest, o => some ({ o with imm := joinBytes hi lo }, rest)
  | .addr, hi :: lo :: rest, o => some ({ o with addr := joinBytes hi lo }, rest)
  | .regA, b :: rest, o => some ({ o with regA := Reg.ofByte b }, rest)
  | .regB, b :: rest, o => some ({ o with regB := Reg.ofByte b }, rest)
  | .imm8, b :: rest, o => some ({ o with imm8 := b }, rest)
  | _, _, _ => none

/-- Read the fields of a layout in order (R103, R116). -/
def decodeFields : List Field → List Byte → Operands → Option (Operands × List Byte)
  | [], bytes, o => some (o, bytes)
  | f :: fs, bytes, o =>
    match f.decode bytes o with
    | some (o', rest) => decodeFields fs rest o'
    | none => none

/-- Decode the instruction at the start of a byte string under a table, with the bytes that follow it (R116). Total. -/
def decode (t : List Row) : List Byte → Except DecodeError (Instr × List Byte)
  | [] => .error .truncated
  | b :: bytes =>
    match OpcodeMap.rowOfByte t b with
    | none => .error (.unassignedOpcode b)
    | some row =>
      match decodeFields row.op.mode.layout bytes {} with
      | some (o, rest) => .ok (Instr.ofOp row.op o, rest)
      | none => .error .truncated

/-! ## The encoder -/

/-- The bytes of one operand field (R103, R118). -/
def Field.encode : Field → Operands → List Byte
  | .imm, o => [hiByte o.imm, loByte o.imm]
  | .addr, o => [hiByte o.addr, loByte o.addr]
  | .regA, o => [o.regA.toByte]
  | .regB, o => [o.regB.toByte]
  | .imm8, o => [o.imm8]

/-- The bytes of the fields of a layout in order (R103, R118). -/
def encodeFields (fs : List Field) (o : Operands) : List Byte := fs.flatMap fun f => f.encode o

/-- The bytes of an instruction under a table: the opcode byte of its row, then each operand (R118); none when the table has
no row for it. -/
def encode (t : List Row) (i : Instr) : Option (List Byte) :=
  match OpcodeMap.rowOfOp t i.op with
  | some row => some (row.opcode :: encodeFields i.op.mode.layout i.operands)
  | none => none

/-! ## The host's view of the decoder -/

/-- The first `n` bytes of a number, bit 0 the least significant bit of the first. -/
def bytesOfNat : Nat → Nat → List Byte
  | 0, _ => []
  | n + 1, w => BitVec.ofNat 8 (w % 256) :: bytesOfNat n (w / 256)

/-- The longest instruction, in bytes (R103, R114). -/
def maxSize : Nat := 5

/-- The bytes of an instruction given as a number of `nbits` bits; every bit above is 0. -/
def tableBytes (nbits w : Nat) : List Byte := bytesOfNat maxSize (w % 2 ^ nbits)

/-- The instruction the decoder reads, under the default table, from the bits `w`. -/
def decodeTableWord (nbits w : Nat) : Option Instr :=
  match decode OpcodeMap.default (tableBytes nbits w) with
  | .ok (i, _) => some i
  | .error _ => none

end Sys2Proof
end

