-- ==== Sys2Proof/Machine/Memory.lean ====
section
/-! DEFINITION. Byte storage, devices and regions (spec 20_memory.md R61, R62, R72, R74, R75): the data the mapper routes to, and
the operations over one device's storage. -/

namespace Sys2Proof.Machine

/-! ## One buffer of bytes -/

/-- The bytes of one RAM or bank buffer, by local address, in one canonical form: addresses strictly rising, and no entry equal
to what an unlisted address reads as (`Memory.wf`). -/
structure Memory where
  cells : List Host.Cell
deriving DecidableEq, Repr

/-- What a byte that no entry lists reads as. The spec leaves a device's initial contents to the host (R72, I6).
DESIGN CHOICE, unsafe (log entry 6): 0x00. -/
def Memory.unlisted : Byte := 0

/-- The byte listed at an address. -/
def Memory.lookup : List Host.Cell → Nat → Byte
  | [], _ => Memory.unlisted
  | (k, c) :: rest, a => if a = k then c else Memory.lookup rest a

/-- The byte at a local address (`get8`, R72). -/
def Memory.read (m : Memory) (a : Nat) : Byte := Memory.lookup m.cells a

/-- Put an entry into a rising list, in place of any at its address. -/
def Memory.insertCell : List Host.Cell → Nat → Byte → List Host.Cell
  | [], a, b => [(a, b)]
  | (k, c) :: rest, a, b =>
    if a < k then (a, b) :: (k, c) :: rest
    else if a = k then (a, b) :: rest
    else (k, c) :: Memory.insertCell rest a b

/-- Take out the entry at an address. -/
def Memory.eraseCell : List Host.Cell → Nat → List Host.Cell
  | [], _ => []
  | (k, c) :: rest, a => if a = k then Memory.eraseCell rest a else (k, c) :: Memory.eraseCell rest a

/-- Store a byte in a list of entries: storing what an unlisted address reads as takes the entry out. -/
def Memory.store (cells : List Host.Cell) (a : Nat) (b : Byte) : List Host.Cell :=
  if b = Memory.unlisted then Memory.eraseCell cells a else Memory.insertCell cells a b

/-- Store a byte at a local address (`set8`, R72). -/
def Memory.write (m : Memory) (a : Nat) (b : Byte) : Memory := ⟨Memory.store m.cells a b⟩

/-- The canonical form: strictly rising addresses, no entry equal to `Memory.unlisted`. -/
def Memory.canonical : List Host.Cell → Bool
  | [] => true
  | (k, c) :: rest => c != Memory.unlisted && rest.all (fun cell => k < cell.1) && Memory.canonical rest

/-- The memory is in canonical form, so equal memories are equal data. -/
def Memory.wf (m : Memory) : Bool := Memory.canonical m.cells

/-- Every listed address lies inside a storage of `size` bytes. -/
def Memory.within (m : Memory) (size : Nat) : Bool := m.cells.all fun cell => cell.1 < size

/-- No byte listed. -/
def Memory.empty : Memory := ⟨[]⟩

/-- The memory that holds the given (address, byte) pairs, later ones winning, in canonical form. -/
def Memory.ofCells (cells : List Host.Cell) : Memory :=
  cells.foldl (fun m cell => m.write cell.1 cell.2) Memory.empty

/-! ## Devices -/

/-- The three device variants of the spec (R72, R74, R75), and any other object with the four operations of R61. -/
inductive Device where
  /-- Linear RAM of `size` bytes (R72). -/
  | ram (size : Nat) (mem : Memory)
  /-- A bank-switching device: `BANK_COUNT` (the number of buffers) independent buffers of `bankSize` bytes (R74). -/
  | bank (bankSize : Nat) (buffers : List Memory)
  /-- An I/O sink: no storage (R75). -/
  | ioSink
  /-- Any other object satisfying the capability (R61): which object it is, the bytes of storage it holds (R73), and what it holds,
  as a number. What its operations do is its host's: free values of `Config` (log entry 12). -/
  | object (kind size contents : Nat)
deriving DecidableEq, Repr

/-- The independent buffers of a device: one for a linear RAM, `BANK_COUNT` for a bank device, none for a sink or
another object. -/
def Device.buffers : Device → List Memory
  | .ram _ m => [m]
  | .bank _ bs => bs
  | .ioSink => []
  | .object _ _ _ => []

/-- The bytes each buffer holds (R72 `S`, R74 `BANK_SIZE`), or another object's storage does (R73). -/
def Device.size : Device → Nat
  | .ram sz _ => sz
  | .bank sz _ => sz
  | .ioSink => 0
  | .object _ sz _ => sz

/-- The device with one of its buffers replaced. -/
def Device.setBuffer : Device → Nat → Memory → Device
  | .ram sz _, 0, m' => .ram sz m'
  | .ram sz m, _ + 1, _ => .ram sz m
  | .bank sz bs, k, m' => .bank sz (bs.set k m')
  | .ioSink, _, _ => .ioSink
  | .object kind sz c, _, _ => .object kind sz c

/-- The buffer an access uses: the only one of a linear RAM; buffer `mb mod BANK_COUNT` of a bank device (R74). -/
def Device.selected : Device → Word → Nat
  | .ram _ _, _ => 0
  | .bank _ bs, mb => mb.toNat % bs.length
  | .ioSink, _ => 0
  | .object _ _ _, _ => 0

/-- Every buffer is in canonical form and lists no byte outside the device's storage. -/
def Device.wf (d : Device) : Bool := d.buffers.all fun m => m.wf && m.within d.size

/-! ## Regions -/

/-- A mapper entry: device reference (its number in the state's device list), start, end (inclusive) and remap flag (R62), with the
token of the handle that `map` returned for it (R76). -/
structure Region where
  token : Nat
  device : Nat
  start : Nat
  stop : Nat
  remap : Bool
deriving DecidableEq, Repr

/-- The region's inclusive range holds the address (R63). -/
def Region.covers (r : Region) (a : Nat) : Bool := r.start ≤ a && a ≤ r.stop

/-- The address the mapper passes to the region's device (R64). -/
def Region.localAddr (r : Region) (a : Nat) : Nat := if r.remap then a - r.start else a

/-- The place of one stored byte: device number, buffer of that device, local address. Two global addresses that regions route
to the same bytes have the same place. -/
structure Loc where
  device : Nat
  bank : Nat
  offset : Nat
deriving DecidableEq, Repr

/-- The next byte of the same buffer: where the low byte of a 16-bit access lies (R65, R69). -/
def Loc.next (l : Loc) : Loc := { l with offset := l.offset + 1 }

/-- An output event of an I/O sink: the local address and the word written (R75), and which device it was (log entry 10). -/
structure OutputEvent where
  device : Nat
  offset : Nat
  value : Word
deriving DecidableEq, Repr

end Sys2Proof.Machine
end

