-- ==== Sys2Proof/Machine/Defaults.lean ====
section
/-! DEFINITION. The default parameters and the default platform (spec 00_scope.md R8, 20_memory.md R79; log entries 1 to 5). -/

namespace Sys2Proof.Machine

/-- The default value of every parameter of the engine (R8). -/
def defaultConfig : Config where
  resetPc := 0x0000
  stackTop := 0xFFFE
  imReset := 0xFFFF
  ivtBase := 0x1000
  unknownOpcode := .fault
  aluInplace := []
  opcodeMap := OpcodeMap.default

/-- The devices of the default platform: one linear RAM of 65536 bytes (R79). -/
def defaultDevices : List Device := [.ram 65536 Memory.empty]

/-- The region list of the default platform: that RAM at 0x0000 to 0xFFFF, remap true (R79). -/
def defaultRegions : List Region := [{ token := 0, device := 0, start := 0x0000, stop := 0xFFFF, remap := true }]

end Sys2Proof.Machine
end

