-- ==== Sys2Proof/Machine/State.lean ====
section
/-! DEFINITION. The machine state, the reasons a step can stop, and reset (spec 10_state.md, 60_exceptions.md R301,
70_reset_and_hazards.md R340). -/

namespace Sys2Proof.Machine

/-- The register file: fourteen 16-bit registers (R20, R21). No banks, windows, shadow copies or aliases (R24). -/
structure Regs where
  pc : Word
  acc : Word
  r1 : Word
  r2 : Word
  r3 : Word
  r4 : Word
  r5 : Word
  r6 : Word
  r7 : Word
  r8 : Word
  sp : Word
  fp : Word
  im : Word
  mb : Word
deriving DecidableEq, Repr

/-- The engine errors with the information each records (60_exceptions.md R301). -/
inductive EngineError where
  /-- Code 1. No region covers the accessed address (R63). -/
  | noRegion (a : Nat)
  /-- Code 2. The last byte of the access would lie above 0xFFFF; `a` is the first byte's address, not wrapped (R66). -/
  | addressOverflow (a : Nat)
  /-- Code 3. The local address is outside the device's storage; `a` is the global address (R73). -/
  | deviceRange (a : Nat)
  /-- Code 4. The opcode byte, fetched from address `a`, has no row in the table (R113). -/
  | illegalOpcode (op : Byte) (a : Word)
  /-- Code 5. The host named a register that does not exist (R302); no program can raise it. -/
  | unknownRegisterName (name : String)
deriving DecidableEq, Repr

/-- The run state (R37). -/
inductive RunState where
  | running
  /-- Entered only by `HLT` (R280). Terminal. -/
  | halted
  /-- Entered only by a fault (R300). Terminal. -/
  | failed (reason : EngineError)
deriving DecidableEq, Repr

/-- Everything the spec gives the machine, and the platform it talks to (INVENTORY.md, State). Plain data. -/
structure State where
  /-- The register file (R20). -/
  regs : Regs
  /-- The frame-size counter `F` (R35). -/
  frameSize : Word
  /-- The in-handler flag `H` (R36). -/
  inHandler : Bool
  /-- The run state (R37). -/
  runState : RunState
  /-- What was fixed at construction (R39); no step changes it. -/
  config : Config
  /-- The mapper's region list, most recently mapped first (R62, R63); only the host changes it (R76). -/
  regions : List Region
  /-- MODEL's own: the token the next `map` returns (log entry 14). -/
  nextToken : Nat
  /-- The devices the regions refer to, with their storage (R62, R72, R74, R75). -/
  devices : List Device
  /-- The output events emitted so far, in program order (R75). -/
  output : List OutputEvent
  /-- MODEL's own: how many free values have been drawn (log entry 9). -/
  draws : Nat
deriving DecidableEq, Repr

/-- Why a step stops with a fault. -/
inductive Fault where
  /-- An engine error: the step ends and the engine is `failed(reason)` (R169, R300). Raised by every access (`memRead8` and the
  rest) and by the opcode lookup. The state is not answered, since what the step wrote is unspecified; the output events, which
  stay emitted, are. Safe (log entry 7). -/
  | failed (reason : EngineError) (output : List OutputEvent)
  /-- `step` was asked of a halted engine, which takes no step (R37, R160): stuck. Raised by `step` alone. Safe (log entry 8). -/
  | engineHalted
  /-- `step` was asked of a failed engine, which takes no step (R37, R160): stuck. Raised by `step` alone. Safe (log entry 8). -/
  | engineFailed (reason : EngineError)
deriving DecidableEq, Repr

/-- Why a step is refused. -/
inductive Refusal where
  /-- The instruction has no meaning in the model. Raised by no arm: every instruction has its meaning. Safe. -/
  | notModelled (mnemonic : String)
deriving DecidableEq, Repr

/-- What an operation of the engine answers: a value and the state after it, or the fault that ended the step (R13, R303). -/
inductive Res (α : Type) where
  | ok (val : α) (s : State)
  | fault (f : Fault)

/-- Reset is the construction of an engine from its parameters and its memory mapper (R340): every register as R40 says, `F` = 0,
`H` clear, running. It executes no instruction, reads no memory and writes no memory. -/
def State.construct (c : Config) (regions : List Region) (nextToken : Nat) (devices : List Device) : State where
  regs :=
    { pc := c.resetPc, acc := 0, r1 := 0, r2 := 0, r3 := 0, r4 := 0, r5 := 0, r6 := 0, r7 := 0, r8 := 0,
      sp := c.stackTop, fp := c.stackTop, im := c.imReset, mb := 0 }
  frameSize := 0
  inHandler := false
  runState := .running
  config := c
  regions := regions
  nextToken := nextToken
  devices := devices
  output := []
  draws := 0

/-- The machine right after reset with the default parameters of R8 on the default platform of R79. -/
def State.reset : State := State.construct defaultConfig defaultRegions 1 defaultDevices

end Sys2Proof.Machine
end

