-- ==== Sys2Proof/Machine/Ops.lean ====
section
/-! DEFINITION. The named operations over registers and memory, the stack, the frame protocol, and interrupt entry and return
(spec 00_scope.md R11 to R14, 20_memory.md R63 to R75, 44_stack_call.md R250 to R258, 60_exceptions.md R310 to R315). -/

namespace Sys2Proof.Machine

/-! ## Sequencing -/

/-- Run the next operation on the value and state of the one before; a fault ends the step (R13, R303). -/
def Res.bind {α β : Type} (x : Res α) (k : α → State → Res β) : Res β :=
  match x with
  | .ok v s => k v s
  | .fault f => .fault f

/-- The outcome of an instruction whose last operation answered `x`. -/
def Res.toOutcome (x : Res Unit) : Host.Outcome State Fault Refusal :=
  match x with
  | .ok _ s => .next s
  | .fault f => .fault f

/-- `raise e`: the step ends, the engine is `failed(e)`, and the output events emitted so far stay emitted (R13, R169). -/
def State.raise {α : Type} (s : State) (e : EngineError) : Res α := .fault (.failed e s.output)

/-! ## Registers -/

/-- The value of a register of the file. -/
def Regs.get (x : Regs) : Reg → Word
  | .pc => x.pc
  | .acc => x.acc
  | .r1 => x.r1
  | .r2 => x.r2
  | .r3 => x.r3
  | .r4 => x.r4
  | .r5 => x.r5
  | .r6 => x.r6
  | .r7 => x.r7
  | .r8 => x.r8
  | .sp => x.sp
  | .fp => x.fp
  | .im => x.im
  | .mb => x.mb

/-- The file with one register written. No register is hardwired, read-only or write-ignored (R23). -/
def Regs.set (x : Regs) (r : Reg) (v : Word) : Regs :=
  match r with
  | .pc => { x with pc := v }
  | .acc => { x with acc := v }
  | .r1 => { x with r1 := v }
  | .r2 => { x with r2 := v }
  | .r3 => { x with r3 := v }
  | .r4 => { x with r4 := v }
  | .r5 => { x with r5 := v }
  | .r6 => { x with r6 := v }
  | .r7 => { x with r7 := v }
  | .r8 => { x with r8 := v }
  | .sp => { x with sp := v }
  | .fp => { x with fp := v }
  | .im => { x with im := v }
  | .mb => { x with mb := v }

/-- `x[r]` (R11). -/
def State.reg (s : State) (r : Reg) : Word := s.regs.get r

/-- `x[r] <- v` (R11, R25: the value is 16 bits wide). -/
def State.setReg (s : State) (r : Reg) (v : Word) : State := { s with regs := s.regs.set r v }

/-! ## The other pieces of state, one named update each -/

/-- `F <- v`, modulo 65536 (R35). -/
def State.setFrameSize (s : State) (v : Word) : State := { s with frameSize := v }

/-- `H <- b` (R36). -/
def State.setHandler (s : State) (b : Bool) : State := { s with inHandler := b }

/-- Enter a run state (R37). -/
def State.setRunState (s : State) (r : RunState) : State := { s with runState := r }

/-- Replace the devices' contents. -/
def State.setDevices (s : State) (ds : List Device) : State := { s with devices := ds }

/-- Emit an output event, after those emitted before (R75). -/
def State.emit (s : State) (e : OutputEvent) : State := { s with output := s.output ++ [e] }

/-- Count one more free value drawn (log entry 9). -/
def State.draw (s : State) : State := { s with draws := s.draws + 1 }

/-! ## Stored bytes -/

/-- The buffer a place lies in, if there is one. -/
def State.bufferAt (s : State) (l : Loc) : Option Memory :=
  match s.devices[l.device]? with
  | some d => d.buffers[l.bank]?
  | none => none

/-- The byte stored at a place. -/
def State.byteAt (s : State) (l : Loc) : Byte :=
  match s.bufferAt l with
  | some m => m.read l.offset
  | none => Memory.unlisted

/-- Store a byte at a place; a place of no buffer holds nothing. -/
def State.setByteAt (s : State) (l : Loc) (b : Byte) : State :=
  match s.devices[l.device]? with
  | some d =>
    match d.buffers[l.bank]? with
    | some m => s.setDevices (s.devices.set l.device (d.setBuffer l.bank (m.write l.offset b)))
    | none => s
  | none => s

/-- The big-endian word at a place and the next (R69). -/
def State.wordAt (s : State) (l : Loc) : Word := joinBytes (s.byteAt l) (s.byteAt l.next)

/-- Store a word big-endian at a place and the next: `set8(l, v[15:8])` then `set8(l + 1, v[7:0])` (R69). -/
def State.setWordAt (s : State) (l : Loc) (v : Word) : State :=
  (s.setByteAt l (hiByte v)).setByteAt l.next (loByte v)

/-! ## Other objects (R61) -/

/-- Which object a device is. -/
def State.objectKind (s : State) (device : Nat) : Nat :=
  match s.devices[device]? with
  | some (.object kind _ _) => kind
  | _ => 0

/-- What an object holds. -/
def State.objectContents (s : State) (device : Nat) : Nat :=
  match s.devices[device]? with
  | some (.object _ _ contents) => contents
  | _ => 0

/-- Replace what an object holds; a device of another kind is left as it is. -/
def State.setObject (s : State) (device contents : Nat) : State :=
  match s.devices[device]? with
  | some (.object kind size _) => s.setDevices (s.devices.set device (.object kind size contents))
  | _ => s

/-- `get8(local)` of an object: the byte, and its contents after (R61). -/
def State.objectGet8 (s : State) (device offset : Nat) : Byte × Nat :=
  Config.objectGet8 (s.objectKind device) (s.reg .mb) (s.objectContents device) offset

/-- `get16(local)` of an object: the word, and its contents after (R61). -/
def State.objectGet16 (s : State) (device offset : Nat) : Word × Nat :=
  Config.objectGet16 (s.objectKind device) (s.reg .mb) (s.objectContents device) offset

/-- The contents of an object after `set8(local, b)` (R61). -/
def State.objectSet8 (s : State) (device offset : Nat) (b : Byte) : Nat :=
  Config.objectSet8 (s.objectKind device) (s.reg .mb) (s.objectContents device) offset b

/-- The contents of an object after `set16(local, v)` (R61). -/
def State.objectSet16 (s : State) (device offset : Nat) (v : Word) : Nat :=
  Config.objectSet16 (s.objectKind device) (s.reg .mb) (s.objectContents device) offset v

/-! ## Routing -/

/-- What an access reaches: a byte of storage, or an I/O sink or another object at a local address. -/
inductive Target where
  | storage (l : Loc)
  | sink (device offset : Nat)
  | object (device offset : Nat)
deriving DecidableEq, Repr

/-- The first region, most recently mapped first, whose inclusive range holds the address (R63). -/
def State.route (s : State) (a : Nat) : Option Region := s.regions.find? fun r => r.covers a

/-- The device's answer to an access of `n` bytes at local address `l` for global address `a`: the buffer selected by `mb` at this
moment (R74), or another object (R61); `DeviceRange` when a byte of the access is outside its storage (R73). A sink has no storage to leave
(log entry 11); a device that does not exist or has no buffer has none at all (log entry 13). -/
def State.resolve (s : State) (device l n a : Nat) : Except EngineError Target :=
  match s.devices[device]? with
  | some .ioSink => .ok (.sink device l)
  | some (.object _ size _) => if l + n ≤ size then .ok (.object device l) else .error (.deviceRange a)
  | some d =>
    if d.selected (s.reg .mb) < d.buffers.length ∧ l + n ≤ d.size then
      .ok (.storage { device := device, bank := d.selected (s.reg .mb), offset := l })
    else .error (.deviceRange a)
  | none => .error (.deviceRange a)

/-- Where an access of `n` bytes at global address `a` goes, or why it fails: `AddressOverflow` before any routing (R66), then
`NoRegion` (R63), then the device (R73). A 16-bit access is routed once, by its first byte (R65, R67). -/
def State.access (s : State) (a n : Nat) : Except EngineError Target :=
  if a + n > 0x10000 then .error (.addressOverflow a)
  else
    match s.route a with
    | none => .error (.noRegion a)
    | some r => s.resolve r.device (r.localAddr a) n a

/-! ## The memory primitives (R67) -/

/-- `MemRead(a, 1)`. A sink returns a free value (R75), another object what its `get8` does (R61). -/
def State.memRead8 (s : State) (a : Nat) : Res Byte :=
  match s.access a 1 with
  | .ok (.storage l) => .ok (s.byteAt l) s
  | .ok (.sink _ _) => .ok (Config.ioReadByte s.draws) s.draw
  | .ok (.object d l) => .ok (s.objectGet8 d l).1 (s.setObject d (s.objectGet8 d l).2)
  | .error e => s.raise e

/-- `MemRead(a, 2)`. A sink returns a free value (R75), another object what its `get16` does (R61). -/
def State.memRead16 (s : State) (a : Nat) : Res Word :=
  match s.access a 2 with
  | .ok (.storage l) => .ok (s.wordAt l) s
  | .ok (.sink _ _) => .ok (Config.ioReadWord s.draws) s.draw
  | .ok (.object d l) => .ok (s.objectGet16 d l).1 (s.setObject d (s.objectGet16 d l).2)
  | .error e => s.raise e

/-- `MemWrite(a, 1, b)`: reached only by the host, since no instruction stores a byte (R71). A sink ignores it (R75);
another object does its `set8` (R61). -/
def State.memWrite8 (s : State) (a : Nat) (b : Byte) : Res Unit :=
  match s.access a 1 with
  | .ok (.storage l) => .ok () (s.setByteAt l b)
  | .ok (.sink _ _) => .ok () s
  | .ok (.object d l) => .ok () (s.setObject d (s.objectSet8 d l b))
  | .error e => s.raise e

/-- `MemWrite(a, 2, v)`. A sink emits the output event `(local, v)`, in program order (R75);
another object does its `set16` (R61). -/
def State.memWrite16 (s : State) (a : Nat) (v : Word) : Res Unit :=
  match s.access a 2 with
  | .ok (.storage l) => .ok () (s.setWordAt l v)
  | .ok (.sink d l) => .ok () (s.emit { device := d, offset := l, value := v })
  | .ok (.object d l) => .ok () (s.setObject d (s.objectSet16 d l v))
  | .error e => s.raise e

/-! ## The stack (R250, R251) -/

/-- `push(v)`: write at `[sp]`, then `sp <- sp - 2`, then `F <- F + 2`, both modulo 65536 (R250). -/
def State.push (s : State) (v : Word) : Res Unit :=
  (s.memWrite16 (s.reg .sp).toNat v).bind fun _ s1 =>
    .ok () ((s1.setReg .sp (s1.reg .sp - 2)).setFrameSize (s1.frameSize + 2))

/-- `pop()`: `sp <- sp + 2` first, modulo 65536, then read at the new `[sp]`, then `F <- F - 2` (R251). -/
def State.pop (s : State) : Res Word :=
  ((s.setReg .sp (s.reg .sp + 2)).memRead16 (s.reg .sp + 2).toNat).bind fun v s1 =>
    .ok v (s1.setFrameSize (s1.frameSize - 2))

/-! ## The frame protocol (R256, R258) -/

/-- Push a list of values, the first first; the first push that faults ends it (R303). -/
def State.pushAll (s : State) : List Word → Res Unit
  | [] => .ok () s
  | v :: vs => (s.push v).bind fun _ s1 => s1.pushAll vs

/-- Pop one word into each register of a list, the first first. -/
def State.popInto (s : State) : List Reg → Res Unit
  | [] => .ok () s
  | r :: rs => s.pop.bind fun v s1 => (s1.setReg r v).popInto rs

/-- `repeat n times: pop()`, each value discarded (R258). -/
def State.discard (s : State) : Nat → Res Unit
  | 0 => .ok () s
  | n + 1 => s.pop.bind fun _ s1 => s1.discard n

/-- The registers `pushState()` pushes before the frame size, in order: r1..r8, then `pc` (R256). -/
def savedRegs : List Reg := [.r1, .r2, .r3, .r4, .r5, .r6, .r7, .r8, .pc]

/-- `pushState()`: push r1..r8 and `pc`, then `F + 2` with `F` as those nine pushes left it; then `fp <- sp` and `F <- 0` (R256). -/
def State.pushState (s : State) : Res Unit :=
  (s.pushAll (savedRegs.map s.reg)).bind fun _ s1 =>
    (s1.push (s1.frameSize + 2)).bind fun _ s2 =>
      .ok () ((s2.setReg .fp (s2.reg .sp)).setFrameSize 0)

/-- `popState()`: `sp <- fp`; pop the saved frame size into `F`, then `pc`, then r8..r1; pop the argument count n and discard n
words; then `fp <- (fp at entry) + restored frame size` (R258). -/
def State.popState (s : State) : Res Unit :=
  (s.setReg .sp (s.reg .fp)).pop.bind fun fs s1 =>
    ((s1.setFrameSize fs).popInto savedRegs.reverse).bind fun _ s2 =>
      s2.pop.bind fun n s3 =>
        (s3.discard n.toNat).bind fun _ s4 =>
          .ok () (s4.setReg .fp (s.reg .fp + fs))

/-! ## Interrupt entry and return (R310 to R315) -/

/-- The interrupt line of a request value: `value mod 16` (R310). -/
def interruptLine (v : Word) : Nat := v.toNat % 16

/-- The address of a vector slot, `IVT_BASE + 2*line`, not wrapped (R78, R312). -/
def State.vectorSlot (s : State) (line : Nat) : Nat := s.config.ivtBase.toNat + 2 * line

/-- What an accepted request saves: nothing inside a handler (R313); else the count word 0 and the `pushState()` frame (R312). -/
def State.saveForInterrupt (s : State) : Res Unit :=
  if s.inHandler then .ok () s
  else (s.push 0).bind fun _ s1 => s1.pushState

/-- `requestInterrupt(value)`, the one exception entry of the machine (R310). A masked request is discarded without effect (R311).
An accepted one saves the frame unless already in a handler, sets `H`, and loads `pc` from the line's vector slot, read
after the pushes. -/
def State.requestInterrupt (s : State) (v : Word) : Res Unit :=
  if (s.reg .im).getLsbD (interruptLine v) then
    s.saveForInterrupt.bind fun _ s1 =>
      ((s1.setHandler true).memRead16 (s1.vectorSlot (interruptLine v))).bind fun handler s2 =>
        .ok () (s2.setReg .pc handler)
  else .ok () s

/-- Return from an interrupt: clear `H`, then `popState()` (R315, R282). -/
def State.returnFromInterrupt (s : State) : Res Unit := (s.setHandler false).popState

end Sys2Proof.Machine
end

