-- ==== Sys2Proof/Machine/Operands.lean ====
section
/-! DEFINITION. Operand forms shared by the meanings (spec 41_move.md R186, 42_alu.md R200, R209 to R212): effective addresses, shift
counts, and where an ALU result lands. -/

namespace Sys2Proof.Machine

/-- The address a 16-bit address operand or a register's value names (R66: 0..0xFFFF). -/
def absAddr (w : Word) : Nat := w.toNat

/-- Base plus index, an unbounded integer that is not wrapped (R186). -/
def offsetAddr (base index : Word) : Nat := base.toNat + index.toNat

/-- A shift count, taken modulo 32 (R209 to R212). -/
def shiftCount (n : Nat) : Nat := n % 32

/-- `trunc16(v * 2^(n mod 32))` (R209, R210). -/
def shiftLeft (v : Word) (n : Nat) : Word := v <<< shiftCount n

/-- `floor(v / 2^(n mod 32))`: zeros enter at bit 15 (R211, R212). -/
def shiftRight (v : Word) (n : Nat) : Word := v >>> shiftCount n

/-- `dst` of the family rules: `acc`, unless `ALU_INPLACE` names the instruction, then its register operand (R200). -/
def State.aluDst (s : State) (op : InplaceOp) (r : Reg) : Reg :=
  if op ∈ s.config.aluInplace then r else .acc

/-- An ALU result lands in a register and nothing else changes (R200). -/
def State.aluResult (s : State) (dst : Reg) (v : Word) : Host.Outcome State Fault Refusal :=
  .next (s.setReg dst v)

/-- Load the word at an address into a register (R183, R185, R186). -/
def State.loadInto (s : State) (a : Nat) (d : Reg) : Host.Outcome State Fault Refusal :=
  ((s.memRead16 a).bind fun v s1 => .ok () (s1.setReg d v)).toOutcome

/-- Store a word at an address (R182, R184). -/
def State.storeWord (s : State) (a : Nat) (v : Word) : Host.Outcome State Fault Refusal :=
  (s.memWrite16 a v).toOutcome

end Sys2Proof.Machine
end

