-- ==== Sys2Proof/Machine/Alu.lean ====
section
/-! DEFINITION. The sixteen ALU instructions (spec 42_alu.md R200 to R217): unsigned, modulo 65536, the result in `acc` or, for six of them, in the
register `ALU_INPLACE` chooses; no flags, no faults. -/

namespace Sys2Proof.Machine

/-- `ADD_REG_REG` (R201): `acc <- x[a] + x[b]`. -/
def execAddRegReg (ra : Reg) (rb : Reg) (s : State) : Host.Outcome State Fault Refusal :=
  s.aluResult .acc (s.reg ra + s.reg rb)

/-- `ADD_IMM_REG` (R202): `acc <- imm + x[a]`. -/
def execAddImmReg (imm : Word) (ra : Reg) (s : State) : Host.Outcome State Fault Refusal :=
  s.aluResult .acc (imm + s.reg ra)

/-- `SUB_IMM_REG` (R203): `acc <- x[a] - imm`: register minus immediate. -/
def execSubImmReg (imm : Word) (ra : Reg) (s : State) : Host.Outcome State Fault Refusal :=
  s.aluResult .acc (s.reg ra - imm)

/-- `SUB_REG_REG` (R204): `acc <- x[a] - x[b]`. -/
def execSubRegReg (ra : Reg) (rb : Reg) (s : State) : Host.Outcome State Fault Refusal :=
  s.aluResult .acc (s.reg ra - s.reg rb)

/-- `INC_REG` (R205): `dst <- x[a] + 1`. -/
def execIncReg (ra : Reg) (s : State) : Host.Outcome State Fault Refusal :=
  s.aluResult (s.aluDst .incReg ra) (s.reg ra + 1)

/-- `DEC_REG` (R206): `dst <- x[a] - 1`. -/
def execDecReg (ra : Reg) (s : State) : Host.Outcome State Fault Refusal :=
  s.aluResult (s.aluDst .decReg ra) (s.reg ra - 1)

/-- `MUL_IMM_REG` (R207): `acc <- imm * x[a]`, the low 16 bits. -/
def execMulImmReg (imm : Word) (ra : Reg) (s : State) : Host.Outcome State Fault Refusal :=
  s.aluResult .acc (imm * s.reg ra)

/-- `MUL_REG_REG` (R208): `acc <- x[a] * x[b]`, the low 16 bits. -/
def execMulRegReg (ra : Reg) (rb : Reg) (s : State) : Host.Outcome State Fault Refusal :=
  s.aluResult .acc (s.reg ra * s.reg rb)

/-- `LSF_REG_IMM8` (R209): `dst <- x[a] * 2^(n mod 32)`. -/
def execLsfRegImm8 (ra : Reg) (n : Byte) (s : State) : Host.Outcome State Fault Refusal :=
  s.aluResult (s.aluDst .lsfRegImm8 ra) (shiftLeft (s.reg ra) n.toNat)

/-- `LSF_REG_REG` (R210): `dst <- x[a] * 2^(x[b] mod 32)`. -/
def execLsfRegReg (ra : Reg) (rb : Reg) (s : State) : Host.Outcome State Fault Refusal :=
  s.aluResult (s.aluDst .lsfRegReg ra) (shiftLeft (s.reg ra) (s.reg rb).toNat)

/-- `RSF_REG_IMM8` (R211): `dst <- floor(x[a] / 2^(n mod 32))`. -/
def execRsfRegImm8 (ra : Reg) (n : Byte) (s : State) : Host.Outcome State Fault Refusal :=
  s.aluResult (s.aluDst .rsfRegImm8 ra) (shiftRight (s.reg ra) n.toNat)

/-- `RSF_REG_REG` (R212): `dst <- floor(x[a] / 2^(x[b] mod 32))`. -/
def execRsfRegReg (ra : Reg) (rb : Reg) (s : State) : Host.Outcome State Fault Refusal :=
  s.aluResult (s.aluDst .rsfRegReg ra) (shiftRight (s.reg ra) (s.reg rb).toNat)

/-- `AND_REG_REG` (R213): `acc <- x[a] AND x[b]`. -/
def execAndRegReg (ra : Reg) (rb : Reg) (s : State) : Host.Outcome State Fault Refusal :=
  s.aluResult .acc (s.reg ra &&& s.reg rb)

/-- `OR_REG_REG` (R214): `acc <- x[a] OR x[b]`. -/
def execOrRegReg (ra : Reg) (rb : Reg) (s : State) : Host.Outcome State Fault Refusal :=
  s.aluResult .acc (s.reg ra ||| s.reg rb)

/-- `XOR_REG_REG` (R215): `acc <- x[a] XOR x[b]`. -/
def execXorRegReg (ra : Reg) (rb : Reg) (s : State) : Host.Outcome State Fault Refusal :=
  s.aluResult .acc (s.reg ra ^^^ s.reg rb)

/-- `NOT_REG` (R216): `acc <- 0xFFFF XOR x[a]`. -/
def execNotReg (ra : Reg) (s : State) : Host.Outcome State Fault Refusal :=
  s.aluResult .acc (0xFFFF ^^^ s.reg ra)

end Sys2Proof.Machine
end

