-- ==== Sys2Proof/Machine/Flags.lean ====
section
/-! DEFINITION. The engine has no flags (spec 10_state.md R34): no instruction records a carry, overflow, zero or sign. What stands in
their place are the six conditions a jump computes against `acc` inside the jump itself (43_branch.md R230, R231). -/

namespace Sys2Proof.Machine

/-- The six conditions (R231). -/
inductive Cond where
  | ne | eq | lt | gt | le | ge
deriving DecidableEq, Repr

/-- `cond(v, acc)`: unsigned, the operand on the left and `acc` on the right (R230, R231). -/
def Cond.holds (c : Cond) (v acc : Word) : Bool :=
  match c with
  | .ne => v != acc
  | .eq => v == acc
  | .lt => decide (v.toNat < acc.toNat)
  | .gt => decide (v.toNat > acc.toNat)
  | .le => decide (v.toNat ≤ acc.toNat)
  | .ge => decide (v.toNat ≥ acc.toNat)

/-- A conditional jump: overwrite `pc` with the target when the condition holds; nothing else changes (R230). -/
def State.jumpIf (s : State) (c : Cond) (v target : Word) : Host.Outcome State Fault Refusal :=
  .next (if c.holds v (s.reg .acc) then s.setReg .pc target else s)

end Sys2Proof.Machine
end

