-- ==== Sys2Proof/Machine/Branch.lean ====
section
/-! DEFINITION. The twelve conditional jumps (spec 43_branch.md R230 to R243). A register operand is read after both fetches (40_cycle.md R166), so
`pc` as operand is the next instruction's address. -/

namespace Sys2Proof.Machine

/-- `JNE_IMM_MEM` (R232): jump to `target` when imm ≠ acc. -/
def execJneImmMem (imm : Word) (target : Word) (s : State) : Host.Outcome State Fault Refusal :=
  s.jumpIf .ne imm target

/-- `JNE_REG_MEM` (R233): jump to `target` when x[r] ≠ acc. -/
def execJneRegMem (r : Reg) (target : Word) (s : State) : Host.Outcome State Fault Refusal :=
  s.jumpIf .ne (s.reg r) target

/-- `JEQ_IMM_MEM` (R234): jump to `target` when imm = acc. -/
def execJeqImmMem (imm : Word) (target : Word) (s : State) : Host.Outcome State Fault Refusal :=
  s.jumpIf .eq imm target

/-- `JEQ_REG_MEM` (R235): jump to `target` when x[r] = acc. -/
def execJeqRegMem (r : Reg) (target : Word) (s : State) : Host.Outcome State Fault Refusal :=
  s.jumpIf .eq (s.reg r) target

/-- `JLT_IMM_MEM` (R236): jump to `target` when imm < acc. -/
def execJltImmMem (imm : Word) (target : Word) (s : State) : Host.Outcome State Fault Refusal :=
  s.jumpIf .lt imm target

/-- `JLT_REG_MEM` (R237): jump to `target` when x[r] < acc. -/
def execJltRegMem (r : Reg) (target : Word) (s : State) : Host.Outcome State Fault Refusal :=
  s.jumpIf .lt (s.reg r) target

/-- `JGT_IMM_MEM` (R238): jump to `target` when imm > acc. -/
def execJgtImmMem (imm : Word) (target : Word) (s : State) : Host.Outcome State Fault Refusal :=
  s.jumpIf .gt imm target

/-- `JGT_REG_MEM` (R239): jump to `target` when x[r] > acc. -/
def execJgtRegMem (r : Reg) (target : Word) (s : State) : Host.Outcome State Fault Refusal :=
  s.jumpIf .gt (s.reg r) target

/-- `JLE_IMM_MEM` (R240): jump to `target` when imm ≤ acc. -/
def execJleImmMem (imm : Word) (target : Word) (s : State) : Host.Outcome State Fault Refusal :=
  s.jumpIf .le imm target

/-- `JLE_REG_MEM` (R241): jump to `target` when x[r] ≤ acc. -/
def execJleRegMem (r : Reg) (target : Word) (s : State) : Host.Outcome State Fault Refusal :=
  s.jumpIf .le (s.reg r) target

/-- `JGE_IMM_MEM` (R242): jump to `target` when imm ≥ acc. -/
def execJgeImmMem (imm : Word) (target : Word) (s : State) : Host.Outcome State Fault Refusal :=
  s.jumpIf .ge imm target

/-- `JGE_REG_MEM` (R243): jump to `target` when x[r] ≥ acc. -/
def execJgeRegMem (r : Reg) (target : Word) (s : State) : Host.Outcome State Fault Refusal :=
  s.jumpIf .ge (s.reg r) target

end Sys2Proof.Machine
end

