-- ==== Sys2Proof/Machine/Move.lean ====
section
/-! DEFINITION. The seven `mov` forms (spec 41_move.md R180 to R186). Each meaning is run on the state after the fetch, with `pc` at the
next instruction (40_cycle.md R166). -/

namespace Sys2Proof.Machine

/-- `MOV_IMM_REG` (R180): `x[d] <- imm`. -/
def execMovImmReg (imm : Word) (rd : Reg) (s : State) : Host.Outcome State Fault Refusal :=
  .next (s.setReg rd imm)

/-- `MOV_REG_REG` (R181): `x[d] <- x[s]`. -/
def execMovRegReg (rs : Reg) (rd : Reg) (s : State) : Host.Outcome State Fault Refusal :=
  .next (s.setReg rd (s.reg rs))

/-- `MOV_REG_MEM` (R182): `MemWrite(addr, 2, x[s])`. -/
def execMovRegMem (rs : Reg) (addr : Word) (s : State) : Host.Outcome State Fault Refusal :=
  s.storeWord (absAddr addr) (s.reg rs)

/-- `MOV_MEM_REG` (R183): `x[d] <- MemRead(addr, 2)`. -/
def execMovMemReg (addr : Word) (rd : Reg) (s : State) : Host.Outcome State Fault Refusal :=
  s.loadInto (absAddr addr) rd

/-- `MOV_IMM_MEM` (R184): `MemWrite(addr, 2, imm)`. -/
def execMovImmMem (imm : Word) (addr : Word) (s : State) : Host.Outcome State Fault Refusal :=
  s.storeWord (absAddr addr) imm

/-- `MOV_REG_PTR_REG` (R185): `x[d] <- MemRead(x[p], 2)`. -/
def execMovRegPtrReg (rp : Reg) (rd : Reg) (s : State) : Host.Outcome State Fault Refusal :=
  s.loadInto (absAddr (s.reg rp)) rd

/-- `MOV_IMM_OFF_REG` (R186): `x[d] <- MemRead(base + x[i], 2)`, the sum not wrapped. -/
def execMovImmOffReg (imm : Word) (ri : Reg) (rd : Reg) (s : State) : Host.Outcome State Fault Refusal :=
  s.loadInto (offsetAddr imm (s.reg ri)) rd

end Sys2Proof.Machine
end

