-- ==== Sys2Proof/Machine/Stack.lean ====
section
/-! DEFINITION. Push, pop, call and return (spec 44_stack_call.md R260 to R265), over the primitives and the frame protocol of Ops. -/

namespace Sys2Proof.Machine

/-- `PSH_IMM` (R260): `push(imm)`. -/
def execPshImm (imm : Word) (s : State) : Host.Outcome State Fault Refusal :=
  (s.push imm).toOutcome

/-- `PSH_REG` (R261): `push(x[r])`, `x[r]` read before the push changes `sp`. -/
def execPshReg (r : Reg) (s : State) : Host.Outcome State Fault Refusal :=
  (s.push (s.reg r)).toOutcome

/-- `POP_REG` (R262): `x[r] <- pop()`, after the pop's own update of `sp`. -/
def execPopReg (r : Reg) (s : State) : Host.Outcome State Fault Refusal :=
  (s.pop.bind fun v s1 => .ok () (s1.setReg r v)).toOutcome

/-- `CAL_IMM` (R263): `pushState()`, then `pc <- target`; `pc` is already the return address. -/
def execCalImm (target : Word) (s : State) : Host.Outcome State Fault Refusal :=
  (s.pushState.bind fun _ s1 => .ok () (s1.setReg .pc target)).toOutcome

/-- `CAL_REG` (R264): `pushState()`, then `pc <- x[r]`, `x[r]` read before `pushState()`. -/
def execCalReg (r : Reg) (s : State) : Host.Outcome State Fault Refusal :=
  (s.pushState.bind fun _ s1 => .ok () (s1.setReg .pc (s.reg r))).toOutcome

/-- `RET` (R265): `popState()`; `H` is left as it is (R316). -/
def execRet (s : State) : Host.Outcome State Fault Refusal :=
  s.popState.toOutcome

end Sys2Proof.Machine
end

