-- ==== Sys2Proof/Machine/System.lean ====
section
/-! DEFINITION. The system instructions (spec 45_system.md R280 to R282). None is privileged (60_exceptions.md R323). -/

namespace Sys2Proof.Machine

/-- `HLT` (R280): the run state becomes halted; `pc` stays past the opcode. -/
def execHlt (s : State) : Host.Outcome State Fault Refusal :=
  .next (s.setRunState .halted)

/-- `INT_IMM` (R281): `requestInterrupt(imm)`; `pc` is already the address pushed as the return address. -/
def execIntImm (imm : Word) (s : State) : Host.Outcome State Fault Refusal :=
  (s.requestInterrupt imm).toOutcome

/-- `RTI` (R282): clear `H`, then `popState()`, also when `H` is already clear (D27). -/
def execRti (s : State) : Host.Outcome State Fault Refusal :=
  s.returnFromInterrupt.toOutcome

end Sys2Proof.Machine
end

