-- ==== Sys2Proof/Machine/Dispatch.lean ====
section
/-! DEFINITION. One arm per instruction (spec 30_encoding.md R112, R117): the engine's dispatch to the instruction's meaning. -/

namespace Sys2Proof.Machine

def exec (i : Instr) (s : State) : Host.Outcome State Fault Refusal :=
  match i with
  | .movImmReg imm rd => Sys2Proof.Machine.execMovImmReg imm rd s
  | .movRegReg rs rd => Sys2Proof.Machine.execMovRegReg rs rd s
  | .movRegMem rs addr => Sys2Proof.Machine.execMovRegMem rs addr s
  | .movMemReg addr rd => Sys2Proof.Machine.execMovMemReg addr rd s
  | .movImmMem imm addr => Sys2Proof.Machine.execMovImmMem imm addr s
  | .movRegPtrReg rp rd => Sys2Proof.Machine.execMovRegPtrReg rp rd s
  | .movImmOffReg imm ri rd => Sys2Proof.Machine.execMovImmOffReg imm ri rd s
  | .addRegReg ra rb => Sys2Proof.Machine.execAddRegReg ra rb s
  | .addImmReg imm ra => Sys2Proof.Machine.execAddImmReg imm ra s
  | .subImmReg imm ra => Sys2Proof.Machine.execSubImmReg imm ra s
  | .subRegReg ra rb => Sys2Proof.Machine.execSubRegReg ra rb s
  | .incReg ra => Sys2Proof.Machine.execIncReg ra s
  | .decReg ra => Sys2Proof.Machine.execDecReg ra s
  | .mulImmReg imm ra => Sys2Proof.Machine.execMulImmReg imm ra s
  | .mulRegReg ra rb => Sys2Proof.Machine.execMulRegReg ra rb s
  | .lsfRegImm8 ra n => Sys2Proof.Machine.execLsfRegImm8 ra n s
  | .lsfRegReg ra rb => Sys2Proof.Machine.execLsfRegReg ra rb s
  | .rsfRegImm8 ra n => Sys2Proof.Machine.execRsfRegImm8 ra n s
  | .rsfRegReg ra rb => Sys2Proof.Machine.execRsfRegReg ra rb s
  | .andRegReg ra rb => Sys2Proof.Machine.execAndRegReg ra rb s
  | .orRegReg ra rb => Sys2Proof.Machine.execOrRegReg ra rb s
  | .xorRegReg ra rb => Sys2Proof.Machine.execXorRegReg ra rb s
  | .notReg ra => Sys2Proof.Machine.execNotReg ra s
  | .jneImmMem imm target => Sys2Proof.Machine.execJneImmMem imm target s
  | .jneRegMem r target => Sys2Proof.Machine.execJneRegMem r target s
  | .jeqImmMem imm target => Sys2Proof.Machine.execJeqImmMem imm target s
  | .jeqRegMem r target => Sys2Proof.Machine.execJeqRegMem r target s
  | .jltImmMem imm target => Sys2Proof.Machine.execJltImmMem imm target s
  | .jltRegMem r target => Sys2Proof.Machine.execJltRegMem r target s
  | .jgtImmMem imm target => Sys2Proof.Machine.execJgtImmMem imm target s
  | .jgtRegMem r target => Sys2Proof.Machine.execJgtRegMem r target s
  | .jleImmMem imm target => Sys2Proof.Machine.execJleImmMem imm target s
  | .jleRegMem r target => Sys2Proof.Machine.execJleRegMem r target s
  | .jgeImmMem imm target => Sys2Proof.Machine.execJgeImmMem imm target s
  | .jgeRegMem r target => Sys2Proof.Machine.execJgeRegMem r target s
  | .pshImm imm => Sys2Proof.Machine.execPshImm imm s
  | .pshReg r => Sys2Proof.Machine.execPshReg r s
  | .popReg r => Sys2Proof.Machine.execPopReg r s
  | .calImm target => Sys2Proof.Machine.execCalImm target s
  | .calReg r => Sys2Proof.Machine.execCalReg r s
  | .ret => Sys2Proof.Machine.execRet s
  | .hlt => Sys2Proof.Machine.execHlt s
  | .intImm imm => Sys2Proof.Machine.execIntImm imm s
  | .rti => Sys2Proof.Machine.execRti s

end Sys2Proof.Machine
end

