-- ==== Sys2Proof/Machine/Fetch.lean ====
section
/-! DEFINITION. Fetching an instruction through the mapper (spec 40_cycle.md R160 to R166): the opcode byte, its row of the metadata table,
and the operand fields of the row's mode, in layout order, `pc` advancing with each. -/

namespace Sys2Proof.Machine

/-- `fetch()`: read one byte at `[pc]` and advance `pc` by 1, wrapping 0xFFFF to 0x0000 (R162). -/
def State.fetch (s : State) : Res Byte :=
  (s.memRead8 (s.reg .pc).toNat).bind fun b s1 => .ok b (s1.setReg .pc (s1.reg .pc + 1))

/-- `fetch16()`: read a big-endian word at `[pc]` and advance `pc` by 2; `pc` = 0xFFFF faults (R163). -/
def State.fetch16 (s : State) : Res Word :=
  (s.memRead16 (s.reg .pc).toNat).bind fun w s1 => .ok w (s1.setReg .pc (s1.reg .pc + 2))

/-- `fetchReg()`: a register byte reduced modulo 14 (R164). -/
def State.fetchReg (s : State) : Res Reg := s.fetch.bind fun b s1 => .ok (Reg.ofByte b) s1

/-- Fetch one operand field: a 16-bit field by one `fetch16()`, an 8-bit immediate by one `fetch()`, a register byte by one
`fetchReg()` (R165). -/
def State.fetchField (s : State) (f : Field) (o : Operands) : Res Operands :=
  match f with
  | .imm => s.fetch16.bind fun w s1 => .ok { o with imm := w } s1
  | .addr => s.fetch16.bind fun w s1 => .ok { o with addr := w } s1
  | .regA => s.fetchReg.bind fun r s1 => .ok { o with regA := r } s1
  | .regB => s.fetchReg.bind fun r s1 => .ok { o with regB := r } s1
  | .imm8 => s.fetch.bind fun b s1 => .ok { o with imm8 := b } s1

/-- Fetch the fields of a layout in order (R117, R165). -/
def State.fetchFields (s : State) (o : Operands) : List Field → Res Operands
  | [] => .ok o s
  | f :: fs => (s.fetchField f o).bind fun o1 s1 => s1.fetchFields o1 fs

/-- Fetch the instruction at `pc`: its opcode, its row, its operands (R160, R117). An opcode byte with no row raises
`IllegalOpcode`, or under the `nop` policy is a one-byte instruction with no effect, answered as `none` (R113). -/
def State.fetchInstr (s : State) : Res (Option Instr) :=
  s.fetch.bind fun b s1 =>
    match OpcodeMap.rowOfByte s1.config.opcodeMap b with
    | some row => (s1.fetchFields {} row.op.mode.layout).bind fun o s2 => .ok (some (Instr.ofOp row.op o)) s2
    | none =>
      match s1.config.unknownOpcode with
      | .fault => s1.raise (.illegalOpcode b (s.reg .pc))
      | .nop => .ok none s1

/-- One step of a running engine: fetch, then the instruction's effect (R160). -/
def State.fetchAndExecute (s : State) : Host.Outcome State Fault Refusal :=
  match s.fetchInstr with
  | .ok (some i) s1 => exec i s1
  | .ok none s1 => .next s1
  | .fault f => .fault f

/-- Store bytes where fetches that start at `a` read them, one routed byte access each, addresses wrapping as `pc` does (R27); a byte
whose address routes to no storage is left out. -/
def State.poke (s : State) (a : Word) : List Byte → State
  | [] => s
  | b :: bs =>
    match s.memWrite8 a.toNat b with
    | .ok _ s1 => s1.poke (a + 1) bs
    | .fault _ => s.poke (a + 1) bs

end Sys2Proof.Machine
end

