-- ==== Sys2Proof/Machine/Step.lean ====
section
/-! DEFINITION. The step (spec 40_cycle.md R160) and the placing of an instruction where the step fetches. -/

namespace Sys2Proof.Machine

/-- `step()`: one fetch and dispatch of a running engine; a halted or failed engine takes no step (R37, R160): stuck. -/
def step (s : State) : Host.Outcome State Fault Refusal :=
  match s.runState with
  | .running => s.fetchAndExecute
  | .halted => .fault .engineHalted
  | .failed reason => .fault (.engineFailed reason)

/-- The state with the instruction of `w` stored where `step` fetches its next instruction: its bytes at `pc` and up, every bit above
`nbits` zero (log entry 17). -/
def State.withFetchWord (s : State) (nbits w : Nat) : State := s.poke (s.reg .pc) (tableBytes nbits w)

end Sys2Proof.Machine
end

