-- ==== Sys2Proof/Machine/HostPort.lean ====
section
/-! DEFINITION. The host's interactions with the engine, each between two steps (spec 60_exceptions.md R330): map and unmap, load, step,
run, interrupt request, and the registers by name. `step` itself uses none of them. What the host may do once the engine has stopped the
spec leaves unsaid (R348): here every interaction but a step and a request acts as on a running engine (DESIGN CHOICE, log entry 24). -/

namespace Sys2Proof.Machine

/-! ## Register names (10_state.md R41) -/

/-- The name of a register (R21). -/
def regName : Reg → String
  | .pc => "pc"
  | .acc => "acc"
  | .r1 => "r1"
  | .r2 => "r2"
  | .r3 => "r3"
  | .r4 => "r4"
  | .r5 => "r5"
  | .r6 => "r6"
  | .r7 => "r7"
  | .r8 => "r8"
  | .sp => "sp"
  | .fp => "fp"
  | .im => "im"
  | .mb => "mb"

/-- The registers in ordinal order (R21). -/
def allRegs : List Reg := [.pc, .acc, .r1, .r2, .r3, .r4, .r5, .r6, .r7, .r8, .sp, .fp, .im, .mb]

/-- The fixed, ordered public list of register names (R41). -/
def registerNames : List String := allRegs.map regName

/-- The register of a name, if the name is in the list (R41). -/
def regOfName (name : String) : Option Reg := allRegs.find? fun r => regName r == name

/-! ## The region list and the devices (20_memory.md R76, R330) -/

/-- `map(device, start, end, remap)`: put a new region before all others and return its token (R76). -/
def State.map (s : State) (device start stop : Nat) (remap : Bool) : State × Nat :=
  ({ s with
      regions := { token := s.nextToken, device := device, start := start, stop := stop, remap := remap } :: s.regions
      nextToken := s.nextToken + 1 },
    s.nextToken)

/-- Invoke the handle of a token: remove exactly its region (R76). -/
def State.unmap (s : State) (token : Nat) : State :=
  { s with regions := s.regions.filter fun r => r.token != token }

/-- Store one byte of an image. The spec gives the loader no bound: a byte past the device's storage, or for a device with no buffer,
is left out (DESIGN CHOICE, log entry 25). -/
def State.loadByte (s : State) (l : Loc) (b : Byte) : State :=
  match s.devices[l.device]? with
  | some d => if l.offset < d.size then s.setByteAt l b else s
  | none => s

/-- Copy a byte image into a buffer of a device at a local base address; the engine is not involved (R330). -/
def State.load (s : State) (l : Loc) : List Byte → State
  | [] => s
  | b :: bs => (s.loadByte l b).load l.next bs

/-! ## The failed engine (40_cycle.md R169, 60_exceptions.md R300) -/

/-- The n-th draw's register file of a failed engine: every register a free value (R169; log entry 7). -/
def freeRegs (n : Nat) : Regs :=
  { pc := Config.failedWord n 0, acc := Config.failedWord n 1, r1 := Config.failedWord n 2, r2 := Config.failedWord n 3,
    r3 := Config.failedWord n 4, r4 := Config.failedWord n 5, r5 := Config.failedWord n 6, r6 := Config.failedWord n 7,
    r7 := Config.failedWord n 8, r8 := Config.failedWord n 9, sp := Config.failedWord n 10, fp := Config.failedWord n 11,
    im := Config.failedWord n 12, mb := Config.failedWord n 13 }

/-- Free bytes for one buffer of `size` bytes. -/
def freeMemory (n device bank size : Nat) : Memory :=
  Memory.ofCells ((Config.failedBytes n device bank).filter fun cell => cell.1 < size)

/-- A device of the same kind and size whose every stored byte is a free value. -/
def Device.forget (n k : Nat) : Device → Device
  | .ram sz _ => .ram sz (freeMemory n k 0 sz)
  | .bank sz bs => .bank sz (bs.mapIdx fun bank _ => freeMemory n k bank sz)
  | .ioSink => .ioSink
  | .object kind sz _ => .object kind sz (Config.failedObject n k)

/-- The engine after a fault: `failed(reason)`, with the output events that were emitted; what the registers, `F`, `H` and the
stored bytes hold is unspecified (R169), so each is a free value. -/
def State.fail (s : State) (e : EngineError) (output : List OutputEvent) : State :=
  { s with
    regs := freeRegs s.draws
    frameSize := Config.failedWord s.draws 14
    inHandler := Config.failedFlag s.draws
    runState := .failed e
    devices := s.devices.mapIdx fun k d => d.forget s.draws k
    output := output
    draws := s.draws + 1 }

/-! ## Registers by name (10_state.md R41) -/

/-- An engine error that a host access raises ends execution (R13, R300): a running engine is then `failed(reason)`. A halted or failed
engine stays as it is, since both are terminal (R37). Log entry 23. -/
def State.hostRaise (s : State) (e : EngineError) : State :=
  match s.runState with
  | .running => s.fail e s.output
  | _ => s

/-- Read a register by name: the engine after it, and the answer. A name not in the list is the engine error `UnknownRegisterName`
(R41, R302). A stopped engine answers too (log entry 24). -/
def State.hostGet (s : State) (name : String) : State × Except EngineError Word :=
  match regOfName name with
  | some r => (s, .ok (s.reg r))
  | none => (s.hostRaise (.unknownRegisterName name), .error (.unknownRegisterName name))

/-- Set a register by name, storing `trunc16` of the value (R330, R25): the engine after it, and the error if the name is not in the
list (R41, R302). A stopped engine's registers are set too (log entry 24). -/
def State.hostSet (s : State) (name : String) (v : Int) : State × Option EngineError :=
  match regOfName name with
  | some r => (s.setReg r (BitVec.ofInt 16 v), none)
  | none => (s.hostRaise (.unknownRegisterName name), some (.unknownRegisterName name))

/-! ## Step, run and interrupt request (R330) -/

/-- What `step()` tells the host (R160, R330). -/
inductive StepReport where
  | continues
  /-- The step executed `HLT` (R280). -/
  | haltFired
  /-- The step faulted (R300). -/
  | failed (e : EngineError)
  /-- The engine was not running; no step was taken (R37, R322). -/
  | notRunning
deriving DecidableEq, Repr

/-- The host's `step()`: one step, the engine after it, and whether `HLT` fired or a fault did (R160, R300). -/
def State.hostStep (s : State) : State × StepReport :=
  match step s with
  | .next t => (t, if t.runState = .halted then .haltFired else .continues)
  | .fault (.failed e output) => (s.fail e output, .failed e)
  | .fault .engineHalted => (s, .notRunning)
  | .fault (.engineFailed _) => (s, .notRunning)
  | .refused _ => (s, .notRunning)

/-- The host's `run()`, cut off after a number of steps since it may never end: it steps until `HLT` fires or a step faults
(R161, R348). -/
def State.hostRun (s : State) : Nat → State × StepReport
  | 0 => (s, .continues)
  | n + 1 =>
    match s.hostStep with
    | (t, .continues) => t.hostRun n
    | (t, report) => (t, report)

/-- The host's interrupt request: `requestInterrupt(value)` on a running engine, which may fault; a halted or failed engine is not
changed (R314, R322, R330). -/
def State.hostInterrupt (s : State) (v : Word) : State × Option EngineError :=
  match s.runState with
  | .running =>
    match s.requestInterrupt v with
    | .ok _ t => (t, none)
    | .fault (.failed e output) => (s.fail e output, some e)
    | .fault _ => (s, none)
  | _ => (s, none)

end Sys2Proof.Machine
end

