-- ==== Sys2Proof/Machine/Assembler.lean ====
section
/-! DEFINITION. The two-pass assembler behind its parser (spec 30_encoding.md R126, R128 to R132): statements, expressions, the symbol
table of pass 1 and the bytes of pass 2. It reads the same metadata table as the engine (R100). The toolchain is not part of the
machine (00_scope.md R5, R7): no step uses it. -/

namespace Sys2Proof.Machine

/-! ## Statements (R119, R121, R124) -/

/-- An identifier (R120). Two are the same name only when every character is the same: R120 gives any letter case to registers and mnemonics
alone, and whether the names of symbols, structures and members differ by letter case the spec leaves open (DESIGN CHOICE, log
entry 26). -/
abbrev Name := List Char

/-- The binary operators of an expression (R126). -/
inductive ExprOp where
  | plus | minus | times
deriving DecidableEq, Repr

/-- An expression: what an immediate or an address may be (R121, R126). -/
inductive Expr where
  /-- A hex literal, an unsigned integer (R120). -/
  | literal (v : Nat)
  /-- A variable `!name` (R120). -/
  | variable (name : Name)
  /-- A member access `<shape> base.member` (R125). -/
  | member (shape base member : Name)
  /-- A binary operation (R126). -/
  | binOp (op : ExprOp) (l r : Expr)
deriving DecidableEq, Repr

/-- An operand of an instruction: an expression for an immediate or address field, a register for a register field (R121). -/
inductive AsmOperand where
  | expr (e : Expr)
  | reg (r : Reg)
deriving DecidableEq, Repr

/-- A statement (R119, R124); an instruction carries its (mnemonic, mode) pair and its operands in layout order (R122). -/
inductive Stmt where
  | label (name : Name)
  | constant (name : Name) (value : Nat)
  | struct (name : Name) (members : List (Name × Nat))
  | data8 (name : Name) (values : List Nat)
  | data16 (name : Name) (values : List Nat)
  | instr (op : Op) (operands : List AsmOperand)
deriving DecidableEq, Repr

/-- Why no image is produced (R127, R129, R131, R304). -/
inductive AsmError where
  /-- The grammar was not met: the position in the text and the construct expected there (R127). -/
  | parse (position : Nat) (expected : String)
  /-- A name is bound twice (R129). -/
  | duplicate (name : Name)
  /-- A symbol, structure or member that no statement binds (R131). -/
  | unresolved (name : Name)
  /-- A name bound, but not to the kind its use needs (R131: a binding error; that it names the symbol is log entry 27's). -/
  | wrongKind (name : Name)
  /-- The table has no row for the instruction (R115). -/
  | noRow (op : Op)
  /-- The operands are not those of the instruction's mode; the parser never makes such a statement (R122). -/
  | badOperands (op : Op)
deriving DecidableEq, Repr

/-! ## Expressions from flat lists (R126) -/

/-- The priority of an operator: multiply 2, plus 1, minus 0 (R126). -/
def ExprOp.priority : ExprOp → Nat
  | .times => 2
  | .plus => 1
  | .minus => 0

/-- The highest priority among the operators of a list (R126). -/
def maxPriority (l : List (ExprOp × Expr)) : Nat := l.foldl (fun p x => max p x.1.priority) 0

/-- Collapse the leftmost operator of priority `p` and its two neighbours into one node (R126). -/
def collapse (p : Nat) : Expr → List (ExprOp × Expr) → Expr × List (ExprOp × Expr)
  | e, [] => (e, [])
  | e, (op, e1) :: rest =>
    if op.priority = p then (.binOp op e e1, rest)
    else (e, (op, (collapse p e1 rest).1) :: (collapse p e1 rest).2)

/-- Collapse `n` times. -/
def reduceTimes : Nat → Expr → List (ExprOp × Expr) → Expr
  | 0, e, _ => e
  | n + 1, e, l => reduceTimes n (collapse (maxPriority l) e l).1 (collapse (maxPriority l) e l).2

/-- `reduce` of the flat list `e, op1, e1, op2, e2, ...`: one collapse for each operator (R126). -/
def reduce (e : Expr) (l : List (ExprOp × Expr)) : Expr := reduceTimes l.length e l

/-! ## The symbol table (R128, R129) -/

/-- What a name is bound to (R128). -/
inductive Symbol where
  | address (a : Nat)
  | value (v : Nat)
  /-- The members with their offsets. -/
  | struct (members : List (Name × Nat))
deriving DecidableEq, Repr

/-- The symbol table: one namespace for the three kinds (R129). -/
abbrev SymTab := List (Name × Symbol)

/-- The first entry of a name (R129, R131), its characters compared exactly, letter case too (DESIGN CHOICE, log entry 26). -/
def lookupName {α : Type} : List (Name × α) → Name → Option α
  | [], _ => none
  | (n, x) :: rest, name => if n = name then some x else lookupName rest name

/-- Bind a name, once (R129). -/
def SymTab.bind (t : SymTab) (name : Name) (x : Symbol) : Except AsmError SymTab :=
  match lookupName t name with
  | none => .ok ((name, x) :: t)
  | some _ => .error (.duplicate name)

/-- Member offsets: the running sum of the sizes declared before, from `start` (R128). -/
def memberOffsets : Nat → List (Name × Nat) → List (Name × Nat)
  | _, [] => []
  | start, (m, size) :: rest => (m, start) :: memberOffsets (start + size) rest

/-- The names a statement binds: one, or for an instruction none (R128). -/
def Stmt.binds : Stmt → List Name
  | .label name => [name]
  | .constant name _ => [name]
  | .struct name _ => [name]
  | .data8 name _ => [name]
  | .data16 name _ => [name]
  | .instr _ _ => []

/-! ## Pass 1: allocation (R128) -/

/-- The size of an instruction in the table. -/
def sizeInTable (map : List Row) (op : Op) : Except AsmError Nat :=
  match OpcodeMap.rowOfOp map op with
  | some row => .ok row.size
  | none => .error (.noRow op)

/-- One statement of pass 1: the counter and the symbol table after it (R128). -/
def Stmt.allocate (map : List Row) (i : Stmt) (counter : Nat) (t : SymTab) : Except AsmError (Nat × SymTab) :=
  match i with
  | .label name => (t.bind name (.address counter)).map fun t1 => (counter, t1)
  | .constant name v => (t.bind name (.value v)).map fun t1 => (counter, t1)
  | .struct name members => (t.bind name (.struct (memberOffsets 0 members))).map fun t1 => (counter, t1)
  | .data8 name vs => (t.bind name (.address counter)).map fun t1 => (counter + vs.length, t1)
  | .data16 name vs => (t.bind name (.address counter)).map fun t1 => (counter + 2 * vs.length, t1)
  | .instr op _ => (sizeInTable map op).map fun n => (counter + n, t)

/-- Pass 1 over the statements in order (R128). -/
def allocate (map : List Row) : List Stmt → Nat → SymTab → Except AsmError (Nat × SymTab)
  | [], counter, t => .ok (counter, t)
  | i :: rest, counter, t =>
    match i.allocate map counter t with
    | .ok (counter1, t1) => allocate map rest counter1 t1
    | .error e => .error e

/-! ## Pass 2: evaluation and encoding (R130, R131) -/

/-- An operator on words, with 16-bit wraparound (R131). -/
def ExprOp.apply : ExprOp → Word → Word → Word
  | .plus, a, b => a + b
  | .minus, a, b => a - b
  | .times, a, b => a * b

/-- The value of an expression under a symbol table (R131). Which error is reported where several names are missing or of the wrong kind
the spec leaves open: here of a member access the structure's first, then the base's, then the member's, and of an operator the left
operand's first (DESIGN CHOICE, log entry 27). -/
def Expr.eval (t : SymTab) : Expr → Except AsmError Word
  | .literal v => .ok (BitVec.ofNat 16 v)
  | .variable name =>
    match lookupName t name with
    | some (.address a) => .ok (BitVec.ofNat 16 a)
    | some (.value v) => .ok (BitVec.ofNat 16 v)
    | some (.struct _) => .error (.wrongKind name)
    | none => .error (.unresolved name)
  | .member shape base name =>
    match lookupName t shape, lookupName t base with
    | some (.struct members), some (.address a) =>
      match lookupName members name with
      | some offset => .ok (BitVec.ofNat 16 (a + offset))
      | none => .error (.unresolved name)
    | none, _ => .error (.unresolved shape)
    | some (.struct _), none => .error (.unresolved base)
    | some (.struct _), some _ => .error (.wrongKind base)
    | some _, _ => .error (.wrongKind shape)
  | .binOp op l r =>
    match l.eval t, r.eval t with
    | .ok a, .ok b => .ok (op.apply a b)
    | .error e, _ => .error e
    | .ok _, .error e => .error e

/-- Put the value of one operand into its field; an 8-bit immediate is truncated to 8 bits (R118, R131). -/
def fillField (t : SymTab) (op : Op) (f : Field) (x : AsmOperand) (o : Operands) : Except AsmError Operands :=
  match f, x with
  | .imm, .expr e => (e.eval t).map fun v => { o with imm := v }
  | .addr, .expr e => (e.eval t).map fun v => { o with addr := v }
  | .imm8, .expr e => (e.eval t).map fun v => { o with imm8 := loByte v }
  | .regA, .reg r => .ok { o with regA := r }
  | .regB, .reg r => .ok { o with regB := r }
  | _, _ => .error (.badOperands op)

/-- The operand values of an instruction, its operands in layout order (R122, R131); the first operand's error is the one reported
(DESIGN CHOICE, log entry 27). -/
def fillFields (t : SymTab) (op : Op) : List Field → List AsmOperand → Operands → Except AsmError Operands
  | [], [], o => .ok o
  | f :: fs, x :: xs, o =>
    match fillField t op f x o with
    | .ok o1 => fillFields t op fs xs o1
    | .error e => .error e
  | _, _, _ => .error (.badOperands op)

/-- The bytes of one statement (R130). -/
def Stmt.emit (map : List Row) (t : SymTab) (i : Stmt) : Except AsmError (List Byte) :=
  match i with
  | .label _ => .ok []
  | .constant _ _ => .ok []
  | .struct _ _ => .ok []
  | .data8 _ vs => .ok (vs.map fun v => BitVec.ofNat 8 v)
  | .data16 _ vs => .ok (vs.flatMap fun v => [hiByte (BitVec.ofNat 16 v), loByte (BitVec.ofNat 16 v)])
  | .instr op xs =>
    match fillFields t op op.mode.layout xs {} with
    | .ok o =>
      match encode map (Instr.ofOp op o) with
      | some bytes => .ok bytes
      | none => .error (.noRow op)
    | .error e => .error e

/-- Pass 2 over the statements in order (R130); the first statement that fails ends it. -/
def emitAll (map : List Row) (t : SymTab) : List Stmt → Except AsmError (List Byte)
  | [] => .ok []
  | i :: rest =>
    match i.emit map t, emitAll map t rest with
    | .ok bytes, .ok more => .ok (bytes ++ more)
    | .error e, _ => .error e
    | .ok _, .error e => .error e

/-- Both passes: a complete image or a complete failure (R132). -/
def encodeStmts (map : List Row) (stmts : List Stmt) : Except AsmError (List Byte) :=
  match allocate map stmts 0 [] with
  | .ok (_, t) => emitAll map t stmts
  | .error e => .error e

end Sys2Proof.Machine
end

