-- ==== Sys2Proof/Machine/AsmText.lean ====
section
/-! DEFINITION. The assembler's text: lexical elements, operand forms, statements, and the choice among a mnemonic's modes (spec
30_encoding.md R119 to R127). A parse keeps its position, so that a mismatch says where it is and what was expected (R127). Where the
concrete syntax leaves a choice, log entry 22 names it. -/

namespace Sys2Proof.Machine

/-! ## Positions and lexical elements (R120) -/

/-- The text still to be read, and how many characters stand before it. -/
structure Cursor where
  position : Nat
  rest : List Char
deriving DecidableEq, Repr

/-- A parse of one construct: its value and the text after it, or the first mismatch (R127). -/
abbrev Parser (α : Type) := Cursor → Except AsmError (α × Cursor)

/-- A mismatch at a cursor. -/
def Cursor.expected {α : Type} (c : Cursor) (what : String) : Except AsmError α := .error (.parse c.position what)

/-- Whitespace: spaces, tabs, newlines (R119). -/
def isSpace (ch : Char) : Bool := ch == ' ' || ch == '\t' || ch == '\n'

/-- An identifier begins with a letter or underscore (R120). Which characters are letters the spec leaves open: here a to z and A to Z of
ASCII, and no other (DESIGN CHOICE, log entry 22). -/
def isIdentStart (ch : Char) : Bool :=
  ('a' ≤ ch && ch ≤ 'z') || ('A' ≤ ch && ch ≤ 'Z') || ch == '_'

/-- An identifier goes on with letters, digits, underscores (R120). Which characters are digits the spec leaves open: here 0 to 9 of
ASCII, and no other (DESIGN CHOICE, log entry 22). -/
def isIdentRest (ch : Char) : Bool := isIdentStart ch || ('0' ≤ ch && ch ≤ '9')

/-- The value of a hex digit (R120). -/
def hexValue (ch : Char) : Option Nat :=
  if '0' ≤ ch && ch ≤ '9' then some (ch.toNat - 48)
  else if 'a' ≤ ch && ch ≤ 'f' then some (ch.toNat - 87)
  else if 'A' ≤ ch && ch ≤ 'F' then some (ch.toNat - 55)
  else none

/-- A letter in lower case, for register names and mnemonics (R120). -/
def lower (ch : Char) : Char := if 'A' ≤ ch && ch ≤ 'Z' then Char.ofNat (ch.toNat + 32) else ch

/-- The characters a test accepts from the front, and what follows. -/
def takeFrom (p : Char → Bool) : List Char → List Char × List Char
  | [] => ([], [])
  | ch :: rest => if p ch then (ch :: (takeFrom p rest).1, (takeFrom p rest).2) else ([], ch :: rest)

/-- The cursor after the characters a test accepts. -/
def Cursor.take (c : Cursor) (p : Char → Bool) : List Char × Cursor :=
  ((takeFrom p c.rest).1, { position := c.position + (takeFrom p c.rest).1.length, rest := (takeFrom p c.rest).2 })

/-- Skip optional whitespace, newlines too. The spec says where whitespace may or must stand only between statements (R119), around an
operand comma (R121) and in a member access (R125); every other place that skips it or wants it here is the model's
(DESIGN CHOICE, log entry 22). -/
def Cursor.skipSpace (c : Cursor) : Cursor := (c.take isSpace).2

/-- One given character. -/
def parseChar (ch : Char) (what : String) : Parser Unit := fun c =>
  match c.rest with
  | x :: rest => if x = ch then .ok ((), { position := c.position + 1, rest := rest }) else c.expected what
  | [] => c.expected what

/-- Optional whitespace, then one given character; a mismatch is reported before the whitespace (vector A14). Before an operand comma R121
has the whitespace; before `=`, a field's `:`, a brace and a closing bracket or parenthesis it is the model's (DESIGN CHOICE, log entry 22). -/
def parseMark (ch : Char) (what : String) : Parser Unit := fun c =>
  match parseChar ch what c.skipSpace with
  | .ok x => .ok x
  | .error _ => c.expected what

/-- One or more whitespace characters. -/
def parseSpace : Parser Unit := fun c =>
  match c.take isSpace with
  | ([], _) => c.expected "whitespace"
  | (_, c1) => .ok ((), c1)

/-- An identifier (R120). -/
def parseIdent (what : String) : Parser Name := fun c =>
  match c.rest with
  | ch :: _ => if isIdentStart ch then .ok (c.take isIdentRest) else c.expected what
  | [] => c.expected what

/-- The number hex digits stand for. -/
def hexNumber : Nat → List Char → Nat
  | n, [] => n
  | n, ch :: rest => hexNumber (16 * n + (hexValue ch).getD 0) rest

/-- One or more hex digits (R120). -/
def parseHex : Parser Nat := fun c =>
  match c.take fun ch => (hexValue ch).isSome with
  | ([], _) => c.expected "hex digits"
  | (digits, c1) => .ok (hexNumber 0 digits, c1)

/-- Run one parser, then another on what follows. -/
def Parser.bind {α β : Type} (p : Parser α) (k : α → Parser β) : Parser β := fun c =>
  match p c with
  | .ok (x, c1) => k x c1
  | .error e => .error e

/-- Change the value of a parse. -/
def Parser.map {α β : Type} (p : Parser α) (f : α → β) : Parser β := p.bind fun x c => .ok (f x, c)

/-- A hex literal: the marker and its digits (R120). -/
def parseLiteral : Parser Nat := (parseChar '$' "hex literal").bind fun _ => parseHex

/-- A register name, in any letter case (R120). -/
def parseRegister : Parser Reg := fun c =>
  match parseIdent "register" c with
  | .ok (name, c1) =>
    match allRegs.find? fun r => (regName r).toList == name.map lower with
    | some r => .ok (r, c1)
    | none => c.expected "register"
  | .error e => .error e

/-- A variable: the sigil and an identifier (R120). -/
def parseVariable : Parser Expr := (parseChar '!' "variable").bind fun _ => (parseIdent "identifier").map .variable

/-- A member access: the structure name in angle brackets, whitespace, the base symbol, a dot, the member (R125). -/
def parseMember : Parser Expr :=
  (parseChar '<' "member access").bind fun _ => (parseIdent "structure name").bind fun s =>
    (parseChar '>' ">").bind fun _ => parseSpace.bind fun _ => (parseIdent "symbol").bind fun b =>
      (parseChar '.' ".").bind fun _ => (parseIdent "member name").map fun m => .member s b m

/-! ## Expressions (R126) -/

/-- An operator, if one stands here. -/
def operatorAt (c : Cursor) : Option (ExprOp × Cursor) :=
  match c.rest with
  | '+' :: rest => some (.plus, { position := c.position + 1, rest := rest })
  | '-' :: rest => some (.minus, { position := c.position + 1, rest := rest })
  | '*' :: rest => some (.times, { position := c.position + 1, rest := rest })
  | _ => none

/-- The rest of a flat list: operator, element, operator, element, and so on, at most `n` of them (R126). Whitespace on either side of an
operator is optional (DESIGN CHOICE, log entry 22). -/
def parseTail (element : Parser Expr) : Nat → Parser (List (ExprOp × Expr))
  | 0, c => .ok ([], c)
  | n + 1, c =>
    match operatorAt c.skipSpace with
    | none => .ok ([], c)
    | some (op, c1) =>
      match element c1.skipSpace with
      | .ok (e, c2) =>
        match parseTail element n c2 with
        | .ok (l, c3) => .ok ((op, e) :: l, c3)
        | .error err => .error err
      | .error err => .error err

/-- The inside of a bracketed expression up to its closing character, nesting at most `n` deep: the flat list of R126, reduced.
Whitespace after the opening character and before the closing one is optional (DESIGN CHOICE, log entry 22). -/
def parseInside : Nat → Char → String → Parser Expr
  | 0, _, _, c => c.expected "expression"
  | n + 1, close, closeName, c =>
    let element : Parser Expr := fun d =>
      match d.rest with
      | '$' :: _ => (parseLiteral.map .literal) d
      | '!' :: _ => parseVariable d
      | '<' :: _ => parseMember d
      | '(' :: rest => parseInside n ')' ")" { position := d.position + 1, rest := rest }
      | _ => d.expected "expression element"
    match element c.skipSpace with
    | .ok (e, c1) =>
      match parseTail element c1.rest.length c1 with
      | .ok (l, c2) =>
        match parseMark close closeName c2 with
        | .ok (_, c3) => .ok (reduce e l, c3)
        | .error err => .error err
      | .error err => .error err
    | .error err => .error err

/-- A square-bracketed expression (R126). -/
def parseBracketed : Parser Expr :=
  (parseChar '[' "[").bind fun _ => fun c => parseInside (c.rest.length + 1) ']' "]" c

/-! ## Operands (R121, R122) -/

/-- An immediate: a hex literal, a variable, a member access or a square-bracketed expression (R121). -/
def parseImmediate : Parser Expr := fun c =>
  match c.rest with
  | '$' :: _ => (parseLiteral.map .literal) c
  | '!' :: _ => parseVariable c
  | '<' :: _ => parseMember c
  | '[' :: _ => parseBracketed c
  | _ => c.expected "immediate"

/-- An address: `&` and hex digits, or `&` and a square-bracketed expression (R121). -/
def parseAddress : Parser Expr :=
  (parseChar '&' "address").bind fun _ c =>
    match c.rest with
    | '[' :: _ => parseBracketed c
    | _ => (parseHex.map .literal) c

/-- A register pointer: `&` and a register name (R121). -/
def parsePointer : Parser Reg := (parseChar '&' "register pointer").bind fun _ => parseRegister

/-- The syntax of an operand (R121). -/
inductive OperandForm where
  | immediate | address | register | pointer
deriving DecidableEq, Repr

/-- The operand syntax of each mode, in order (R122). -/
def operandForms : Mode → List OperandForm
  | .immReg => [.immediate, .register]
  | .regImm8 => [.register, .immediate]
  | .regReg => [.register, .register]
  | .regMem => [.register, .address]
  | .memReg => [.address, .register]
  | .immMem => [.immediate, .address]
  | .regPtrReg => [.pointer, .register]
  | .immOffReg => [.immediate, .register, .register]
  | .reg => [.register]
  | .imm => [.immediate]
  | .noOperand => []

/-- One operand of a form. -/
def OperandForm.parse : OperandForm → Parser AsmOperand
  | .immediate => parseImmediate.map .expr
  | .address => parseAddress.map .expr
  | .register => parseRegister.map .reg
  | .pointer => parsePointer.map .reg

/-- Operands separated by `,` with optional whitespace (R121). -/
def parseOperands : List OperandForm → Parser (List AsmOperand)
  | [] => fun c => .ok ([], c)
  | [f] => f.parse.map fun x => [x]
  | f :: fs =>
    f.parse.bind fun x => (parseMark ',' ",").bind fun _ => fun c =>
      ((parseOperands fs).map fun xs => x :: xs) c.skipSpace

/-! ## Statements (R119, R123, R124) -/

/-- A statement ends at the end of the text, or at whitespace with nothing after it but another statement, which begins with an
identifier (R119, R123). -/
def parseStmtEnd : Parser Unit := fun c =>
  match c.rest with
  | [] => .ok ((), c)
  | _ =>
    match parseSpace c with
    | .error _ => c.expected "end of statement"
    | .ok (_, c1) =>
      match c1.rest with
      | [] => .ok ((), c1)
      | ch :: _ => if isIdentStart ch then .ok ((), c1) else c.expected "end of statement"

/-- The mnemonic as R112 writes it. -/
def mnemonicText : Mnemonic → String
  | .mov => "mov" | .add => "add" | .sub => "sub" | .inc => "inc" | .dec => "dec" | .mul => "mul" | .lsf => "lsf" | .rsf => "rsf"
  | .and => "and" | .or => "or" | .xor => "xor" | .not => "not" | .jne => "jne" | .jeq => "jeq" | .jlt => "jlt" | .jgt => "jgt"
  | .jle => "jle" | .jge => "jge" | .psh => "psh" | .pop => "pop" | .cal => "cal" | .ret => "ret" | .hlt => "hlt" | .int => "int"
  | .rti => "rti"

/-- The modes to try for a mnemonic, in the order of the mnemonic's rows in R112 (R123). -/
def alternatives (name : Name) : List Op :=
  (OpcodeMap.default.map Row.op).filter fun op => (mnemonicText op.mnemonic).toList == name.map lower

/-- The later of two mismatches, the first on a tie. -/
def furthest : AsmError → AsmError → AsmError
  | .parse p what, .parse q what' => if q ≤ p then .parse p what else .parse q what'
  | e, _ => e

/-- An instruction of one (mnemonic, mode) pair, after its mnemonic, up to the end of the statement (R123). A mnemonic with operands wants
whitespace after it (DESIGN CHOICE, log entry 22). -/
def parseForm (op : Op) : Parser Stmt := fun c =>
  let start : Parser Unit := match operandForms op.mode with
    | [] => fun d => .ok ((), d)
    | _ => parseSpace
  (start.bind fun _ => (parseOperands (operandForms op.mode)).bind fun xs => parseStmtEnd.map fun _ => .instr op xs) c

/-- The first alternative that parses; else the mismatch that came furthest (R123, R127). -/
def firstForm : List Op → Parser Stmt
  | [] => fun c => c.expected "statement"
  | [op] => parseForm op
  | op :: ops => fun c =>
    match parseForm op c with
    | .ok x => .ok x
    | .error e =>
      match firstForm ops c with
      | .ok x => .ok x
      | .error e' => .error (furthest e e')

/-- One or more constructs between braces, separated by `,`; at most `n` (R124). Whitespace around each is optional (DESIGN CHOICE, log entry 22). -/
def parseItems {α : Type} (item : Parser α) : Nat → Parser (List α)
  | 0, c => c.expected "item"
  | n + 1, c =>
    match item c.skipSpace with
    | .error e => .error e
    | .ok (x, c1) =>
      match parseChar ',' "," c1.skipSpace with
      | .ok (_, c2) => ((parseItems item n).map fun xs => x :: xs) c2
      | .error _ => .ok ([x], c1)

/-- The opening brace. -/
def openBrace : Char := Char.ofNat 0x7B

/-- The closing brace. -/
def closeBrace : Char := Char.ofNat 0x7D

/-- A list of constructs in braces (R124). -/
def parseBraced {α : Type} (item : Parser α) : Parser (List α) :=
  (parseMark openBrace "opening brace").bind fun _ => fun c =>
    ((parseItems item (c.rest.length + 1)).bind fun xs => (parseMark closeBrace "closing brace").map fun _ => xs) c

/-- `m: $S` (R124). Whitespace around the `:` is optional (DESIGN CHOICE, log entry 22). -/
def parseField : Parser (Name × Nat) :=
  (parseIdent "member name").bind fun m => (parseMark ':' ":").bind fun _ => fun c =>
    (parseLiteral.map fun v => (m, v)) c.skipSpace

/-- The name that a declaration binds, after the keyword (R124) and the whitespace that must stand between them (DESIGN CHOICE, log entry 22). -/
def parseDeclared : Parser Name := parseSpace.bind fun _ => parseIdent "name"

/-- `data8` or `data16`, after the keyword (R124). Whitespace around the `=` is optional (DESIGN CHOICE, log entry 22). -/
def parseData (make : Name → List Nat → Stmt) : Parser Stmt :=
  parseDeclared.bind fun name => (parseMark '=' "=").bind fun _ => (parseBraced parseLiteral).map (make name)

/-- One statement, up to its end (R119, R124). A label's `:` stands at once after its name; around the `=` of a constant whitespace is
optional (DESIGN CHOICE, log entry 22). -/
def parseStmt : Parser Stmt := fun c =>
  match parseIdent "statement" c with
  | .error e => .error e
  | .ok (name, c1) =>
    match c1.rest with
    | ':' :: rest => (parseStmtEnd.map fun _ => .label name) { position := c1.position + 1, rest := rest }
    | _ =>
      if name = "constant".toList then
        (parseDeclared.bind fun n => (parseMark '=' "=").bind fun _ => fun d =>
          (parseLiteral.bind fun v => parseStmtEnd.map fun _ => .constant n v) d.skipSpace) c1
      else if name = "structure".toList then
        (parseDeclared.bind fun n => (parseBraced parseField).bind fun ms => parseStmtEnd.map fun _ => .struct n ms) c1
      else if name = "data8".toList then ((parseData .data8).bind fun x => parseStmtEnd.map fun _ => x) c1
      else if name = "data16".toList then ((parseData .data16).bind fun x => parseStmtEnd.map fun _ => x) c1
      else
        match alternatives name with
        | [] => c.expected "statement"
        | ops => firstForm ops c1

/-- The statements of a text, at most `n` (R119). -/
def parseStmts : Nat → Cursor → Except AsmError (List Stmt)
  | 0, c => c.expected "end of text"
  | n + 1, c =>
    match c.skipSpace.rest with
    | [] => .ok []
    | _ =>
      match parseStmt c.skipSpace with
      | .error e => .error e
      | .ok (i, c1) => (parseStmts n c1).map fun rest => i :: rest

/-- Parse a whole source text (R119, R127). -/
def parseText (text : List Char) : Except AsmError (List Stmt) :=
  parseStmts (text.length + 1) { position := 0, rest := text }

/-- Assemble a source text under a table: a complete byte image or a complete failure (R119, R132). -/
def assemble (map : List Row) (text : String) : Except AsmError (List Byte) :=
  match parseText text.toList with
  | .ok stmts => encodeStmts map stmts
  | .error e => .error e

end Sys2Proof.Machine
end

