-- ==== Sys2Proof/Safety.lean ====
section
/-! DEFINITION. The terms in which claims speak of the machine: what a frame leaves unchanged, what counts as a well-formed machine, the
default platform, and the frame invariant (spec 20_memory.md R79, 44_stack_call.md R266). -/

namespace Sys2Proof.Machine

/-! ## What an instruction leaves unchanged -/

/-- Every register but the named ones is unchanged. -/
def State.sameRegsBut (rs : List Reg) (s t : State) : Prop := ∀ r : Reg, r ∉ rs → t.reg r = s.reg r

/-- The hidden state of the engine is unchanged: `F`, `H` and the run state (R35 to R37). -/
def State.sameHidden (s t : State) : Prop :=
  t.frameSize = s.frameSize ∧ t.inHandler = s.inHandler ∧ t.runState = s.runState

/-- A device with its storage blanked: its kind, size and number of buffers; for another object, which it is and its size. -/
def Device.shape : Device → Device
  | .ram sz _ => .ram sz Memory.empty
  | .bank sz bs => .bank sz (List.replicate bs.length Memory.empty)
  | .ioSink => .ioSink
  | .object kind sz _ => .object kind sz 0

/-- The kinds, sizes and buffer counts of the devices. -/
def State.shapes (s : State) : List Device := s.devices.map Device.shape

/-- What no instruction changes: the configuration, the region list, the handle counter, and the devices' kinds and sizes (R39). -/
def State.samePlatform (s t : State) : Prop :=
  t.config = s.config ∧ t.regions = s.regions ∧ t.nextToken = s.nextToken ∧ t.shapes = s.shapes

/-- Every stored byte of every device but those at the named places is unchanged. -/
def State.sameBytesBut (ls : List Loc) (s t : State) : Prop := ∀ l : Loc, l ∉ ls → t.byteAt l = s.byteAt l

/-- Every other object (R61) holds what it held. -/
def State.sameObjects (s t : State) : Prop :=
  ∀ (k kind size contents : Nat), s.devices[k]? = some (.object kind size contents) → t.devices[k]? = s.devices[k]?

/-- Object `d` has the given contents, every other device is unchanged, and so is every stored byte. -/
def State.changesObject (s : State) (d contents : Nat) (t : State) : Prop :=
  t.objectContents d = contents ∧ (∀ k, k ≠ d → t.devices[k]? = s.devices[k]?) ∧ ∀ l, t.byteAt l = s.byteAt l

/-- Nothing was emitted and no free value was drawn. -/
def State.sameOutput (s t : State) : Prop := t.output = s.output ∧ t.draws = s.draws

/-- Nothing but the named registers is changed. -/
def State.onlyRegs (rs : List Reg) (s t : State) : Prop :=
  s.sameRegsBut rs t ∧ s.sameHidden t ∧ s.samePlatform t ∧ t.devices = s.devices ∧ s.sameOutput t

/-! ## Well-formed machines -/

/-- Every buffer of every device is in canonical form and inside its device's storage. -/
def State.memoryWf (s : State) : Bool := s.devices.all Device.wf

/-- A region of an existing device, inside the address space, with a token already handed out. -/
def State.regionWf (s : State) (r : Region) : Bool :=
  r.device < s.devices.length && r.start ≤ r.stop && r.stop ≤ 0xFFFF && r.token < s.nextToken

/-- Every region is well-formed and no two regions share a token (R62, R76). -/
def State.regionsWf (s : State) : Bool :=
  s.regions.all s.regionWf && decide (s.regions.map Region.token).Nodup

/-- A well-formed machine: its metadata table meets R101, its regions and its memory are well-formed. -/
def State.wf (s : State) : Bool := OpcodeMap.wf s.config.opcodeMap && s.regionsWf && s.memoryWf

/-! ## The default platform (R79) -/

/-- The default platform, whatever its RAM holds: one linear RAM of 65536 bytes at 0x0000 to 0xFFFF, remap true. -/
def State.flat (s : State) : Prop := s.regions = defaultRegions ∧ s.shapes = defaultDevices

/-- On the default platform, the place of the byte at a global address. -/
def flatLoc (a : Nat) : Loc := { device := 0, bank := 0, offset := a }

/-- On the default platform, the big-endian word at an address below 0xFFFF. -/
def State.flatWord (s : State) (a : Word) : Word := s.wordAt (flatLoc a.toNat)

/-- The places of the two bytes of the word at an address. -/
def wordLocs (a : Word) : List Loc := [flatLoc a.toNat, (flatLoc a.toNat).next]

/-! ## The frame invariant -/

/-- `F = fp - sp`, modulo 65536 (R266). -/
def State.frameInv (s : State) : Prop := s.frameSize = s.reg .fp - s.reg .sp

/-! ## The bytes at the program counter -/

/-- The bytes at `pc` and up lie one after the other in one buffer that the mapper routes them to, and are `bytes`. -/
def State.codeAt (s : State) (bytes : List Byte) : Prop :=
  ∃ l : Loc, ∀ (k : Nat) (h : k < bytes.length),
    s.access ((s.reg .pc).toNat + k) 1 = .ok (.storage { l with offset := l.offset + k }) ∧
      s.byteAt { l with offset := l.offset + k } = bytes[k]

/-! ## Which registers an instruction may write -/

/-- The registers the spec lets an instruction write: its destination, `acc` for the ALU, `pc` for a transfer, and what the stack and
the frame protocol move (R23, R28 to R31). `im` and `mb` are never written but as a named operand (R32, R33). -/
def mayWrite (c : Config) : Instr → List Reg
  | .movImmReg _ rd => [rd]
  | .movRegReg _ rd => [rd]
  | .movRegMem _ _ => []
  | .movMemReg _ rd => [rd]
  | .movImmMem _ _ => []
  | .movRegPtrReg _ rd => [rd]
  | .movImmOffReg _ _ rd => [rd]
  | .addRegReg _ _ => [.acc]
  | .addImmReg _ _ => [.acc]
  | .subImmReg _ _ => [.acc]
  | .subRegReg _ _ => [.acc]
  | .incReg ra => [if .incReg ∈ c.aluInplace then ra else .acc]
  | .decReg ra => [if .decReg ∈ c.aluInplace then ra else .acc]
  | .mulImmReg _ _ => [.acc]
  | .mulRegReg _ _ => [.acc]
  | .lsfRegImm8 ra _ => [if .lsfRegImm8 ∈ c.aluInplace then ra else .acc]
  | .lsfRegReg ra _ => [if .lsfRegReg ∈ c.aluInplace then ra else .acc]
  | .rsfRegImm8 ra _ => [if .rsfRegImm8 ∈ c.aluInplace then ra else .acc]
  | .rsfRegReg ra _ => [if .rsfRegReg ∈ c.aluInplace then ra else .acc]
  | .andRegReg _ _ => [.acc]
  | .orRegReg _ _ => [.acc]
  | .xorRegReg _ _ => [.acc]
  | .notReg _ => [.acc]
  | .jneImmMem _ _ => [.pc]
  | .jneRegMem _ _ => [.pc]
  | .jeqImmMem _ _ => [.pc]
  | .jeqRegMem _ _ => [.pc]
  | .jltImmMem _ _ => [.pc]
  | .jltRegMem _ _ => [.pc]
  | .jgtImmMem _ _ => [.pc]
  | .jgtRegMem _ _ => [.pc]
  | .jleImmMem _ _ => [.pc]
  | .jleRegMem _ _ => [.pc]
  | .jgeImmMem _ _ => [.pc]
  | .jgeRegMem _ _ => [.pc]
  | .pshImm _ => [.sp]
  | .pshReg _ => [.sp]
  | .popReg r => [.sp, r]
  | .calImm _ => [.sp, .fp, .pc]
  | .calReg _ => [.sp, .fp, .pc]
  | .ret => [.sp, .fp, .pc, .r1, .r2, .r3, .r4, .r5, .r6, .r7, .r8]
  | .hlt => []
  | .intImm _ => [.sp, .fp, .pc]
  | .rti => [.sp, .fp, .pc, .r1, .r2, .r3, .r4, .r5, .r6, .r7, .r8]

/-- The instructions that write memory or emit output: the stores, the pushes, the calls, and the interrupt request. -/
def mayStore : Instr → Bool
  | .movRegMem _ _ => true
  | .movImmMem _ _ => true
  | .pshImm _ => true
  | .pshReg _ => true
  | .calImm _ => true
  | .calReg _ => true
  | .intImm _ => true
  | _ => false

/-! ## What an instruction completes with -/

/-- The instruction completes: register `dst` holds `value`, and nothing else changes. -/
def State.computes (s : State) (i : Instr) (dst : Reg) (value : Nat) : Prop :=
  ∃ t, exec i s = .next t ∧ (t.reg dst).toNat = value ∧ s.onlyRegs [dst] t

/-- The jump completes: `pc` holds the target when `taken` holds, and nothing else changes. -/
def State.jumps (s : State) (i : Instr) (taken : Prop) (target : Word) : Prop :=
  ∃ t, exec i s = .next t ∧ (taken → t.reg .pc = target) ∧ (¬ taken → t.reg .pc = s.reg .pc) ∧ s.onlyRegs [.pc] t

/-- The load of the word at address `a` into register `dst`: from storage it completes with that word; from an I/O sink it
completes with a free value, one more drawn; from another object with the word its `get16` answers, its contents after that; where
the access fails it faults, keeping the output. -/
def State.loads (s : State) (i : Instr) (a : Nat) (dst : Reg) : Prop :=
  (∀ l, s.access a 2 = .ok (.storage l) → ∃ t, exec i s = .next t ∧ t.reg dst = s.wordAt l ∧ s.onlyRegs [dst] t) ∧
  (∀ d o, s.access a 2 = .ok (.sink d o) →
    ∃ t, exec i s = .next t ∧ s.sameRegsBut [dst] t ∧ s.sameHidden t ∧ s.samePlatform t ∧ t.devices = s.devices ∧
      t.output = s.output ∧ t.draws = s.draws + 1) ∧
  (∀ d o, s.access a 2 = .ok (.object d o) →
    ∃ t, exec i s = .next t ∧ t.reg dst = (s.objectGet16 d o).1 ∧ s.sameRegsBut [dst] t ∧ s.sameHidden t ∧ s.samePlatform t ∧
      s.changesObject d (s.objectGet16 d o).2 t ∧ s.sameOutput t) ∧
  (∀ e, s.access a 2 = .error e → exec i s = .fault (.failed e s.output))

/-- The store of the word `v` at address `a`: into storage it completes with the two bytes of `v`, the high one first, and every
other byte and every object as before; into an I/O sink it completes by emitting the event; into another object by its `set16`; where the access
fails it faults, keeping the output. -/
def State.stores (s : State) (i : Instr) (a : Nat) (v : Word) : Prop :=
  (∀ l, s.access a 2 = .ok (.storage l) →
    ∃ t, exec i s = .next t ∧ t.byteAt l = hiByte v ∧ t.byteAt l.next = loByte v ∧ s.sameBytesBut [l, l.next] t ∧ s.sameObjects t ∧
      s.sameRegsBut [] t ∧ s.sameHidden t ∧ s.samePlatform t ∧ s.sameOutput t) ∧
  (∀ d o, s.access a 2 = .ok (.sink d o) →
    ∃ t, exec i s = .next t ∧ t.output = s.output ++ [{ device := d, offset := o, value := v }] ∧ s.sameRegsBut [] t ∧
      s.sameHidden t ∧ s.samePlatform t ∧ t.devices = s.devices ∧ t.draws = s.draws) ∧
  (∀ d o, s.access a 2 = .ok (.object d o) →
    ∃ t, exec i s = .next t ∧ s.changesObject d (s.objectSet16 d o v) t ∧ s.sameRegsBut [] t ∧ s.sameHidden t ∧
      s.samePlatform t ∧ s.sameOutput t) ∧
  (∀ e, s.access a 2 = .error e → exec i s = .fault (.failed e s.output))

/-- The push of the word `v`: into storage the two bytes of `v` lie at `[sp]`, into a sink the event is emitted, another object does its
`set16`; then `sp` is 2 lower and `F` 2 higher, and nothing else changes (R250). -/
def State.pushes (s : State) (i : Instr) (v : Word) : Prop :=
  (∀ l, s.access (s.reg .sp).toNat 2 = .ok (.storage l) →
    ∃ t, exec i s = .next t ∧ t.byteAt l = hiByte v ∧ t.byteAt l.next = loByte v ∧ s.sameBytesBut [l, l.next] t ∧ s.sameObjects t ∧
      t.reg .sp = s.reg .sp - 2 ∧ t.frameSize = s.frameSize + 2 ∧ s.sameRegsBut [.sp] t ∧
      t.inHandler = s.inHandler ∧ t.runState = s.runState ∧ s.samePlatform t ∧ s.sameOutput t) ∧
  (∀ d o, s.access (s.reg .sp).toNat 2 = .ok (.sink d o) →
    ∃ t, exec i s = .next t ∧ t.output = s.output ++ [{ device := d, offset := o, value := v }] ∧
      t.reg .sp = s.reg .sp - 2 ∧ t.frameSize = s.frameSize + 2 ∧ s.sameRegsBut [.sp] t ∧
      t.inHandler = s.inHandler ∧ t.runState = s.runState ∧ s.samePlatform t ∧ t.devices = s.devices ∧ t.draws = s.draws) ∧
  (∀ d o, s.access (s.reg .sp).toNat 2 = .ok (.object d o) →
    ∃ t, exec i s = .next t ∧ s.changesObject d (s.objectSet16 d o v) t ∧ t.reg .sp = s.reg .sp - 2 ∧
      t.frameSize = s.frameSize + 2 ∧ s.sameRegsBut [.sp] t ∧ t.inHandler = s.inHandler ∧ t.runState = s.runState ∧
      s.samePlatform t ∧ s.sameOutput t) ∧
  (∀ e, s.access (s.reg .sp).toNat 2 = .error e → exec i s = .fault (.failed e s.output))

/-- A request with this value completes with the state `t`: by `int`, and, on a running engine, from the host (R314, R330). -/
def State.requestCompletes (s : State) (v : Word) (t : State) : Prop :=
  exec (.intImm v) s = .next t ∧ (s.runState = .running → s.hostInterrupt v = (t, none))

/-- A request with this value fails with the error and the output: by `int`, and, on a running engine, from the host, which leaves the
engine `failed` for that error (R314, R330, R169). -/
def State.requestFails (s : State) (v : Word) (e : EngineError) (output : List OutputEvent) : Prop :=
  exec (.intImm v) s = .fault (.failed e output) ∧
    (s.runState = .running →
      ∃ t, s.hostInterrupt v = (t, some e) ∧ t.runState = .failed e ∧ t.output = output ∧ s.samePlatform t)

/-- The k-th word down from an address, as pushes meet it: `a - 2*k`, modulo 65536 (R250). -/
def slotDown (a : Word) (k : Nat) : Word := a - 2 * BitVec.ofNat 16 k

/-- The k-th word above an address, as pops meet it: `a + 2 + 2*k`, modulo 65536 (R251). -/
def slotUp (a : Word) (k : Nat) : Word := a + 2 + 2 * BitVec.ofNat 16 k

/-- The first `n` words down from `sp` reach storage, the k-th at `place k`, no two sharing a byte. -/
def State.roomFor (s : State) (n : Nat) (place : Nat → Loc) : Prop :=
  (∀ k < n, s.access (slotDown (s.reg .sp) k).toNat 2 = .ok (.storage (place k))) ∧
  (∀ j < n, ∀ k < n, j ≠ k → place j ≠ place k ∧ place j ≠ (place k).next)

/-- The words of `vs` lie at the places, the first first, and every byte at no place is as it was in `s`. -/
def State.wroteWords (s t : State) (vs : List Word) (place : Nat → Loc) : Prop :=
  (∀ (k : Nat) (h : k < vs.length), t.wordAt (place k) = vs[k]) ∧
  (∀ l, (∀ k < vs.length, l ≠ place k ∧ l ≠ (place k).next) → t.byteAt l = s.byteAt l)

/-- The ten words of a call's frame, in the order pushed: r1..r8, `pc`, the saved frame size (R257). -/
def State.frameWords (s : State) : List Word := savedRegs.map s.reg ++ [s.frameSize + 20]

/-- A return completes: the frame at `fp` is popped from the places, word k at `place k`, and the argument count in it is discarded
(R258). `h` is the in-handler flag after it. -/
def State.returns (s : State) (i : Instr) (h : Bool) (place : Nat → Loc) : Prop :=
  ∃ t, exec i s = .next t ∧
    t.reg .pc = s.wordAt (place 1) ∧
    t.reg .r8 = s.wordAt (place 2) ∧ t.reg .r7 = s.wordAt (place 3) ∧ t.reg .r6 = s.wordAt (place 4) ∧
    t.reg .r5 = s.wordAt (place 5) ∧ t.reg .r4 = s.wordAt (place 6) ∧ t.reg .r3 = s.wordAt (place 7) ∧
    t.reg .r2 = s.wordAt (place 8) ∧ t.reg .r1 = s.wordAt (place 9) ∧
    t.reg .sp = s.reg .fp + 22 + 2 * s.wordAt (place 10) ∧
    t.reg .fp = s.reg .fp + s.wordAt (place 0) ∧
    t.frameSize = s.wordAt (place 0) - 20 - 2 * s.wordAt (place 10) ∧
    t.inHandler = h ∧ t.runState = s.runState ∧
    t.reg .acc = s.reg .acc ∧ t.reg .im = s.reg .im ∧ t.reg .mb = s.reg .mb ∧
    s.samePlatform t ∧ t.devices = s.devices ∧ s.sameOutput t

/-- The byte string decodes to the instruction under a table, with nothing left over. -/
def decodesTo (t : List Row) (bytes : List Byte) (i : Instr) : Prop := decode t bytes = .ok (i, [])

end Sys2Proof.Machine
end

