-- ==== Sys2Proof/Certificates/Slice0/Obligations.lean ====
section
/-! DEFINITION. The statements for the provers. Each docstring names the rule of the spec it formalises. -/

section
open Sys2Proof Sys2Proof.Machine

/-! ## Encoding (30_encoding.md) -/

/-- R118 (with R101, R116): under every well-formed table, the encoding of every instruction that has a row is its row's opcode byte
and its operands in layout order, has the row's size, and decodes back to the instruction with every operand at its value, leaving
whatever bytes follow it. -/
def Obligations.EncodedInstructionDecodesBack : Prop :=
  ∀ (table : List Row) (i : Instr), OpcodeMap.wf table = true → i.wf table = true →
    ∃ row ∈ table, row.op = i.op ∧
      encode table i = some (row.opcode :: encodeFields i.op.mode.layout i.operands) ∧
      (row.opcode :: encodeFields i.op.mode.layout i.operands).length = row.size ∧
      ∀ rest, decode table ((row.opcode :: encodeFields i.op.mode.layout i.operands) ++ rest) = .ok (i, rest)

/-- R103: the bytes after the opcode byte, for each of the eleven modes: 16-bit fields as two bytes, the high one first, registers as
one byte with the ordinal, an 8-bit immediate as one byte; and the size of each mode is one more than their number. -/
def Obligations.OperandBytesOfEachMode : Prop :=
  (∀ o : Operands,
    encodeFields Mode.immReg.layout o = [hiByte o.imm, loByte o.imm, o.regA.toByte] ∧
    encodeFields Mode.regImm8.layout o = [o.regA.toByte, o.imm8] ∧
    encodeFields Mode.regReg.layout o = [o.regA.toByte, o.regB.toByte] ∧
    encodeFields Mode.regMem.layout o = [o.regA.toByte, hiByte o.addr, loByte o.addr] ∧
    encodeFields Mode.memReg.layout o = [hiByte o.addr, loByte o.addr, o.regA.toByte] ∧
    encodeFields Mode.immMem.layout o = [hiByte o.imm, loByte o.imm, hiByte o.addr, loByte o.addr] ∧
    encodeFields Mode.regPtrReg.layout o = [o.regA.toByte, o.regB.toByte] ∧
    encodeFields Mode.immOffReg.layout o = [hiByte o.imm, loByte o.imm, o.regA.toByte, o.regB.toByte] ∧
    encodeFields Mode.reg.layout o = [o.regA.toByte] ∧
    encodeFields Mode.imm.layout o = [hiByte o.imm, loByte o.imm] ∧
    encodeFields Mode.noOperand.layout o = []) ∧
  (Mode.immReg.size = 4 ∧ Mode.regImm8.size = 3 ∧ Mode.regReg.size = 3 ∧ Mode.regMem.size = 4 ∧ Mode.memReg.size = 4 ∧
    Mode.immMem.size = 5 ∧ Mode.regPtrReg.size = 3 ∧ Mode.immOffReg.size = 5 ∧ Mode.reg.size = 2 ∧ Mode.imm.size = 3 ∧
    Mode.noOperand.size = 1) ∧
  (∀ w : Word, (hiByte w).toNat = w.toNat / 256 ∧ (loByte w).toNat = w.toNat % 256) ∧
  (∀ r : Reg, r.toByte.toNat = r.ordinal ∧ r.ordinal < 14)

/-- R101, R112, R113: the default table is well-formed, has 44 rows, and leaves 212 opcode bytes unassigned, among them the four
that R113 notes. -/
def Obligations.DefaultTableIsWellFormed : Prop :=
  OpcodeMap.wf OpcodeMap.default = true ∧ OpcodeMap.default.length = 44 ∧
  (((List.range 256).filter fun n =>
    (OpcodeMap.rowOfByte OpcodeMap.default (BitVec.ofNat 8 n)).isNone).length = 212) ∧
  ∀ b ∈ [(0x1E : Byte), 0x2E, 0x30, 0x32], OpcodeMap.rowOfByte OpcodeMap.default b = none

/-- Words written out from R103, R112 and the spec's examples, one or two for each family, decode to the instruction they stand for. -/
def Obligations.DecodesSpecWords : Prop :=
  decodesTo OpcodeMap.default [0x10, 0x12, 0x34, 0x02] (.movImmReg 0x1234 .r1) ∧
  decodesTo OpcodeMap.default [0x1D, 0x01, 0x00, 0x02, 0x03] (.movImmOffReg 0x0100 .r1 .r2) ∧
  decodesTo OpcodeMap.default [0x16, 0x00, 0x01, 0x02] (.subImmReg 0x0001 .r1) ∧
  decodesTo OpcodeMap.default [0x26, 0x02, 0x04] (.lsfRegImm8 .r1 0x04) ∧
  decodesTo OpcodeMap.default [0x15, 0x00, 0x05, 0x00, 0x40] (.jneImmMem 0x0005 0x0040) ∧
  decodesTo OpcodeMap.default [0x5F, 0x04] (.calReg .r3) ∧
  decodesTo OpcodeMap.default [0xFD, 0x00, 0x03] (.intImm 0x0003) ∧
  decode OpcodeMap.default [0x1E, 0x00, 0x00] = .error (.unassignedOpcode 0x1E)

/-- R114, R116: decoding learns the instruction from the first byte alone. Under every well-formed table, a byte string is refused as
an unassigned opcode exactly when its first byte has no row; an instruction it yields is the one of the first byte's row and takes up
exactly the row's size; and a string is truncated only when it is shorter than that (that verdict is the model's, log entry 15). -/
def Obligations.DecodeReadsTheRowsSize : Prop :=
  ∀ (table : List Row) (b : Byte) (bytes : List Byte), OpcodeMap.wf table = true →
    (OpcodeMap.rowOfByte table b = none → decode table (b :: bytes) = .error (.unassignedOpcode b)) ∧
    (∀ row, OpcodeMap.rowOfByte table b = some row →
      (row.size ≤ (b :: bytes).length →
        ∃ i, decode table (b :: bytes) = .ok (i, (b :: bytes).drop row.size) ∧ i.op = row.op) ∧
      ((b :: bytes).length < row.size → decode table (b :: bytes) = .error .truncated))

/-- R22, R105, R164: a register byte `b` selects the ordinal `b mod 14`, in the decoder and in the engine's fetch; no byte is an
error. -/
def Obligations.RegisterByteModulo14 : Prop :=
  ∀ b : Byte, ∃ r : Reg, r.ordinal = b.toNat % 14 ∧ decode OpcodeMap.default [0x35, b] = .ok (.incReg r, []) ∧
    ∀ (s : State) (l : Loc), s.access (s.reg .pc).toNat 1 = .ok (.storage l) → s.byteAt l = b →
      s.fetchReg = .ok r (s.setReg .pc (s.reg .pc + 1))

/-- R22, R105: in every mode that has one, a register byte selects its value modulo 14, and nothing else of it counts: whatever stands in
the instruction's other bytes, two register bytes that are equal modulo 14 decode to the same instruction, whose register has that
ordinal; in the modes with two register bytes, so do both together. -/
def Obligations.RegisterBytesAreReduced : Prop :=
  ∀ (table : List Row) (b x y p q c d : Byte) (row : Row) (rest : List Byte), OpcodeMap.rowOfByte table b = some row →
    x.toNat % 14 = y.toNat % 14 → p.toNat % 14 = q.toNat % 14 →
    let one (u v : List Byte) : Prop :=
      ∃ i, decode table (b :: (u ++ rest)) = .ok (i, rest) ∧ decode table (b :: (v ++ rest)) = .ok (i, rest) ∧
        i.op = row.op ∧ i.operands.regA.ordinal = x.toNat % 14
    let two (u v : List Byte) : Prop :=
      ∃ i, decode table (b :: (u ++ rest)) = .ok (i, rest) ∧ decode table (b :: (v ++ rest)) = .ok (i, rest) ∧
        i.op = row.op ∧ i.operands.regA.ordinal = x.toNat % 14 ∧ i.operands.regB.ordinal = p.toNat % 14
    (row.op.mode = .reg → one [x] [y]) ∧
    (row.op.mode = .immReg → one [c, d, x] [c, d, y]) ∧
    (row.op.mode = .regImm8 → one [x, c] [y, c]) ∧
    (row.op.mode = .regMem → one [x, c, d] [y, c, d]) ∧
    (row.op.mode = .memReg → one [c, d, x] [c, d, y]) ∧
    (row.op.mode = .regReg → two [x, p] [y, q]) ∧
    (row.op.mode = .regPtrReg → two [x, p] [y, q]) ∧
    (row.op.mode = .immOffReg → two [c, d, x, p] [c, d, y, q])

/-! ## Registers and reset (10_state.md, 70_reset_and_hazards.md) -/

/-- R23, R24, R25: a register written holds the value written, whichever register it is, and no other register changes. -/
def Obligations.RegistersAreIndependent : Prop :=
  ∀ (s : State) (r q : Reg) (v : Word), ((s.setReg r v).reg r = v) ∧ (q ≠ r → (s.setReg r v).reg q = s.reg q)

/-- R40, R340: what the construction of an engine leaves, for every value of the parameters and every platform. -/
def Obligations.ResetValues : Prop :=
  ∀ (c : Config) (regions : List Region) (token : Nat) (devices : List Device),
    let s := State.construct c regions token devices
    s.reg .pc = c.resetPc ∧ (∀ r ∈ [Reg.acc, .r1, .r2, .r3, .r4, .r5, .r6, .r7, .r8], s.reg r = 0x0000) ∧
    s.reg .sp = c.stackTop ∧ s.reg .fp = c.stackTop ∧ s.reg .im = c.imReset ∧ s.reg .mb = 0x0000 ∧
    s.frameSize = 0 ∧ s.inHandler = false ∧ s.runState = .running ∧
    s.config = c ∧ s.regions = regions ∧ s.devices = devices

/-- The model's reset state is the construction with the defaults of R8 on the platform of R79 (log entries 1 to 5; the handle 1 that
`map` returns next is log entry 14's). It is well-formed, is on the default platform, and has the frame invariant of R266. What an
unlisted byte reads as is the model's choice (log entry 6) and is not stated here. -/
def Obligations.ResetIsDefaultAndWellFormed : Prop :=
  State.reset = State.construct defaultConfig defaultRegions 1 defaultDevices ∧
  defaultConfig.resetPc = 0x0000 ∧ defaultConfig.stackTop = 0xFFFE ∧ defaultConfig.imReset = 0xFFFF ∧
  defaultConfig.ivtBase = 0x1000 ∧ defaultConfig.unknownOpcode = .fault ∧ defaultConfig.aluInplace = [] ∧
  defaultConfig.opcodeMap = OpcodeMap.default ∧ State.reset.wf = true ∧ State.reset.flat ∧ State.reset.frameInv

/-! ## Move (41_move.md) -/

/-- R180, R181: an immediate or a register copied into any register, `pc` among them; nothing else changes. -/
def Obligations.MovesIntoRegister : Prop :=
  ∀ (s : State) (imm : Word) (rs rd : Reg),
    (encode OpcodeMap.default (.movImmReg imm rd) = some [0x10, hiByte imm, loByte imm, rd.toByte] ∧
      s.computes (.movImmReg imm rd) rd imm.toNat) ∧
    (encode OpcodeMap.default (.movRegReg rs rd) = some [0x11, rs.toByte, rd.toByte] ∧
      s.computes (.movRegReg rs rd) rd (s.reg rs).toNat)

/-- R182, R184: a register or an immediate stored big-endian at an address; every other byte, and every object (R61), as before. The device number in the event
of a sink is the model's (log entry 10), and so is how another object answers (log entry 12). -/
def Obligations.StoresToMemory : Prop :=
  ∀ (s : State) (imm addr : Word) (rs : Reg),
    (encode OpcodeMap.default (.movRegMem rs addr) = some [0x12, rs.toByte, hiByte addr, loByte addr] ∧
      s.stores (.movRegMem rs addr) addr.toNat (s.reg rs)) ∧
    (encode OpcodeMap.default (.movImmMem imm addr) = some [0x1B, hiByte imm, loByte imm, hiByte addr, loByte addr] ∧
      s.stores (.movImmMem imm addr) addr.toNat imm)

/-- R183, R185, R186: the word at an address, at a register's value, or at base plus index (not wrapped) loaded into a register. The
count of draws that a sink's read advances is the model's (log entry 9), and so is how another object answers (log entry 12). -/
def Obligations.LoadsFromMemory : Prop :=
  ∀ (s : State) (imm addr : Word) (ri rp rd : Reg),
    (encode OpcodeMap.default (.movMemReg addr rd) = some [0x13, hiByte addr, loByte addr, rd.toByte] ∧
      s.loads (.movMemReg addr rd) addr.toNat rd) ∧
    (encode OpcodeMap.default (.movRegPtrReg rp rd) = some [0x1C, rp.toByte, rd.toByte] ∧
      s.loads (.movRegPtrReg rp rd) (s.reg rp).toNat rd) ∧
    (encode OpcodeMap.default (.movImmOffReg imm ri rd) = some [0x1D, hiByte imm, loByte imm, ri.toByte, rd.toByte] ∧
      s.loads (.movImmOffReg imm ri rd) (imm.toNat + (s.reg ri).toNat) rd)

/-- R66, R182 to R186: a load or a store whose word would pass 0xFFFF faults with the first byte's address, not wrapped, before any
routing. -/
def Obligations.DataAccessOverflows : Prop :=
  ∀ (s : State) (imm : Word) (r d : Reg),
    exec (.movRegMem r 0xFFFF) s = .fault (.failed (.addressOverflow 0xFFFF) s.output) ∧
    exec (.movImmMem imm 0xFFFF) s = .fault (.failed (.addressOverflow 0xFFFF) s.output) ∧
    exec (.movMemReg 0xFFFF d) s = .fault (.failed (.addressOverflow 0xFFFF) s.output) ∧
    (s.reg r = 0xFFFF → exec (.movRegPtrReg r d) s = .fault (.failed (.addressOverflow 0xFFFF) s.output)) ∧
    (imm.toNat + (s.reg r).toNat > 0xFFFE →
      exec (.movImmOffReg imm r d) s = .fault (.failed (.addressOverflow (imm.toNat + (s.reg r).toNat)) s.output))

/-! ## ALU (42_alu.md) -/

/-- R201 to R204: sums and differences modulo 65536, in `acc`; the subtractions are register minus immediate and first minus second. -/
def Obligations.AddAndSubtract : Prop :=
  ∀ (s : State) (imm : Word) (ra rb : Reg),
    (encode OpcodeMap.default (.addRegReg ra rb) = some [0x14, ra.toByte, rb.toByte] ∧
      s.computes (.addRegReg ra rb) .acc (((s.reg ra).toNat + (s.reg rb).toNat) % 65536)) ∧
    (encode OpcodeMap.default (.addImmReg imm ra) = some [0x3F, hiByte imm, loByte imm, ra.toByte] ∧
      s.computes (.addImmReg imm ra) .acc ((imm.toNat + (s.reg ra).toNat) % 65536)) ∧
    (encode OpcodeMap.default (.subImmReg imm ra) = some [0x16, hiByte imm, loByte imm, ra.toByte] ∧
      s.computes (.subImmReg imm ra) .acc (((s.reg ra).toNat + 65536 - imm.toNat) % 65536)) ∧
    (encode OpcodeMap.default (.subRegReg ra rb) = some [0x1F, ra.toByte, rb.toByte] ∧
      s.computes (.subRegReg ra rb) .acc (((s.reg ra).toNat + 65536 - (s.reg rb).toNat) % 65536))

/-- R205, R206 (R200): one more or one less, modulo 65536, in `acc`, or in the register itself where `ALU_INPLACE` names the
instruction. -/
def Obligations.IncrementAndDecrement : Prop :=
  ∀ (s : State) (ra : Reg),
    (encode OpcodeMap.default (.incReg ra) = some [0x35, ra.toByte] ∧
      s.computes (.incReg ra) (if .incReg ∈ s.config.aluInplace then ra else .acc) (((s.reg ra).toNat + 1) % 65536)) ∧
    (encode OpcodeMap.default (.decReg ra) = some [0x36, ra.toByte] ∧
      s.computes (.decReg ra) (if .decReg ∈ s.config.aluInplace then ra else .acc) (((s.reg ra).toNat + 65535) % 65536))

/-- R207, R208: the low 16 bits of the product, in `acc`. -/
def Obligations.Multiply : Prop :=
  ∀ (s : State) (imm : Word) (ra rb : Reg),
    (encode OpcodeMap.default (.mulImmReg imm ra) = some [0x20, hiByte imm, loByte imm, ra.toByte] ∧
      s.computes (.mulImmReg imm ra) .acc ((imm.toNat * (s.reg ra).toNat) % 65536)) ∧
    (encode OpcodeMap.default (.mulRegReg ra rb) = some [0x21, ra.toByte, rb.toByte] ∧
      s.computes (.mulRegReg ra rb) .acc (((s.reg ra).toNat * (s.reg rb).toNat) % 65536))

/-- R209 to R212 (R200): shifts with the count modulo 32: left times a power of two modulo 65536, right the floor of the quotient. -/
def Obligations.Shifts : Prop :=
  ∀ (s : State) (n : Byte) (ra rb : Reg),
    (encode OpcodeMap.default (.lsfRegImm8 ra n) = some [0x26, ra.toByte, n] ∧
      s.computes (.lsfRegImm8 ra n) (if .lsfRegImm8 ∈ s.config.aluInplace then ra else .acc)
        (((s.reg ra).toNat * 2 ^ (n.toNat % 32)) % 65536)) ∧
    (encode OpcodeMap.default (.lsfRegReg ra rb) = some [0x27, ra.toByte, rb.toByte] ∧
      s.computes (.lsfRegReg ra rb) (if .lsfRegReg ∈ s.config.aluInplace then ra else .acc)
        (((s.reg ra).toNat * 2 ^ ((s.reg rb).toNat % 32)) % 65536)) ∧
    (encode OpcodeMap.default (.rsfRegImm8 ra n) = some [0x2A, ra.toByte, n] ∧
      s.computes (.rsfRegImm8 ra n) (if .rsfRegImm8 ∈ s.config.aluInplace then ra else .acc)
        ((s.reg ra).toNat / 2 ^ (n.toNat % 32))) ∧
    (encode OpcodeMap.default (.rsfRegReg ra rb) = some [0x2B, ra.toByte, rb.toByte] ∧
      s.computes (.rsfRegReg ra rb) (if .rsfRegReg ∈ s.config.aluInplace then ra else .acc)
        ((s.reg ra).toNat / 2 ^ ((s.reg rb).toNat % 32)))

/-- R213 to R216: the bitwise operations, in `acc`, bit by bit. -/
def Obligations.BitwiseOperations : Prop :=
  ∀ (s : State) (ra rb : Reg),
    (encode OpcodeMap.default (.andRegReg ra rb) = some [0x2F, ra.toByte, rb.toByte] ∧
      ∃ t, exec (.andRegReg ra rb) s = .next t ∧ s.onlyRegs [.acc] t ∧
        ∀ k < 16, (t.reg .acc).getLsbD k = ((s.reg ra).getLsbD k && (s.reg rb).getLsbD k)) ∧
    (encode OpcodeMap.default (.orRegReg ra rb) = some [0x31, ra.toByte, rb.toByte] ∧
      ∃ t, exec (.orRegReg ra rb) s = .next t ∧ s.onlyRegs [.acc] t ∧
        ∀ k < 16, (t.reg .acc).getLsbD k = ((s.reg ra).getLsbD k || (s.reg rb).getLsbD k)) ∧
    (encode OpcodeMap.default (.xorRegReg ra rb) = some [0x33, ra.toByte, rb.toByte] ∧
      ∃ t, exec (.xorRegReg ra rb) s = .next t ∧ s.onlyRegs [.acc] t ∧
        ∀ k < 16, (t.reg .acc).getLsbD k = ((s.reg ra).getLsbD k != (s.reg rb).getLsbD k)) ∧
    (encode OpcodeMap.default (.notReg ra) = some [0x34, ra.toByte] ∧
      ∃ t, exec (.notReg ra) s = .next t ∧ s.onlyRegs [.acc] t ∧
        ∀ k < 16, (t.reg .acc).getLsbD k = !(s.reg ra).getLsbD k)

/-! ## Conditional jumps (43_branch.md) -/

/-- R232, R234, R236, R238, R240, R242 (R230, R231): the six jumps that compare an immediate with `acc`, unsigned, the immediate on
the left; only `pc` may change. -/
def Obligations.JumpsOnImmediate : Prop :=
  ∀ (s : State) (imm target : Word),
    (encode OpcodeMap.default (.jneImmMem imm target) = some [0x15, hiByte imm, loByte imm, hiByte target, loByte target] ∧
      s.jumps (.jneImmMem imm target) (imm.toNat ≠ (s.reg .acc).toNat) target) ∧
    (encode OpcodeMap.default (.jeqImmMem imm target) = some [0x41, hiByte imm, loByte imm, hiByte target, loByte target] ∧
      s.jumps (.jeqImmMem imm target) (imm.toNat = (s.reg .acc).toNat) target) ∧
    (encode OpcodeMap.default (.jltImmMem imm target) = some [0x43, hiByte imm, loByte imm, hiByte target, loByte target] ∧
      s.jumps (.jltImmMem imm target) (imm.toNat < (s.reg .acc).toNat) target) ∧
    (encode OpcodeMap.default (.jgtImmMem imm target) = some [0x45, hiByte imm, loByte imm, hiByte target, loByte target] ∧
      s.jumps (.jgtImmMem imm target) ((s.reg .acc).toNat < imm.toNat) target) ∧
    (encode OpcodeMap.default (.jleImmMem imm target) = some [0x47, hiByte imm, loByte imm, hiByte target, loByte target] ∧
      s.jumps (.jleImmMem imm target) (imm.toNat ≤ (s.reg .acc).toNat) target) ∧
    (encode OpcodeMap.default (.jgeImmMem imm target) = some [0x49, hiByte imm, loByte imm, hiByte target, loByte target] ∧
      s.jumps (.jgeImmMem imm target) ((s.reg .acc).toNat ≤ imm.toNat) target)

/-- R233, R235, R237, R239, R241, R243 (R230, R231): the six jumps that compare a register with `acc`, unsigned, the register on the
left; only `pc` may change. -/
def Obligations.JumpsOnRegister : Prop :=
  ∀ (s : State) (r : Reg) (target : Word),
    (encode OpcodeMap.default (.jneRegMem r target) = some [0x40, r.toByte, hiByte target, loByte target] ∧
      s.jumps (.jneRegMem r target) ((s.reg r).toNat ≠ (s.reg .acc).toNat) target) ∧
    (encode OpcodeMap.default (.jeqRegMem r target) = some [0x3E, r.toByte, hiByte target, loByte target] ∧
      s.jumps (.jeqRegMem r target) ((s.reg r).toNat = (s.reg .acc).toNat) target) ∧
    (encode OpcodeMap.default (.jltRegMem r target) = some [0x42, r.toByte, hiByte target, loByte target] ∧
      s.jumps (.jltRegMem r target) ((s.reg r).toNat < (s.reg .acc).toNat) target) ∧
    (encode OpcodeMap.default (.jgtRegMem r target) = some [0x44, r.toByte, hiByte target, loByte target] ∧
      s.jumps (.jgtRegMem r target) ((s.reg .acc).toNat < (s.reg r).toNat) target) ∧
    (encode OpcodeMap.default (.jleRegMem r target) = some [0x46, r.toByte, hiByte target, loByte target] ∧
      s.jumps (.jleRegMem r target) ((s.reg r).toNat ≤ (s.reg .acc).toNat) target) ∧
    (encode OpcodeMap.default (.jgeRegMem r target) = some [0x48, r.toByte, hiByte target, loByte target] ∧
      s.jumps (.jgeRegMem r target) ((s.reg .acc).toNat ≤ (s.reg r).toNat) target)

/-! ## Memory and the mapper (20_memory.md) -/

/-- R63, R64, R66, R67: an access past 0xFFFF overflows before any routing; one that no region covers has no region; any other goes
to the first region that covers its first byte, at the address less the region's start if the region remaps, else at the address
itself. -/
def Obligations.AccessIsRouted : Prop :=
  ∀ (s : State) (a n : Nat), 0 < n →
    (a + n - 1 > 0xFFFF → s.access a n = .error (.addressOverflow a)) ∧
    (a + n - 1 ≤ 0xFFFF → (∀ r ∈ s.regions, ¬ (r.start ≤ a ∧ a ≤ r.stop)) → s.access a n = .error (.noRegion a)) ∧
    (a + n - 1 ≤ 0xFFFF → ∀ (before after : List Region) (r : Region), s.regions = before ++ r :: after →
      (∀ q ∈ before, ¬ (q.start ≤ a ∧ a ≤ q.stop)) → r.start ≤ a → a ≤ r.stop →
        s.access a n = s.resolve r.device (if r.remap then a - r.start else a) n a)

/-- R61, R72, R73, R74, R75: a device answers an access from the only buffer of a linear RAM, or from buffer `mb mod BANK_COUNT` of a bank
device, or as a sink; an access outside the storage is out of range, with the global address. The device exists, and a bank device
has at least one buffer. That a sink has no bound is the model's choice (log entry 11). R61 lets the host map any other object: that it
answers every access inside its size and none outside it, and that each of its four operations completes and changes it alone, is the
model's choice (log entry 12). -/
def Obligations.DevicesAnswer : Prop :=
  ∀ (s : State) (device l n a : Nat),
    (∀ size m, s.devices[device]? = some (.ram size m) →
      (l + n ≤ size → s.resolve device l n a = .ok (.storage { device := device, bank := 0, offset := l })) ∧
      (size < l + n → s.resolve device l n a = .error (.deviceRange a))) ∧
    (∀ size bs, s.devices[device]? = some (.bank size bs) → 0 < bs.length →
      (l + n ≤ size → s.resolve device l n a =
        .ok (.storage { device := device, bank := (s.reg .mb).toNat % bs.length, offset := l })) ∧
      (size < l + n → s.resolve device l n a = .error (.deviceRange a))) ∧
    (s.devices[device]? = some .ioSink → s.resolve device l n a = .ok (.sink device l)) ∧
    (∀ kind size x, s.devices[device]? = some (.object kind size x) →
      (l + n ≤ size → s.resolve device l n a = .ok (.object device l)) ∧
      (size < l + n → s.resolve device l n a = .error (.deviceRange a))) ∧
    (∀ v b d o,
      (s.access a 1 = .ok (.object d o) →
        (∃ t, s.memRead8 a = .ok (s.objectGet8 d o).1 t ∧ s.changesObject d (s.objectGet8 d o).2 t) ∧
        ∃ t, s.memWrite8 a b = .ok () t ∧ s.changesObject d (s.objectSet8 d o b) t) ∧
      (s.access a 2 = .ok (.object d o) →
        (∃ t, s.memRead16 a = .ok (s.objectGet16 d o).1 t ∧ s.changesObject d (s.objectGet16 d o).2 t) ∧
        ∃ t, s.memWrite16 a v = .ok () t ∧ s.changesObject d (s.objectSet16 d o v) t))

/-- R69 (R68): a word written where storage is reached is read back from there, its high byte lies at the lower address, and every
other byte of every device reads as before. -/
def Obligations.WordWrittenIsReadBack : Prop :=
  ∀ (s : State) (a : Nat) (v : Word) (l : Loc), s.access a 2 = .ok (.storage l) →
    ∃ t, s.memWrite16 a v = .ok () t ∧ t.memRead16 a = .ok v t ∧
      t.byteAt l = hiByte v ∧ t.byteAt l.next = loByte v ∧ s.sameBytesBut [l, l.next] t

/-- R75: a 16-bit write to an I/O sink emits the event and changes nothing else; an 8-bit write has no effect; a read completes with a
free value and has no effect but to count the draw. The count of draws (log entry 9) and the device number in the event (log entry
10) are the model's. -/
def Obligations.SinkReadsAndWrites : Prop :=
  ∀ (s : State) (a d o : Nat) (v : Word) (b : Byte),
    (s.access a 2 = .ok (.sink d o) →
      s.memWrite16 a v = .ok () (s.emit { device := d, offset := o, value := v }) ∧
      ∃ w, s.memRead16 a = .ok w s.draw) ∧
    (s.access a 1 = .ok (.sink d o) → s.memWrite8 a b = .ok () s ∧ ∃ w, s.memRead8 a = .ok w s.draw)

/-- R74, R33: a store made while `mb` selects one buffer of a bank device leaves the bytes of every other buffer alone, and after
`mb` is written with a value that selects another buffer the same address reaches that buffer. -/
def Obligations.BanksAreIndependent : Prop :=
  ∀ (s : State) (a : Nat) (v m : Word) (r : Region) (size : Nat) (bs : List Memory), 0 < bs.length → a ≤ 0xFFFE →
    s.route a = some r → s.devices[r.device]? = some (.bank size bs) → r.localAddr a + 2 ≤ size →
      ∃ t, s.memWrite16 a v = .ok () t ∧
        (∀ l : Loc, l.device = r.device → l.bank ≠ (s.reg .mb).toNat % bs.length → t.byteAt l = s.byteAt l) ∧
        (t.setReg .mb m).access a 2 =
          .ok (.storage { device := r.device, bank := m.toNat % bs.length, offset := r.localAddr a })

/-- R76, R77: a mapped region is put before all others, takes every address of its range and leaves the routing of every other address
alone; its handle gives back the routing there was before; and a handle invoked later removes exactly its region, the regions mapped
before and after it keeping their order. No region holds the handle that is handed out, and no two hold the same: handles are numbers
in the model (log entry 14). -/
def Obligations.MappingShadowsAndUnmaps : Prop :=
  ∀ (s : State) (device start stop : Nat) (remap : Bool), (∀ r ∈ s.regions, r.token ≠ s.nextToken) →
    let t := (s.map device start stop remap).1
    let token := (s.map device start stop remap).2
    (∀ a, start ≤ a → a ≤ stop → ∃ r, t.route a = some r ∧ r.device = device ∧ r.start = start ∧ r.remap = remap) ∧
    (∀ a, ¬ (start ≤ a ∧ a ≤ stop) → t.route a = s.route a) ∧
    (t.unmap token).regions = s.regions ∧ (∀ a, (t.unmap token).route a = s.route a) ∧
    (∀ r, t.reg r = s.reg r) ∧ t.devices = s.devices ∧
    (∀ (later earlier : List Region) (r : Region), s.regions = later ++ r :: earlier →
      (∀ q ∈ later ++ earlier, q.token ≠ r.token) → (s.unmap r.token).regions = later ++ earlier)

/-- R79: on the default platform no step raises `NoRegion` or `DeviceRange`: a step that fails, fails with an overflow or with an
unassigned opcode. -/
def Obligations.DefaultPlatformFaults : Prop :=
  ∀ (s : State) (e : EngineError) (output : List OutputEvent), s.flat → step s = .fault (.failed e output) →
    (∃ a, e = .addressOverflow a) ∨ ∃ op a, e = .illegalOpcode op a

/-! ## Stack and call (44_stack_call.md) -/

/-- R250, R260, R261: a push of an immediate or of a register's value as it was before the push; onto storage, every other byte and every
object (R61) as before. The device number in the event of a
sink is the model's (log entry 10), and so is how another object answers (log entry 12). -/
def Obligations.PushInstructions : Prop :=
  ∀ (s : State) (imm : Word) (r : Reg),
    (encode OpcodeMap.default (.pshImm imm) = some [0x17, hiByte imm, loByte imm] ∧ s.pushes (.pshImm imm) imm) ∧
    (encode OpcodeMap.default (.pshReg r) = some [0x18, r.toByte] ∧ s.pushes (.pshReg r) (s.reg r))

/-- R251, R262: a pop reads at `sp + 2`, modulo 65536, into any register, after the pop's own update of `sp`: `pop sp` leaves the word
read in `sp`. From storage, nothing else changes; from an I/O sink the word is free and one draw more is counted (log entry 9); from
another object it is what its `get16` answers, and only that object changes (log entry 12); where the access fails it faults. -/
def Obligations.PopInstruction : Prop :=
  ∀ (s : State) (r : Reg),
    encode OpcodeMap.default (.popReg r) = some [0x1A, r.toByte] ∧
    (∀ l, s.access (s.reg .sp + 2).toNat 2 = .ok (.storage l) →
      ∃ t, exec (.popReg r) s = .next t ∧ t.reg r = s.wordAt l ∧ (r ≠ .sp → t.reg .sp = s.reg .sp + 2) ∧
        t.frameSize = s.frameSize - 2 ∧ s.sameRegsBut [.sp, r] t ∧ t.inHandler = s.inHandler ∧
        t.runState = s.runState ∧ s.samePlatform t ∧ t.devices = s.devices ∧ s.sameOutput t) ∧
    (∀ d o, s.access (s.reg .sp + 2).toNat 2 = .ok (.sink d o) →
      ∃ t, exec (.popReg r) s = .next t ∧ (r ≠ .sp → t.reg .sp = s.reg .sp + 2) ∧ t.frameSize = s.frameSize - 2 ∧
        s.sameRegsBut [.sp, r] t ∧ t.inHandler = s.inHandler ∧ t.runState = s.runState ∧ s.samePlatform t ∧
        t.devices = s.devices ∧ t.output = s.output ∧ t.draws = s.draws + 1) ∧
    (∀ d o, s.access (s.reg .sp + 2).toNat 2 = .ok (.object d o) →
      ∃ t, exec (.popReg r) s = .next t ∧ t.reg r = (s.objectGet16 d o).1 ∧ (r ≠ .sp → t.reg .sp = s.reg .sp + 2) ∧
        t.frameSize = s.frameSize - 2 ∧ s.sameRegsBut [.sp, r] t ∧ t.inHandler = s.inHandler ∧ t.runState = s.runState ∧
        s.samePlatform t ∧ s.changesObject d (s.objectGet16 d o).2 t ∧ s.sameOutput t) ∧
    (∀ e, s.access (s.reg .sp + 2).toNat 2 = .error e → exec (.popReg r) s = .fault (.failed e s.output))

/-- R252: a push followed by a pop returns the pushed value and restores `sp` and `F`. -/
def Obligations.PushThenPop : Prop :=
  ∀ (s t : State) (v : Word) (l : Loc), s.access (s.reg .sp).toNat 2 = .ok (.storage l) → s.push v = .ok () t →
    ∃ u, t.pop = .ok v u ∧ u.reg .sp = s.reg .sp ∧ u.frameSize = s.frameSize ∧ u.devices = t.devices

/-- R256, R257, R263, R264: a call whose ten stack words reach storage completes: r1 to r8, the return address and `F + 20` lie at
`sp`, `sp - 2`, ..., `sp - 18` in that order; `sp` and `fp` are 20 lower than `sp` was; `F` is 0; `pc` is the target, for `cal r` the
register's value before the pushes; every other byte, every object (R61), register and field is as before. -/
def Obligations.CallPushesFrame : Prop :=
  ∀ (s : State) (target : Word) (r : Reg) (place : Nat → Loc), s.roomFor 10 place →
    encode OpcodeMap.default (.calImm target) = some [0x5E, hiByte target, loByte target] ∧
    encode OpcodeMap.default (.calReg r) = some [0x5F, r.toByte] ∧
    (∃ t, exec (.calImm target) s = .next t ∧ t.reg .pc = target ∧ s.wroteWords t s.frameWords place ∧ s.sameObjects t ∧
      t.reg .sp = s.reg .sp - 20 ∧ t.reg .fp = s.reg .sp - 20 ∧ t.frameSize = 0 ∧ s.sameRegsBut [.pc, .sp, .fp] t ∧
      t.inHandler = s.inHandler ∧ t.runState = s.runState ∧ s.samePlatform t ∧ s.sameOutput t) ∧
    (∃ t, exec (.calReg r) s = .next t ∧ t.reg .pc = s.reg r ∧ s.wroteWords t s.frameWords place ∧ s.sameObjects t ∧
      t.reg .sp = s.reg .sp - 20 ∧ t.reg .fp = s.reg .sp - 20 ∧ t.frameSize = 0 ∧ s.sameRegsBut [.pc, .sp, .fp] t ∧
      t.inHandler = s.inHandler ∧ t.runState = s.runState ∧ s.samePlatform t ∧ s.sameOutput t)

/-- R303, R263, R264: within a call the first push whose access fails is the one reported; the output emitted before the call stays
emitted. -/
def Obligations.CallReportsFirstFault : Prop :=
  ∀ (s : State) (target : Word) (r : Reg) (k : Nat) (e : EngineError), k < 10 →
    (∀ j < k, ∃ g, s.access (slotDown (s.reg .sp) j).toNat 2 = .ok g) →
    s.access (slotDown (s.reg .sp) k).toNat 2 = .error e →
      (∃ output, exec (.calImm target) s = .fault (.failed e output) ∧ s.output <+: output) ∧
      (∃ output, exec (.calReg r) s = .fault (.failed e output) ∧ s.output <+: output)

/-- R303, R312, R265, R282: where the other transfers through the stack stop. An accepted request outside a handler, by `int` or from the
host, reports the first of its eleven pushes whose access fails, and, when all eleven are done, the failing access to its vector slot; what
was emitted stays emitted. `ret` and `rti` report the first failing pop: of the frame's eleven words, the count the last of them, and,
where the count is read from storage, of the arguments it counts; they emit nothing. -/
def Obligations.RequestsAndReturnsReportFirstFault : Prop :=
  ∀ (s : State) (v : Word) (k : Nat) (e : EngineError),
    ((s.reg .im).getLsbD (v.toNat % 16) = true → s.inHandler = false →
      (k < 11 → (∀ j < k, ∃ g, s.access (slotDown (s.reg .sp) j).toNat 2 = .ok g) →
        s.access (slotDown (s.reg .sp) k).toNat 2 = .error e →
          ∃ output, s.requestFails v e output ∧ s.output <+: output) ∧
      ((∀ j < 11, ∃ g, s.access (slotDown (s.reg .sp) j).toNat 2 = .ok g) →
        s.access (s.config.ivtBase.toNat + 2 * (v.toNat % 16)) 2 = .error e →
          ∃ output, s.requestFails v e output ∧ s.output <+: output)) ∧
    ((k < 11 ∨ ∃ l, s.access (slotUp (s.reg .fp) 10).toNat 2 = .ok (.storage l) ∧ k < 11 + (s.wordAt l).toNat) →
      (∀ j < k, ∃ g, s.access (slotUp (s.reg .fp) j).toNat 2 = .ok g) →
      s.access (slotUp (s.reg .fp) k).toNat 2 = .error e →
        exec .ret s = .fault (.failed e s.output) ∧ exec .rti s = .fault (.failed e s.output))

/-- R258, R265, R282: a return whose frame and arguments reach storage completes: `sp` is taken from `fp`; the saved frame size, `pc`,
r8 to r1 and the count are popped in that order; that many words are discarded; `fp` is the old `fp` plus the saved frame size. `ret`
leaves `H` as it is (R316); `rti` clears it (R315), also when it is already clear. -/
def Obligations.ReturnPopsFrame : Prop :=
  ∀ (s : State) (place : Nat → Loc),
    (∀ k < 11 + (s.wordAt (place 10)).toNat, s.access (slotUp (s.reg .fp) k).toNat 2 = .ok (.storage (place k))) →
      encode OpcodeMap.default .ret = some [0x60] ∧ s.returns .ret s.inHandler place ∧
      encode OpcodeMap.default .rti = some [0xFC] ∧ s.returns .rti false place

/-- R259, with its hypotheses, on the default platform: a call, then any run that leaves `fp` and the eleven words from the count down
as the call left them, then a return: r1 to r8 and `pc` are as at the call; `sp` is above the count and the n arguments;
`fp = sp + F` of the call; `F` is `F` of the call less 2n. -/
def Obligations.CallThenReturn : Prop :=
  ∀ (s t u : State) (target n : Word) (r : Reg), s.flat →
    (∀ k < 10, slotDown (s.reg .sp) k ≠ 0xFFFF) → (∀ k ≤ n.toNat, slotUp (s.reg .sp) k ≠ 0xFFFF) →
    (exec (.calImm target) s = .next t ∨ exec (.calReg r) s = .next t) → u.flat → u.reg .fp = t.reg .fp → n = u.flatWord (s.reg .sp + 2) →
    (∀ k < 10, u.flatWord (slotDown (s.reg .sp) k) = t.flatWord (slotDown (s.reg .sp) k)) →
      ∃ v, exec .ret u = .next v ∧ v.reg .pc = s.reg .pc ∧
        (∀ r ∈ [Reg.r1, .r2, .r3, .r4, .r5, .r6, .r7, .r8], v.reg r = s.reg r) ∧
        v.reg .sp = s.reg .sp + 2 + 2 * n ∧ v.reg .fp = s.reg .sp + s.frameSize ∧ v.frameSize = s.frameSize - 2 * n ∧
        (s.frameInv → v.reg .fp = s.reg .fp)

/-- R266: every push, every call and every pop into a register other than `sp` and `fp` keeps the frame invariant; a call makes it
hold; and after every `ret` and `rti`, `F` is 2 above `fp - sp`, whatever was popped. -/
def Obligations.FrameInvariant : Prop :=
  ∀ (s t : State) (imm : Word) (r q : Reg), q ≠ .sp → q ≠ .fp →
    (s.frameInv → exec (.pshImm imm) s = .next t → t.frameInv) ∧
    (s.frameInv → exec (.pshReg r) s = .next t → t.frameInv) ∧
    (s.frameInv → exec (.popReg q) s = .next t → t.frameInv) ∧
    (exec (.calImm imm) s = .next t → t.frameInv) ∧
    (exec (.calReg r) s = .next t → t.frameInv) ∧
    (exec .ret s = .next t → t.frameSize = t.reg .fp - t.reg .sp + 2) ∧
    (exec .rti s = .next t → t.frameSize = t.reg .fp - t.reg .sp + 2)

/-! ## System and interrupts (45_system.md, 60_exceptions.md) -/

/-- R280: `hlt` makes the run state `halted` and changes nothing else; the halted engine takes no step. That `step` answers this by the
named fault `engineHalted` is the model's choice (log entry 8). -/
def Obligations.HaltStops : Prop :=
  ∀ s : State, encode OpcodeMap.default .hlt = some [0xFF] ∧
    ∃ t, exec .hlt s = .next t ∧ t.runState = .halted ∧ step t = .fault .engineHalted ∧ s.sameRegsBut [] t ∧
      t.frameSize = s.frameSize ∧ t.inHandler = s.inHandler ∧ s.samePlatform t ∧ t.devices = s.devices ∧ s.sameOutput t

/-- R311: a request on a line whose bit of `im` is 0 changes nothing, whether an instruction or the host raises it. -/
def Obligations.MaskedRequestIsIgnored : Prop :=
  ∀ (s : State) (v : Word), (s.reg .im).getLsbD (v.toNat % 16) = false →
    exec (.intImm v) s = .next s ∧ s.hostInterrupt v = (s, none)

/-- R310, R312, R314, R281, R330: an accepted request outside a handler, its eleven stack words and its vector slot in storage, completes,
by `int` and, on a running engine, from the host alike: the count 0, r1 to r8, the address of the next instruction and `F + 22` lie at `sp`, `sp - 2`, ..., `sp - 20`; `sp` and `fp` are 22 lower than
`sp` was; `F` is 0; `H` is set; `pc` is the word of the vector slot as read after the pushes; `im` and every other
register, every other byte and every object (R61) are as before. -/
def Obligations.InterruptEntry : Prop :=
  ∀ (s : State) (v : Word) (place : Nat → Loc) (l : Loc), (s.reg .im).getLsbD (v.toNat % 16) = true → s.inHandler = false →
    s.roomFor 11 place → s.access (s.config.ivtBase.toNat + 2 * (v.toNat % 16)) 2 = .ok (.storage l) →
      encode OpcodeMap.default (.intImm v) = some [0xFD, hiByte v, loByte v] ∧
      ∃ t, s.requestCompletes v t ∧
        s.wroteWords t
          [0, s.reg .r1, s.reg .r2, s.reg .r3, s.reg .r4, s.reg .r5, s.reg .r6, s.reg .r7, s.reg .r8, s.reg .pc,
            s.frameSize + 22] place ∧ s.sameObjects t ∧
        t.reg .pc = t.wordAt l ∧ t.reg .sp = s.reg .sp - 22 ∧ t.reg .fp = s.reg .sp - 22 ∧ t.frameSize = 0 ∧
        t.inHandler = true ∧ s.sameRegsBut [.pc, .sp, .fp] t ∧ t.runState = s.runState ∧ s.samePlatform t ∧ s.sameOutput t

/-- R313, R314, R330: an accepted request inside a handler, by `int` and, on a running engine, from the host alike, saves nothing: only
`pc` changes, to the word of the vector slot; where an I/O sink answers the vector read, to a free value (one draw more, log entry 9);
where another object does, to the word its `get16` answers (log entry 12); where the vector read fails the request faults, with the slot
address not wrapped, and the host finds the engine failed for that error. -/
def Obligations.NestedRequestSavesNothing : Prop :=
  ∀ (s : State) (v : Word), (s.reg .im).getLsbD (v.toNat % 16) = true → s.inHandler = true →
    (∀ l, s.access (s.config.ivtBase.toNat + 2 * (v.toNat % 16)) 2 = .ok (.storage l) →
      ∃ t, s.requestCompletes v t ∧ t.reg .pc = s.wordAt l ∧ s.onlyRegs [.pc] t) ∧
    (∀ d o, s.access (s.config.ivtBase.toNat + 2 * (v.toNat % 16)) 2 = .ok (.sink d o) →
      ∃ t, s.requestCompletes v t ∧ s.sameRegsBut [.pc] t ∧ s.sameHidden t ∧ s.samePlatform t ∧
        t.devices = s.devices ∧ t.output = s.output ∧ t.draws = s.draws + 1) ∧
    (∀ d o, s.access (s.config.ivtBase.toNat + 2 * (v.toNat % 16)) 2 = .ok (.object d o) →
      ∃ t, s.requestCompletes v t ∧ t.reg .pc = (s.objectGet16 d o).1 ∧ s.sameRegsBut [.pc] t ∧ s.sameHidden t ∧
        s.samePlatform t ∧ s.changesObject d (s.objectGet16 d o).2 t ∧ s.sameOutput t) ∧
    (∀ e, s.access (s.config.ivtBase.toNat + 2 * (v.toNat % 16)) 2 = .error e → s.requestFails v e s.output) ∧
    (s.config.ivtBase.toNat + 2 * (v.toNat % 16) > 0xFFFE →
      s.requestFails v (.addressOverflow (s.config.ivtBase.toNat + 2 * (v.toNat % 16))) s.output)

/-- R310, R281: two request values that are equal modulo 16 are the same request, to an instruction and to the host, for `v` and
`v + 16` select the same line. (Which line it is, `MaskedRequestIsIgnored`, `InterruptEntry` and `NestedRequestSavesNothing` say.) -/
def Obligations.RequestLineModulo16 : Prop :=
  ∀ (s : State) (v w : Word), v.toNat % 16 = w.toNat % 16 →
    exec (.intImm v) s = exec (.intImm w) s ∧ s.hostInterrupt v = s.hostInterrupt w

/-- R317, with its hypotheses, on the default platform: an unmasked request taken outside a handler, then any run that leaves `fp` and
the saved frame as the entry left them, then `rti`: r1 to r8, `pc` and `sp` are as before the request and `H` is clear; `fp` is
`sp + F` of the request, its own value if the frame invariant held; `F` ends 2 above `fp - sp`. -/
def Obligations.InterruptRoundTrip : Prop :=
  ∀ (s t u : State) (v : Word), s.flat → s.inHandler = false → (s.reg .im).getLsbD (v.toNat % 16) = true →
    (∀ k < 11, slotDown (s.reg .sp) k ≠ 0xFFFF) → s.requestInterrupt v = .ok () t → u.flat → u.reg .fp = t.reg .fp →
    (∀ k < 11, u.flatWord (slotDown (s.reg .sp) k) = t.flatWord (slotDown (s.reg .sp) k)) →
      ∃ w, exec .rti u = .next w ∧ w.reg .pc = s.reg .pc ∧
        (∀ r ∈ [Reg.r1, .r2, .r3, .r4, .r5, .r6, .r7, .r8], w.reg r = s.reg r) ∧ w.inHandler = false ∧
        w.reg .sp = s.reg .sp ∧ w.reg .fp = s.reg .sp + s.frameSize ∧
        w.frameSize = w.reg .fp - w.reg .sp + 2 ∧ (s.frameInv → w.reg .fp = s.reg .fp)

/-! ## The step (40_cycle.md) -/

/-- R160, R165, R166: when the bytes at `pc` decode to an instruction, the step of a running engine is that instruction's effect on
the state with `pc` moved past its bytes, modulo 65536. -/
def Obligations.StepRunsDecodedInstruction : Prop :=
  ∀ (s : State) (bytes : List Byte) (i : Instr), s.runState = .running → s.codeAt bytes →
    decodesTo s.config.opcodeMap bytes i →
      step s = exec i (s.setReg .pc (s.reg .pc + BitVec.ofNat 16 bytes.length)) ∧ bytes.length = i.size

/-- R113: an opcode byte with no row raises `IllegalOpcode` with the byte and the address it was fetched from, or, under the `nop`
policy, is a one-byte instruction with no effect. -/
def Obligations.UnassignedOpcode : Prop :=
  ∀ (s : State) (b : Byte), s.runState = .running → s.codeAt [b] → OpcodeMap.rowOfByte s.config.opcodeMap b = none →
    (s.config.unknownOpcode = .fault → step s = .fault (.failed (.illegalOpcode b (s.reg .pc)) s.output)) ∧
    (s.config.unknownOpcode = .nop → step s = .next (s.setReg .pc (s.reg .pc + 1)))

/-- R162, R163, R164, R27: a byte fetch reads the byte at `pc` and moves `pc` by 1, from 0xFFFF to 0x0000; a word fetch reads two
bytes, big-endian, and moves `pc` by 2, and faults at 0xFFFF; a register fetch reduces the byte modulo 14. -/
def Obligations.FetchRules : Prop :=
  ∀ (s : State) (l : Loc),
    (s.access (s.reg .pc).toNat 1 = .ok (.storage l) →
      s.fetch = .ok (s.byteAt l) (s.setReg .pc (s.reg .pc + 1)) ∧
      ∃ r, s.fetchReg = .ok r (s.setReg .pc (s.reg .pc + 1)) ∧ r.ordinal = (s.byteAt l).toNat % 14) ∧
    (s.access (s.reg .pc).toNat 2 = .ok (.storage l) →
      s.fetch16 = .ok (s.wordAt l) (s.setReg .pc (s.reg .pc + 2))) ∧
    (s.reg .pc = 0xFFFF → s.fetch16 = .fault (.failed (.addressOverflow 0xFFFF) s.output))

/-- R322, R37: a halted or failed engine takes no step: the host's `step()` leaves it as it is; and a request delivered to it changes
nothing. -/
def Obligations.StoppedEngineTakesNoStep : Prop :=
  ∀ (s : State) (v : Word), s.runState ≠ .running →
    (∀ t, step s ≠ .next t) ∧ s.hostStep.1 = s ∧ s.hostInterrupt v = (s, none)

/-! ## Whole-machine rules -/

/-- An invariant of the model's own data over R101, R60, R76 and R73: every step keeps the machine well-formed:
the metadata table meets R101, the regions are regions of existing devices in the address space with distinct
handles, and every buffer of every device is in canonical form and inside its device's storage. -/
def Obligations.StepKeepsWellFormedMachine : Prop :=
  ∀ s t : State, s.wf = true → step s = .next t → t.wf = true

/-- An invariant of the model's own data, over R39 and R76: no step changes the configuration, the region list, the handle counter, or the
devices' kinds and sizes. R39 says it of the metadata table and `IVT_BASE` and of the region list; that every parameter is fixed is
log entry 1, that the devices are platform state is log entry 5, and the handle counter is log entry 14's. -/
def Obligations.StepKeepsPlatform : Prop :=
  ∀ s t : State, step s = .next t → s.samePlatform t

/-- R75, R169: output events stay emitted, in order: the output of a step that completes, and of one that fails, begins with the
output there was. -/
def Obligations.OutputOnlyGrows : Prop :=
  ∀ s : State, (∀ t, step s = .next t → s.output <+: t.output) ∧
    (∀ e output, step s = .fault (.failed e output) → s.output <+: output)

/-- R37, R280: the run state changes only by `hlt`, to `halted`. -/
def Obligations.OnlyHltHalts : Prop :=
  ∀ (i : Instr) (s t : State), exec i s = .next t →
    t.runState = s.runState ∨ (i = .hlt ∧ t.runState = .halted)

/-- R29, R32, R33, R200, R230: an instruction writes no register but those the spec names for it: `im` and `mb` only as a named
operand, `fp` only by the frame protocol or as one, `acc` by the ALU or as one. -/
def Obligations.OnlyNamedRegistersAreWritten : Prop :=
  ∀ (i : Instr) (s t : State), exec i s = .next t → s.sameRegsBut (mayWrite s.config i) t

/-- R71: an instruction that is no store, push, call or interrupt request leaves the output alone, every stored byte, and every device
but another object (R61), whose own `get16` may change what it holds (log entry 12). -/
def Obligations.OnlyStoresWriteMemory : Prop :=
  ∀ (i : Instr) (s t : State), mayStore i = false → exec i s = .next t →
    t.output = s.output ∧ s.sameBytesBut [] t ∧
    ∀ k : Nat, (∀ kind size x, s.devices[k]? ≠ some (Device.object kind size x)) → t.devices[k]? = s.devices[k]?

/-- R36, R312, R315, R316: the in-handler flag is set only by `int` and cleared only by `rti`; no other instruction, `ret` among them,
changes it. -/
def Obligations.HandlerFlagChangesOnlyByInterrupt : Prop :=
  ∀ (i : Instr) (s t : State), exec i s = .next t →
    t.inHandler = s.inHandler ∨ (∃ v, i = .intImm v ∧ t.inHandler = true) ∨ (i = .rti ∧ t.inHandler = false)

/-- R301, R302, R113, R323: no step is refused; a step that fails, fails with one of the errors a program can raise, never with
`UnknownRegisterName`; and no instruction traps for lack of privilege: an instruction's own fault is an access error. -/
def Obligations.EngineErrorsOfAStep : Prop :=
  ∀ s : State,
    (∀ x, step s ≠ .refused x) ∧
    (∀ e output, step s = .fault (.failed e output) →
      (∃ a, e = .noRegion a ∨ e = .addressOverflow a ∨ e = .deviceRange a) ∨ ∃ op a, e = .illegalOpcode op a) ∧
    (∀ i f, exec i s = .fault f →
      ∃ e output, f = .failed e output ∧ ∃ a, e = .noRegion a ∨ e = .addressOverflow a ∨ e = .deviceRange a)

/-! ## The host (60_exceptions.md R330) -/

/-- R41, R302, R330, R13, R300: the host reads and sets each of the fourteen registers by its name, storing the value modulo 65536; any
other name is `UnknownRegisterName`, which no step raises. That the error leaves a running engine `failed` for it, its output kept, is
log entry 23's reading of R13 and R300; that a stopped engine answers and stays as it is, is the model's choice (log entries 23, 24). -/
def Obligations.HostRegistersByName : Prop :=
  registerNames = ["pc", "acc", "r1", "r2", "r3", "r4", "r5", "r6", "r7", "r8", "sp", "fp", "im", "mb"] ∧
  (∀ (s : State) (r : Reg) (v : Int), s.hostGet (regName r) = (s, .ok (s.reg r)) ∧
    ∃ t, s.hostSet (regName r) v = (t, none) ∧ ((t.reg r).toNat : Int) = v % 65536 ∧ s.onlyRegs [r] t) ∧
  (∀ (s : State) (name : String) (v : Int), name ∉ registerNames →
    ∃ t, s.hostGet name = (t, .error (.unknownRegisterName name)) ∧ s.hostSet name v = (t, some (.unknownRegisterName name)) ∧
      (s.runState = .running →
        t.runState = .failed (.unknownRegisterName name) ∧ t.output = s.output ∧ s.samePlatform t) ∧
      (s.runState ≠ .running → t = s)) ∧
  (∀ (s : State) (name : String) (output : List OutputEvent),
    step s ≠ .fault (.failed (.unknownRegisterName name) output))

/-- R160, R280, R300, R169: what the host's `step()` reports of a running engine: `HLT` fired exactly when the engine halts, the fault
when the step fails, with the engine then `failed` for that reason and the output kept. -/
def Obligations.HostStepReports : Prop :=
  ∀ s : State, s.runState = .running →
    (∀ t, step s = .next t → t.runState = .running → s.hostStep = (t, .continues)) ∧
    (∀ t, step s = .next t → t.runState = .halted → s.hostStep = (t, .haltFired)) ∧
    (∀ e output, step s = .fault (.failed e output) →
      ∃ t, s.hostStep = (t, .failed e) ∧ t.runState = .failed e ∧ t.output = output ∧ s.samePlatform t)

/-! ## The assembler (30_encoding.md section 6) -/

/-- R126: reducing a flat list collapses the leftmost operator of the highest priority first, until one node remains: a list with no
operator is its element, and a list whose operator at one place has a higher priority than every operator before it and at least that
of every operator after it reduces as the list with that operator and its two neighbours made one node. -/
def Obligations.ExpressionReduction : Prop :=
  (∀ e, reduce e [] = e) ∧
  (∀ e op b after, (∀ x ∈ after, x.1.priority ≤ op.priority) →
    reduce e ((op, b) :: after) = reduce (.binOp op e b) after) ∧
  (∀ e before op' a op b after, (∀ x ∈ before, x.1.priority < op.priority) → op'.priority < op.priority →
    (∀ x ∈ after, x.1.priority ≤ op.priority) →
      reduce e (before ++ (op', a) :: (op, b) :: after) = reduce e (before ++ (op', .binOp op a b) :: after))

/-- R132: whatever is assembled under a well-formed table is exactly as long as the counter at the end of pass 1. -/
def Obligations.ImageLengthIsCounter : Prop :=
  ∀ (table : List Row) (stmts : List Stmt) (image : List Byte), OpcodeMap.wf table = true →
    encodeStmts table stmts = .ok image → ∃ symbols, allocate table stmts 0 [] = .ok (image.length, symbols)

/-- R129: one namespace for the three kinds. A statement that binds a name that the statements before it have bound aborts with an error
naming the symbol; and a program that assembles binds no name twice. -/
def Obligations.NamesAreBoundOnce : Prop :=
  (∀ (table : List Row) (before after : List Stmt) (i : Stmt) (name : Name) (counter : Nat) (symbols : SymTab),
    allocate table before 0 [] = .ok (counter, symbols) → name ∈ before.flatMap Stmt.binds → name ∈ i.binds →
      encodeStmts table (before ++ i :: after) = .error (.duplicate name)) ∧
  (∀ (table : List Row) (stmts : List Stmt) (image : List Byte), encodeStmts table stmts = .ok image →
    (stmts.flatMap Stmt.binds).Nodup)

end
end

