-- ==== Sys2Proof/Laws/State.lean ====
section
/-! SUPPORT. One lemma per field per named update of the state, so that no later proof unfolds an update. -/

namespace Sys2Proof.Machine

/-! ## Registers -/

@[simp] theorem Regs.get_set_same (x : Regs) (r : Reg) (v : Word) : (x.set r v).get r = v := by
  cases r <;> rfl

@[simp] theorem Regs.get_set_ne (x : Regs) {r q : Reg} (v : Word) (h : q ≠ r) : (x.set r v).get q = x.get q := by
  cases r <;> cases q <;> first | rfl | exact absurd rfl h

@[simp] theorem State.reg_setReg_same (s : State) (r : Reg) (v : Word) : (s.setReg r v).reg r = v :=
  Regs.get_set_same s.regs r v

@[simp] theorem State.reg_setReg_ne (s : State) {r q : Reg} (v : Word) (h : q ≠ r) :
    (s.setReg r v).reg q = s.reg q :=
  Regs.get_set_ne s.regs v h

theorem State.reg_setReg (s : State) (r q : Reg) (v : Word) :
    (s.setReg r v).reg q = if q = r then v else s.reg q := by
  by_cases h : q = r
  · subst h; simp
  · simp [h]

/-- Two register files that agree on every register are equal. -/
theorem Regs.ext_get {x y : Regs} (h : ∀ r, x.get r = y.get r) : x = y := by
  cases x; cases y
  simpa [Regs.get] using And.intro (h .pc) ⟨h .acc, h .r1, h .r2, h .r3, h .r4, h .r5, h .r6, h .r7, h .r8,
    h .sp, h .fp, h .im, h .mb⟩

/-! ## `setReg` -/

@[simp] theorem State.frameSize_setReg (s : State) (r : Reg) (v : Word) : (s.setReg r v).frameSize = s.frameSize := rfl
@[simp] theorem State.inHandler_setReg (s : State) (r : Reg) (v : Word) : (s.setReg r v).inHandler = s.inHandler := rfl
@[simp] theorem State.runState_setReg (s : State) (r : Reg) (v : Word) : (s.setReg r v).runState = s.runState := rfl
@[simp] theorem State.config_setReg (s : State) (r : Reg) (v : Word) : (s.setReg r v).config = s.config := rfl
@[simp] theorem State.regions_setReg (s : State) (r : Reg) (v : Word) : (s.setReg r v).regions = s.regions := rfl
@[simp] theorem State.nextToken_setReg (s : State) (r : Reg) (v : Word) : (s.setReg r v).nextToken = s.nextToken := rfl
@[simp] theorem State.devices_setReg (s : State) (r : Reg) (v : Word) : (s.setReg r v).devices = s.devices := rfl
@[simp] theorem State.output_setReg (s : State) (r : Reg) (v : Word) : (s.setReg r v).output = s.output := rfl
@[simp] theorem State.draws_setReg (s : State) (r : Reg) (v : Word) : (s.setReg r v).draws = s.draws := rfl
@[simp] theorem State.bufferAt_setReg (s : State) (r : Reg) (v : Word) (l : Loc) : (s.setReg r v).bufferAt l = s.bufferAt l := rfl
@[simp] theorem State.byteAt_setReg (s : State) (r : Reg) (v : Word) (l : Loc) : (s.setReg r v).byteAt l = s.byteAt l := rfl
@[simp] theorem State.wordAt_setReg (s : State) (r : Reg) (v : Word) (l : Loc) : (s.setReg r v).wordAt l = s.wordAt l := rfl
@[simp] theorem State.shapes_setReg (s : State) (r : Reg) (v : Word) : (s.setReg r v).shapes = s.shapes := rfl
@[simp] theorem State.memoryWf_setReg (s : State) (r : Reg) (v : Word) : (s.setReg r v).memoryWf = s.memoryWf := rfl
@[simp] theorem State.route_setReg (s : State) (r : Reg) (v : Word) (x : Nat) : (s.setReg r v).route x = s.route x := rfl

/-! ## `setFrameSize` -/

@[simp] theorem State.reg_setFrameSize (s : State) (v : Word) (q : Reg) : (s.setFrameSize v).reg q = s.reg q := rfl
@[simp] theorem State.frameSize_setFrameSize (s : State) (v : Word) : (s.setFrameSize v).frameSize = v := rfl
@[simp] theorem State.inHandler_setFrameSize (s : State) (v : Word) : (s.setFrameSize v).inHandler = s.inHandler := rfl
@[simp] theorem State.runState_setFrameSize (s : State) (v : Word) : (s.setFrameSize v).runState = s.runState := rfl
@[simp] theorem State.config_setFrameSize (s : State) (v : Word) : (s.setFrameSize v).config = s.config := rfl
@[simp] theorem State.regions_setFrameSize (s : State) (v : Word) : (s.setFrameSize v).regions = s.regions := rfl
@[simp] theorem State.nextToken_setFrameSize (s : State) (v : Word) : (s.setFrameSize v).nextToken = s.nextToken := rfl
@[simp] theorem State.devices_setFrameSize (s : State) (v : Word) : (s.setFrameSize v).devices = s.devices := rfl
@[simp] theorem State.output_setFrameSize (s : State) (v : Word) : (s.setFrameSize v).output = s.output := rfl
@[simp] theorem State.draws_setFrameSize (s : State) (v : Word) : (s.setFrameSize v).draws = s.draws := rfl
@[simp] theorem State.bufferAt_setFrameSize (s : State) (v : Word) (l : Loc) : (s.setFrameSize v).bufferAt l = s.bufferAt l := rfl
@[simp] theorem State.byteAt_setFrameSize (s : State) (v : Word) (l : Loc) : (s.setFrameSize v).byteAt l = s.byteAt l := rfl
@[simp] theorem State.wordAt_setFrameSize (s : State) (v : Word) (l : Loc) : (s.setFrameSize v).wordAt l = s.wordAt l := rfl
@[simp] theorem State.shapes_setFrameSize (s : State) (v : Word) : (s.setFrameSize v).shapes = s.shapes := rfl
@[simp] theorem State.memoryWf_setFrameSize (s : State) (v : Word) : (s.setFrameSize v).memoryWf = s.memoryWf := rfl
@[simp] theorem State.route_setFrameSize (s : State) (v : Word) (x : Nat) : (s.setFrameSize v).route x = s.route x := rfl
@[simp] theorem State.access_setFrameSize (s : State) (v : Word) (x n : Nat) : (s.setFrameSize v).access x n = s.access x n := rfl

/-! ## `setHandler` -/

@[simp] theorem State.reg_setHandler (s : State) (b : Bool) (q : Reg) : (s.setHandler b).reg q = s.reg q := rfl
@[simp] theorem State.frameSize_setHandler (s : State) (b : Bool) : (s.setHandler b).frameSize = s.frameSize := rfl
@[simp] theorem State.inHandler_setHandler (s : State) (b : Bool) : (s.setHandler b).inHandler = b := rfl
@[simp] theorem State.runState_setHandler (s : State) (b : Bool) : (s.setHandler b).runState = s.runState := rfl
@[simp] theorem State.config_setHandler (s : State) (b : Bool) : (s.setHandler b).config = s.config := rfl
@[simp] theorem State.regions_setHandler (s : State) (b : Bool) : (s.setHandler b).regions = s.regions := rfl
@[simp] theorem State.nextToken_setHandler (s : State) (b : Bool) : (s.setHandler b).nextToken = s.nextToken := rfl
@[simp] theorem State.devices_setHandler (s : State) (b : Bool) : (s.setHandler b).devices = s.devices := rfl
@[simp] theorem State.output_setHandler (s : State) (b : Bool) : (s.setHandler b).output = s.output := rfl
@[simp] theorem State.draws_setHandler (s : State) (b : Bool) : (s.setHandler b).draws = s.draws := rfl
@[simp] theorem State.bufferAt_setHandler (s : State) (b : Bool) (l : Loc) : (s.setHandler b).bufferAt l = s.bufferAt l := rfl
@[simp] theorem State.byteAt_setHandler (s : State) (b : Bool) (l : Loc) : (s.setHandler b).byteAt l = s.byteAt l := rfl
@[simp] theorem State.wordAt_setHandler (s : State) (b : Bool) (l : Loc) : (s.setHandler b).wordAt l = s.wordAt l := rfl
@[simp] theorem State.shapes_setHandler (s : State) (b : Bool) : (s.setHandler b).shapes = s.shapes := rfl
@[simp] theorem State.memoryWf_setHandler (s : State) (b : Bool) : (s.setHandler b).memoryWf = s.memoryWf := rfl
@[simp] theorem State.route_setHandler (s : State) (b : Bool) (x : Nat) : (s.setHandler b).route x = s.route x := rfl
@[simp] theorem State.access_setHandler (s : State) (b : Bool) (x n : Nat) : (s.setHandler b).access x n = s.access x n := rfl

/-! ## `setRunState` -/

@[simp] theorem State.reg_setRunState (s : State) (rs : RunState) (q : Reg) : (s.setRunState rs).reg q = s.reg q := rfl
@[simp] theorem State.frameSize_setRunState (s : State) (rs : RunState) : (s.setRunState rs).frameSize = s.frameSize := rfl
@[simp] theorem State.inHandler_setRunState (s : State) (rs : RunState) : (s.setRunState rs).inHandler = s.inHandler := rfl
@[simp] theorem State.runState_setRunState (s : State) (rs : RunState) : (s.setRunState rs).runState = rs := rfl
@[simp] theorem State.config_setRunState (s : State) (rs : RunState) : (s.setRunState rs).config = s.config := rfl
@[simp] theorem State.regions_setRunState (s : State) (rs : RunState) : (s.setRunState rs).regions = s.regions := rfl
@[simp] theorem State.nextToken_setRunState (s : State) (rs : RunState) : (s.setRunState rs).nextToken = s.nextToken := rfl
@[simp] theorem State.devices_setRunState (s : State) (rs : RunState) : (s.setRunState rs).devices = s.devices := rfl
@[simp] theorem State.output_setRunState (s : State) (rs : RunState) : (s.setRunState rs).output = s.output := rfl
@[simp] theorem State.draws_setRunState (s : State) (rs : RunState) : (s.setRunState rs).draws = s.draws := rfl
@[simp] theorem State.bufferAt_setRunState (s : State) (rs : RunState) (l : Loc) : (s.setRunState rs).bufferAt l = s.bufferAt l := rfl
@[simp] theorem State.byteAt_setRunState (s : State) (rs : RunState) (l : Loc) : (s.setRunState rs).byteAt l = s.byteAt l := rfl
@[simp] theorem State.wordAt_setRunState (s : State) (rs : RunState) (l : Loc) : (s.setRunState rs).wordAt l = s.wordAt l := rfl
@[simp] theorem State.shapes_setRunState (s : State) (rs : RunState) : (s.setRunState rs).shapes = s.shapes := rfl
@[simp] theorem State.memoryWf_setRunState (s : State) (rs : RunState) : (s.setRunState rs).memoryWf = s.memoryWf := rfl
@[simp] theorem State.route_setRunState (s : State) (rs : RunState) (x : Nat) : (s.setRunState rs).route x = s.route x := rfl
@[simp] theorem State.access_setRunState (s : State) (rs : RunState) (x n : Nat) : (s.setRunState rs).access x n = s.access x n := rfl

/-! ## `setDevices` -/

@[simp] theorem State.reg_setDevices (s : State) (ds : List Device) (q : Reg) : (s.setDevices ds).reg q = s.reg q := rfl
@[simp] theorem State.frameSize_setDevices (s : State) (ds : List Device) : (s.setDevices ds).frameSize = s.frameSize := rfl
@[simp] theorem State.inHandler_setDevices (s : State) (ds : List Device) : (s.setDevices ds).inHandler = s.inHandler := rfl
@[simp] theorem State.runState_setDevices (s : State) (ds : List Device) : (s.setDevices ds).runState = s.runState := rfl
@[simp] theorem State.config_setDevices (s : State) (ds : List Device) : (s.setDevices ds).config = s.config := rfl
@[simp] theorem State.regions_setDevices (s : State) (ds : List Device) : (s.setDevices ds).regions = s.regions := rfl
@[simp] theorem State.nextToken_setDevices (s : State) (ds : List Device) : (s.setDevices ds).nextToken = s.nextToken := rfl
@[simp] theorem State.devices_setDevices (s : State) (ds : List Device) : (s.setDevices ds).devices = ds := rfl
@[simp] theorem State.output_setDevices (s : State) (ds : List Device) : (s.setDevices ds).output = s.output := rfl
@[simp] theorem State.draws_setDevices (s : State) (ds : List Device) : (s.setDevices ds).draws = s.draws := rfl
@[simp] theorem State.route_setDevices (s : State) (ds : List Device) (x : Nat) : (s.setDevices ds).route x = s.route x := rfl

/-! ## `emit` -/

@[simp] theorem State.reg_emit (s : State) (e : OutputEvent) (q : Reg) : (s.emit e).reg q = s.reg q := rfl
@[simp] theorem State.frameSize_emit (s : State) (e : OutputEvent) : (s.emit e).frameSize = s.frameSize := rfl
@[simp] theorem State.inHandler_emit (s : State) (e : OutputEvent) : (s.emit e).inHandler = s.inHandler := rfl
@[simp] theorem State.runState_emit (s : State) (e : OutputEvent) : (s.emit e).runState = s.runState := rfl
@[simp] theorem State.config_emit (s : State) (e : OutputEvent) : (s.emit e).config = s.config := rfl
@[simp] theorem State.regions_emit (s : State) (e : OutputEvent) : (s.emit e).regions = s.regions := rfl
@[simp] theorem State.nextToken_emit (s : State) (e : OutputEvent) : (s.emit e).nextToken = s.nextToken := rfl
@[simp] theorem State.devices_emit (s : State) (e : OutputEvent) : (s.emit e).devices = s.devices := rfl
@[simp] theorem State.output_emit (s : State) (e : OutputEvent) : (s.emit e).output = s.output ++ [e] := rfl
@[simp] theorem State.draws_emit (s : State) (e : OutputEvent) : (s.emit e).draws = s.draws := rfl
@[simp] theorem State.bufferAt_emit (s : State) (e : OutputEvent) (l : Loc) : (s.emit e).bufferAt l = s.bufferAt l := rfl
@[simp] theorem State.byteAt_emit (s : State) (e : OutputEvent) (l : Loc) : (s.emit e).byteAt l = s.byteAt l := rfl
@[simp] theorem State.wordAt_emit (s : State) (e : OutputEvent) (l : Loc) : (s.emit e).wordAt l = s.wordAt l := rfl
@[simp] theorem State.shapes_emit (s : State) (e : OutputEvent) : (s.emit e).shapes = s.shapes := rfl
@[simp] theorem State.memoryWf_emit (s : State) (e : OutputEvent) : (s.emit e).memoryWf = s.memoryWf := rfl
@[simp] theorem State.route_emit (s : State) (e : OutputEvent) (x : Nat) : (s.emit e).route x = s.route x := rfl
@[simp] theorem State.access_emit (s : State) (e : OutputEvent) (x n : Nat) : (s.emit e).access x n = s.access x n := rfl

/-! ## `draw` -/

@[simp] theorem State.reg_draw (s : State) (q : Reg) : s.draw.reg q = s.reg q := rfl
@[simp] theorem State.frameSize_draw (s : State) : s.draw.frameSize = s.frameSize := rfl
@[simp] theorem State.inHandler_draw (s : State) : s.draw.inHandler = s.inHandler := rfl
@[simp] theorem State.runState_draw (s : State) : s.draw.runState = s.runState := rfl
@[simp] theorem State.config_draw (s : State) : s.draw.config = s.config := rfl
@[simp] theorem State.regions_draw (s : State) : s.draw.regions = s.regions := rfl
@[simp] theorem State.nextToken_draw (s : State) : s.draw.nextToken = s.nextToken := rfl
@[simp] theorem State.devices_draw (s : State) : s.draw.devices = s.devices := rfl
@[simp] theorem State.output_draw (s : State) : s.draw.output = s.output := rfl
@[simp] theorem State.draws_draw (s : State) : s.draw.draws = s.draws + 1 := rfl
@[simp] theorem State.bufferAt_draw (s : State) (l : Loc) : s.draw.bufferAt l = s.bufferAt l := rfl
@[simp] theorem State.byteAt_draw (s : State) (l : Loc) : s.draw.byteAt l = s.byteAt l := rfl
@[simp] theorem State.wordAt_draw (s : State) (l : Loc) : s.draw.wordAt l = s.wordAt l := rfl
@[simp] theorem State.shapes_draw (s : State) : s.draw.shapes = s.shapes := rfl
@[simp] theorem State.memoryWf_draw (s : State) : s.draw.memoryWf = s.memoryWf := rfl
@[simp] theorem State.route_draw (s : State) (x : Nat) : s.draw.route x = s.route x := rfl
@[simp] theorem State.access_draw (s : State) (x n : Nat) : s.draw.access x n = s.access x n := rfl

/-! ## `setByteAt`: only the devices change -/

@[simp] theorem State.reg_setByteAt (s : State) (l : Loc) (b : Byte) (q : Reg) : (s.setByteAt l b).reg q = s.reg q := by
  unfold State.setByteAt; split <;> try split
  all_goals rfl
@[simp] theorem State.frameSize_setByteAt (s : State) (l : Loc) (b : Byte) : (s.setByteAt l b).frameSize = s.frameSize := by
  unfold State.setByteAt; split <;> try split
  all_goals rfl
@[simp] theorem State.inHandler_setByteAt (s : State) (l : Loc) (b : Byte) : (s.setByteAt l b).inHandler = s.inHandler := by
  unfold State.setByteAt; split <;> try split
  all_goals rfl
@[simp] theorem State.runState_setByteAt (s : State) (l : Loc) (b : Byte) : (s.setByteAt l b).runState = s.runState := by
  unfold State.setByteAt; split <;> try split
  all_goals rfl
@[simp] theorem State.config_setByteAt (s : State) (l : Loc) (b : Byte) : (s.setByteAt l b).config = s.config := by
  unfold State.setByteAt; split <;> try split
  all_goals rfl
@[simp] theorem State.regions_setByteAt (s : State) (l : Loc) (b : Byte) : (s.setByteAt l b).regions = s.regions := by
  unfold State.setByteAt; split <;> try split
  all_goals rfl
@[simp] theorem State.nextToken_setByteAt (s : State) (l : Loc) (b : Byte) : (s.setByteAt l b).nextToken = s.nextToken := by
  unfold State.setByteAt; split <;> try split
  all_goals rfl
@[simp] theorem State.output_setByteAt (s : State) (l : Loc) (b : Byte) : (s.setByteAt l b).output = s.output := by
  unfold State.setByteAt; split <;> try split
  all_goals rfl
@[simp] theorem State.draws_setByteAt (s : State) (l : Loc) (b : Byte) : (s.setByteAt l b).draws = s.draws := by
  unfold State.setByteAt; split <;> try split
  all_goals rfl

/-! ## `setWordAt`: only the devices change -/

@[simp] theorem State.reg_setWordAt (s : State) (l : Loc) (v : Word) (q : Reg) : (s.setWordAt l v).reg q = s.reg q := by
  simp [State.setWordAt]
@[simp] theorem State.frameSize_setWordAt (s : State) (l : Loc) (v : Word) : (s.setWordAt l v).frameSize = s.frameSize := by
  simp [State.setWordAt]
@[simp] theorem State.inHandler_setWordAt (s : State) (l : Loc) (v : Word) : (s.setWordAt l v).inHandler = s.inHandler := by
  simp [State.setWordAt]
@[simp] theorem State.runState_setWordAt (s : State) (l : Loc) (v : Word) : (s.setWordAt l v).runState = s.runState := by
  simp [State.setWordAt]
@[simp] theorem State.config_setWordAt (s : State) (l : Loc) (v : Word) : (s.setWordAt l v).config = s.config := by
  simp [State.setWordAt]
@[simp] theorem State.regions_setWordAt (s : State) (l : Loc) (v : Word) : (s.setWordAt l v).regions = s.regions := by
  simp [State.setWordAt]
@[simp] theorem State.nextToken_setWordAt (s : State) (l : Loc) (v : Word) : (s.setWordAt l v).nextToken = s.nextToken := by
  simp [State.setWordAt]
@[simp] theorem State.output_setWordAt (s : State) (l : Loc) (v : Word) : (s.setWordAt l v).output = s.output := by
  simp [State.setWordAt]
@[simp] theorem State.draws_setWordAt (s : State) (l : Loc) (v : Word) : (s.setWordAt l v).draws = s.draws := by
  simp [State.setWordAt]

/-! ## `setObject`: only the devices change -/

@[simp] theorem State.reg_setObject (s : State) (d c : Nat) (q : Reg) : (s.setObject d c).reg q = s.reg q := by
  unfold State.setObject; split <;> rfl
@[simp] theorem State.frameSize_setObject (s : State) (d c : Nat) : (s.setObject d c).frameSize = s.frameSize := by
  unfold State.setObject; split <;> rfl
@[simp] theorem State.inHandler_setObject (s : State) (d c : Nat) : (s.setObject d c).inHandler = s.inHandler := by
  unfold State.setObject; split <;> rfl
@[simp] theorem State.runState_setObject (s : State) (d c : Nat) : (s.setObject d c).runState = s.runState := by
  unfold State.setObject; split <;> rfl
@[simp] theorem State.config_setObject (s : State) (d c : Nat) : (s.setObject d c).config = s.config := by
  unfold State.setObject; split <;> rfl
@[simp] theorem State.regions_setObject (s : State) (d c : Nat) : (s.setObject d c).regions = s.regions := by
  unfold State.setObject; split <;> rfl
@[simp] theorem State.nextToken_setObject (s : State) (d c : Nat) : (s.setObject d c).nextToken = s.nextToken := by
  unfold State.setObject; split <;> rfl
@[simp] theorem State.output_setObject (s : State) (d c : Nat) : (s.setObject d c).output = s.output := by
  unfold State.setObject; split <;> rfl
@[simp] theorem State.draws_setObject (s : State) (d c : Nat) : (s.setObject d c).draws = s.draws := by
  unfold State.setObject; split <;> rfl

/-! ## What an object answers -/

@[simp] theorem State.objectContents_setReg (s : State) (r : Reg) (v : Word) (d : Nat) :
    (s.setReg r v).objectContents d = s.objectContents d := rfl
@[simp] theorem State.objectContents_setFrameSize (s : State) (v : Word) (d : Nat) :
    (s.setFrameSize v).objectContents d = s.objectContents d := rfl
@[simp] theorem State.objectContents_setHandler (s : State) (b : Bool) (d : Nat) :
    (s.setHandler b).objectContents d = s.objectContents d := rfl
@[simp] theorem State.objectGet16_setHandler (s : State) (b : Bool) (d o : Nat) :
    (s.setHandler b).objectGet16 d o = s.objectGet16 d o := rfl

/-- An object does not see any register but `mb`. -/
theorem State.objectGet16_setReg (s : State) {r : Reg} (v : Word) (h : r ≠ .mb) (d o : Nat) :
    (s.setReg r v).objectGet16 d o = s.objectGet16 d o := by
  unfold State.objectGet16
  rw [State.reg_setReg_ne _ _ (Ne.symm h)]
  rfl

/-! ## Two updates -/

theorem State.setReg_setReg_same (s : State) (r : Reg) (v w : Word) : (s.setReg r v).setReg r w = s.setReg r w := by
  cases r <;> rfl

/-- Two states that agree on every register and every other field are equal. -/
theorem State.ext_reg {s t : State} (h : ∀ r, s.reg r = t.reg r) (hF : s.frameSize = t.frameSize)
    (hH : s.inHandler = t.inHandler) (hR : s.runState = t.runState) (hC : s.config = t.config)
    (hG : s.regions = t.regions) (hN : s.nextToken = t.nextToken) (hD : s.devices = t.devices)
    (hO : s.output = t.output) (hW : s.draws = t.draws) : s = t := by
  have hr : s.regs = t.regs := Regs.ext_get h
  cases s; cases t; simp_all

end Sys2Proof.Machine
end

