-- ==== Sys2Proof/Laws/Memory.lean ====
section
/-! SUPPORT. Stored bytes: a read after a write, what a write leaves alone, and the canonical form. -/

namespace Sys2Proof.Machine

/-! ## One buffer -/

theorem Memory.lookup_insertCell (cells : List Host.Cell) (a x : Nat) (b : Byte) :
    Memory.lookup (Memory.insertCell cells a b) x = if x = a then b else Memory.lookup cells x := by
  induction cells with
  | nil => simp [Memory.insertCell, Memory.lookup]
  | cons cell rest ih =>
    obtain ⟨k, c⟩ := cell
    simp only [Memory.insertCell]
    split
    · simp only [Memory.lookup]
    · split
      · subst_vars; simp only [Memory.lookup]; split <;> simp_all
      · simp only [Memory.lookup, ih]; split <;> split <;> simp_all

theorem Memory.lookup_eraseCell (cells : List Host.Cell) (a x : Nat) :
    Memory.lookup (Memory.eraseCell cells a) x = if x = a then Memory.unlisted else Memory.lookup cells x := by
  induction cells with
  | nil => simp [Memory.eraseCell, Memory.lookup]
  | cons cell rest ih =>
    obtain ⟨k, c⟩ := cell
    simp only [Memory.eraseCell]
    split
    · subst_vars; simp only [ih, Memory.lookup]; split <;> simp_all
    · simp only [Memory.lookup, ih]; split <;> split <;> simp_all

/-- Reading after a write: the written byte at its address, the old byte elsewhere. -/
theorem Memory.read_write (m : Memory) (a x : Nat) (b : Byte) :
    (m.write a b).read x = if x = a then b else m.read x := by
  unfold Memory.write Memory.read Memory.store
  split
  · subst_vars; exact Memory.lookup_eraseCell _ _ _
  · exact Memory.lookup_insertCell _ _ _ _

@[simp] theorem Memory.read_write_same (m : Memory) (a : Nat) (b : Byte) : (m.write a b).read a = b := by
  simp [Memory.read_write]

@[simp] theorem Memory.read_write_ne (m : Memory) {a x : Nat} (b : Byte) (h : x ≠ a) :
    (m.write a b).read x = m.read x := by
  simp [Memory.read_write, h]

@[simp] theorem Memory.read_empty (a : Nat) : Memory.empty.read a = Memory.unlisted := rfl

/-- Every entry of a list after an insertion is the new one or an old one. -/
theorem Memory.all_insertCell {p : Host.Cell → Bool} (cells : List Host.Cell) (a : Nat) (b : Byte)
    (h : cells.all p = true) (hab : p (a, b) = true) : (Memory.insertCell cells a b).all p = true := by
  induction cells with
  | nil => simpa [Memory.insertCell] using hab
  | cons cell rest ih =>
    obtain ⟨k, c⟩ := cell
    simp only [List.all_cons, Bool.and_eq_true] at h
    simp only [Memory.insertCell]
    split
    · simp [h, hab]
    · split
      · simp [h, hab]
      · simp [h, ih h.2]

/-- Every entry of a list after an erasure is an old one. -/
theorem Memory.all_eraseCell {p : Host.Cell → Bool} (cells : List Host.Cell) (a : Nat)
    (h : cells.all p = true) : (Memory.eraseCell cells a).all p = true := by
  induction cells with
  | nil => rfl
  | cons cell rest ih =>
    obtain ⟨k, c⟩ := cell
    simp only [List.all_cons, Bool.and_eq_true] at h
    simp only [Memory.eraseCell]
    split
    · exact ih h.2
    · simp [h, ih h.2]

theorem Memory.canonical_insertCell (cells : List Host.Cell) (a : Nat) (b : Byte)
    (h : Memory.canonical cells = true) (hb : b ≠ Memory.unlisted) :
    Memory.canonical (Memory.insertCell cells a b) = true := by
  induction cells with
  | nil => simpa [Memory.insertCell, Memory.canonical] using hb
  | cons cell rest ih =>
    obtain ⟨k, c⟩ := cell
    simp only [Memory.canonical, Bool.and_eq_true] at h
    obtain ⟨⟨hc, hall⟩, hrest⟩ := h
    simp only [Memory.insertCell]
    split
    next hlt =>
      have : rest.all (fun cell => a < cell.1) = true := by
        simp only [List.all_eq_true, decide_eq_true_eq] at hall ⊢
        exact fun x hx => Nat.lt_trans hlt (hall x hx)
      simp [Memory.canonical, hb, hlt, this, hall, hrest]
      simpa using hc
    next hge =>
      split
      next heq => subst heq; simp [Memory.canonical, hb, hall, hrest]
      next hne =>
        have hk : k < a := by omega
        have := Memory.all_insertCell rest a b hall (by simpa using hk)
        simp only [Memory.canonical, Bool.and_eq_true]
        exact ⟨⟨hc, this⟩, ih hrest⟩

theorem Memory.canonical_eraseCell (cells : List Host.Cell) (a : Nat)
    (h : Memory.canonical cells = true) : Memory.canonical (Memory.eraseCell cells a) = true := by
  induction cells with
  | nil => rfl
  | cons cell rest ih =>
    obtain ⟨k, c⟩ := cell
    simp only [Memory.canonical, Bool.and_eq_true] at h
    simp only [Memory.eraseCell]
    split
    · exact ih h.2
    · simp only [Memory.canonical, Bool.and_eq_true]
      exact ⟨⟨h.1.1, Memory.all_eraseCell rest a h.1.2⟩, ih h.2⟩

/-- A write keeps the canonical form. -/
theorem Memory.wf_write (m : Memory) (a : Nat) (b : Byte) (h : m.wf = true) : (m.write a b).wf = true := by
  unfold Memory.wf Memory.write Memory.store
  split
  · exact Memory.canonical_eraseCell _ _ h
  · exact Memory.canonical_insertCell _ _ _ h ‹_›

/-- A write inside a storage lists no byte outside it. -/
theorem Memory.within_write (m : Memory) (a size : Nat) (b : Byte) (h : m.within size = true) (ha : a < size) :
    (m.write a b).within size = true := by
  unfold Memory.within Memory.write Memory.store
  split
  · exact Memory.all_eraseCell _ _ h
  · exact Memory.all_insertCell _ _ _ h (by simpa using ha)

@[simp] theorem Memory.wf_empty : Memory.empty.wf = true := rfl

@[simp] theorem Memory.within_empty (size : Nat) : Memory.empty.within size = true := rfl

/-- Building a memory from any list of pairs gives the canonical form. -/
theorem Memory.wf_ofCells (cells : List Host.Cell) : (Memory.ofCells cells).wf = true := by
  suffices h : ∀ m : Memory, m.wf = true → (cells.foldl (fun m cell => m.write cell.1 cell.2) m).wf = true from
    h _ Memory.wf_empty
  induction cells with
  | nil => intro m h; exact h
  | cons cell rest ih => intro m h; exact ih _ (Memory.wf_write _ _ _ h)

/-! ## Devices -/

@[simp] theorem Device.buffers_setBuffer (d : Device) (k : Nat) (m : Memory) :
    (d.setBuffer k m).buffers = d.buffers.set k m := by
  cases d with
  | ram sz x => cases k <;> simp [Device.setBuffer, Device.buffers]
  | bank sz bs => rfl
  | ioSink => cases k <;> rfl
  | object => cases k <;> rfl

@[simp] theorem Device.size_setBuffer (d : Device) (k : Nat) (m : Memory) : (d.setBuffer k m).size = d.size := by
  cases d <;> cases k <;> rfl

@[simp] theorem Device.shape_setBuffer (d : Device) (k : Nat) (m : Memory) : (d.setBuffer k m).shape = d.shape := by
  cases d <;> cases k <;> simp [Device.setBuffer, Device.shape]

@[simp] theorem Device.size_shape (d : Device) : d.shape.size = d.size := by cases d <;> rfl

@[simp] theorem Device.length_buffers_shape (d : Device) : d.shape.buffers.length = d.buffers.length := by
  cases d <;> simp [Device.shape, Device.buffers]

@[simp] theorem Device.selected_shape (d : Device) (mb : Word) : d.shape.selected mb = d.selected mb := by
  cases d <;> simp [Device.shape, Device.selected]

theorem Device.shape_eq_ioSink (d : Device) : d.shape = .ioSink ↔ d = .ioSink := by
  cases d <;> simp [Device.shape]

/-- Replacing a buffer by a canonical one inside the storage keeps the device well-formed. -/
theorem Device.wf_setBuffer (d : Device) (k : Nat) (m : Memory) (h : d.wf = true) (hm : m.wf = true)
    (hw : m.within d.size = true) : (d.setBuffer k m).wf = true := by
  unfold Device.wf at *
  simp only [Device.buffers_setBuffer, Device.size_setBuffer, List.all_eq_true, Bool.and_eq_true] at *
  intro x hx
  rcases List.mem_or_eq_of_mem_set hx with hx | rfl
  · exact h x hx
  · exact ⟨hm, hw⟩

/-! ## Places -/

theorem Loc.next_ne (l : Loc) : l.next ≠ l := by
  intro h; have := congrArg Loc.offset h; simp [Loc.next] at this

theorem Loc.ne_next (l : Loc) : l ≠ l.next := fun h => l.next_ne h.symm

/-- Storing a byte leaves every other place alone. -/
theorem State.byteAt_setByteAt_ne (s : State) {l x : Loc} (b : Byte) (h : x ≠ l) :
    (s.setByteAt l b).byteAt x = s.byteAt x := by
  unfold State.setByteAt
  split
  next d hd =>
    split
    next m hm =>
      unfold State.byteAt State.bufferAt
      simp only [State.devices_setDevices, List.getElem?_set]
      by_cases hdev : l.device = x.device
      · have hlt : l.device < s.devices.length := (List.getElem?_eq_some_iff.mp hd).1
        rw [hdev] at hd hlt
        simp only [hdev, if_true, hlt, hd]
        simp only [Device.buffers_setBuffer, List.getElem?_set]
        by_cases hb : l.bank = x.bank
        · have hlt' : l.bank < d.buffers.length := (List.getElem?_eq_some_iff.mp hm).1
          rw [hb] at hm hlt'
          simp only [hb, if_true, hlt', hm]
          refine Memory.read_write_ne m b fun ho => h ?_
          cases l; cases x; simp_all
        · simp [hb]
      · simp [hdev]
    next => rfl
  next => rfl

/-- Storing a byte at a place inside a buffer makes it the byte there. -/
theorem State.byteAt_setByteAt_same (s : State) {l : Loc} (b : Byte) (h : (s.bufferAt l).isSome = true) :
    (s.setByteAt l b).byteAt l = b := by
  unfold State.bufferAt at h
  split at h
  next d hd =>
    obtain ⟨m, hm⟩ := Option.isSome_iff_exists.mp h
    unfold State.setByteAt
    simp only [hd, hm]
    unfold State.byteAt State.bufferAt
    have hlt : l.device < s.devices.length := (List.getElem?_eq_some_iff.mp hd).1
    have hlt' : l.bank < d.buffers.length := (List.getElem?_eq_some_iff.mp hm).1
    simp [hlt, hlt']
  next => simp at h

@[simp] theorem State.shapes_setByteAt (s : State) (l : Loc) (b : Byte) : (s.setByteAt l b).shapes = s.shapes := by
  unfold State.setByteAt
  split
  next d hd =>
    split
    next =>
      unfold State.shapes
      rw [State.devices_setDevices]
      refine List.ext_getElem? fun k => ?_
      simp only [List.getElem?_map, List.getElem?_set]
      split
      next hk =>
        subst hk
        obtain ⟨hlt, rfl⟩ := List.getElem?_eq_some_iff.mp hd
        simp [hlt]
      next => rfl
    next => rfl
  next => rfl

@[simp] theorem State.shapes_setWordAt (s : State) (l : Loc) (v : Word) : (s.setWordAt l v).shapes = s.shapes := by
  simp [State.setWordAt]

/-- Whether a place lies in a buffer depends on the devices' shapes alone. -/
theorem State.isSome_bufferAt_of_shapes {s t : State} (h : s.shapes = t.shapes) (l : Loc) :
    (s.bufferAt l).isSome = (t.bufferAt l).isSome := by
  have hk : s.shapes[l.device]? = t.shapes[l.device]? := by rw [h]
  simp only [State.shapes, List.getElem?_map] at hk
  unfold State.bufferAt
  cases hs : s.devices[l.device]? with
  | none =>
    cases ht : t.devices[l.device]? with
    | none => rfl
    | some e => simp [hs, ht] at hk
  | some d =>
    cases ht : t.devices[l.device]? with
    | none => simp [hs, ht] at hk
    | some e =>
      simp only [hs, ht, Option.map_some, Option.some.injEq] at hk
      have := congrArg (fun x => x.buffers.length) hk
      simp only [Device.length_buffers_shape] at this
      rw [Bool.eq_iff_iff]
      simp [this]

@[simp] theorem State.isSome_bufferAt_setByteAt (s : State) (l x : Loc) (b : Byte) :
    ((s.setByteAt l b).bufferAt x).isSome = (s.bufferAt x).isSome :=
  State.isSome_bufferAt_of_shapes (by simp) x

theorem State.isSome_bufferAt_next (s : State) (l : Loc) : (s.bufferAt l.next).isSome = (s.bufferAt l).isSome := rfl

/-! ## Words -/

/-- The bits of a big-endian word: the low byte below bit 8, the high byte above. -/
theorem getLsbD_joinBytes (hi lo : Byte) (i : Nat) :
    (joinBytes hi lo).getLsbD i = if i < 8 then lo.getLsbD i else hi.getLsbD (i - 8) := by
  have h := BitVec.getLsbD_append (x := hi) (y := lo) (i := i)
  rw [show (joinBytes hi lo).getLsbD i = (hi ++ lo).getLsbD i from rfl, h]

@[simp] theorem hiByte_joinBytes (hi lo : Byte) : hiByte (joinBytes hi lo) = hi := by
  apply BitVec.eq_of_getLsbD_eq
  intro i hi'
  rw [hiByte, BitVec.getLsbD_extractLsb', getLsbD_joinBytes]
  simp [hi']

@[simp] theorem loByte_joinBytes (hi lo : Byte) : loByte (joinBytes hi lo) = lo := by
  apply BitVec.eq_of_getLsbD_eq
  intro i hi'
  rw [loByte, BitVec.getLsbD_extractLsb', getLsbD_joinBytes]
  simp [hi']

@[simp] theorem joinBytes_hiByte_loByte (w : Word) : joinBytes (hiByte w) (loByte w) = w := by
  apply BitVec.eq_of_getLsbD_eq
  intro i hi'
  rw [getLsbD_joinBytes, hiByte, loByte, BitVec.getLsbD_extractLsb', BitVec.getLsbD_extractLsb']
  by_cases h : i < 8
  · simp [h]
  · have h1 : i - 8 < 8 := by omega
    have h2 : 8 + (i - 8) = i := by omega
    simp [h, h1, h2]

/-- Storing a word leaves every place but its two bytes alone. -/
theorem State.byteAt_setWordAt_ne (s : State) {l x : Loc} (v : Word) (h : x ≠ l) (h' : x ≠ l.next) :
    (s.setWordAt l v).byteAt x = s.byteAt x := by
  unfold State.setWordAt
  rw [State.byteAt_setByteAt_ne _ _ h', State.byteAt_setByteAt_ne _ _ h]

/-- Big-endian: the high byte lies at the place itself. -/
theorem State.byteAt_setWordAt_hi (s : State) {l : Loc} (v : Word) (h : (s.bufferAt l).isSome = true) :
    (s.setWordAt l v).byteAt l = hiByte v := by
  unfold State.setWordAt
  rw [State.byteAt_setByteAt_ne _ _ l.ne_next, State.byteAt_setByteAt_same _ _ h]

/-- Big-endian: the low byte lies at the next place. -/
theorem State.byteAt_setWordAt_lo (s : State) {l : Loc} (v : Word) (h : (s.bufferAt l).isSome = true) :
    (s.setWordAt l v).byteAt l.next = loByte v := by
  unfold State.setWordAt
  refine State.byteAt_setByteAt_same _ _ ?_
  rw [State.isSome_bufferAt_setByteAt]
  exact h

/-- A word read where one was just stored is that word. -/
theorem State.wordAt_setWordAt_same (s : State) {l : Loc} (v : Word) (h : (s.bufferAt l).isSome = true) :
    (s.setWordAt l v).wordAt l = v := by
  rw [State.wordAt, State.byteAt_setWordAt_hi s v h, State.byteAt_setWordAt_lo s v h, joinBytes_hiByte_loByte]

/-- A word that shares no byte with the one stored reads as before. -/
theorem State.wordAt_setWordAt_ne (s : State) {l x : Loc} (v : Word) (h : x ≠ l) (h1 : x ≠ l.next)
    (h2 : x.next ≠ l) : (s.setWordAt l v).wordAt x = s.wordAt x := by
  have h3 : x.next ≠ l.next := by
    intro he; apply h; cases x; cases l; simp_all [Loc.next]
  rw [State.wordAt, State.wordAt, State.byteAt_setWordAt_ne s v h h1, State.byteAt_setWordAt_ne s v h2 h3]

/-! ## Other objects -/

theorem State.sameObjects_of_devices {s t : State} (h : t.devices = s.devices) : s.sameObjects t := fun _ _ _ _ _ => by rw [h]

theorem State.sameObjects_trans {a b c : State} (h : a.sameObjects b) (h' : b.sameObjects c) : a.sameObjects c :=
  fun k kind size x hk => (h' k kind size x ((h k kind size x hk).trans hk)).trans (h k kind size x hk)

/-- A stored byte lies in a buffer, and an object has none. -/
theorem State.sameObjects_setByteAt (s : State) (l : Loc) (b : Byte) : s.sameObjects (s.setByteAt l b) := by
  intro k kind size x hk
  unfold State.setByteAt
  split
  next d hd =>
    split
    next m hm =>
      have hne : l.device ≠ k := by
        rintro rfl
        rw [hk] at hd
        cases hd
        simp [Device.buffers] at hm
      simp [hne]
    next => rfl
  next => rfl

theorem State.sameObjects_setWordAt (s : State) (l : Loc) (v : Word) : s.sameObjects (s.setWordAt l v) :=
  State.sameObjects_trans (s.sameObjects_setByteAt l _) (State.sameObjects_setByteAt _ _ _)

/-- What replacing an object's contents leaves: an object's contents replaced, everything else of the devices as it was. -/
theorem State.setObject_cases (s : State) (d c : Nat) :
    (∃ kind size x, s.devices[d]? = some (.object kind size x) ∧
      s.setObject d c = s.setDevices (s.devices.set d (.object kind size c))) ∨ s.setObject d c = s := by
  unfold State.setObject
  split
  next kind size x h => exact Or.inl ⟨kind, size, x, h, rfl⟩
  next => exact Or.inr rfl

@[simp] theorem State.shapes_setObject (s : State) (d c : Nat) : (s.setObject d c).shapes = s.shapes := by
  rcases s.setObject_cases d c with ⟨kind, size, x, h, he⟩ | he
  · rw [he]
    unfold State.shapes
    rw [State.devices_setDevices]
    refine List.ext_getElem? fun k => ?_
    simp only [List.getElem?_map, List.getElem?_set]
    split
    next hk =>
      subst hk
      obtain ⟨hlt, hx⟩ := List.getElem?_eq_some_iff.mp h
      simp [hlt, hx, Device.shape]
    next => rfl
  · rw [he]

@[simp] theorem State.byteAt_setObject (s : State) (d c : Nat) (l : Loc) : (s.setObject d c).byteAt l = s.byteAt l := by
  rcases s.setObject_cases d c with ⟨kind, size, x, h, he⟩ | he
  · rw [he]
    unfold State.byteAt State.bufferAt
    simp only [State.devices_setDevices, List.getElem?_set]
    by_cases hd : d = l.device
    · subst hd
      obtain ⟨hlt, hx⟩ := List.getElem?_eq_some_iff.mp h
      simp [hlt, hx, Device.buffers]
    · simp [hd]
  · rw [he]

@[simp] theorem State.wordAt_setObject (s : State) (d c : Nat) (l : Loc) : (s.setObject d c).wordAt l = s.wordAt l := by
  simp [State.wordAt]

theorem State.memoryWf_setObject (s : State) (d c : Nat) (h : s.memoryWf = true) : (s.setObject d c).memoryWf = true := by
  rcases s.setObject_cases d c with ⟨kind, size, x, _, he⟩ | he
  · rw [he]
    unfold State.memoryWf at *
    simp only [State.devices_setDevices, List.all_eq_true] at *
    intro y hy
    rcases List.mem_or_eq_of_mem_set hy with hy | rfl
    · exact h y hy
    · rfl
  · rw [he]; exact h

/-- Where the device is an object, replacing its contents changes that object alone. -/
theorem State.changesObject_setObject {s : State} {d kind size x : Nat} (c : Nat)
    (h : s.devices[d]? = some (.object kind size x)) : s.changesObject d c (s.setObject d c) := by
  obtain ⟨hlt, _⟩ := List.getElem?_eq_some_iff.mp h
  have he : s.setObject d c = s.setDevices (s.devices.set d (.object kind size c)) := by simp [State.setObject, h]
  refine ⟨?_, fun k hk => ?_, fun l => by simp⟩
  · rw [he]; simp [State.objectContents, hlt]
  · rw [he]; simp [Ne.symm hk]

/-- Storing a byte inside its device's storage keeps every buffer canonical and inside its storage. -/
theorem State.memoryWf_setByteAt (s : State) (l : Loc) (b : Byte) (h : s.memoryWf = true)
    (hl : ∀ d, s.devices[l.device]? = some d → l.offset < d.size) : (s.setByteAt l b).memoryWf = true := by
  unfold State.setByteAt
  split
  next d hd =>
    split
    next m hm =>
      unfold State.memoryWf at *
      simp only [State.devices_setDevices, List.all_eq_true] at *
      intro x hx
      rcases List.mem_or_eq_of_mem_set hx with hx | rfl
      · exact h x hx
      · have hdw := h d (List.mem_of_getElem? hd)
        have hmw : m.wf = true ∧ m.within d.size = true := by
          have := hdw
          unfold Device.wf at this
          simp only [List.all_eq_true, Bool.and_eq_true] at this
          exact this m (List.mem_of_getElem? hm)
        exact Device.wf_setBuffer _ _ _ hdw (Memory.wf_write _ _ _ hmw.1)
          (Memory.within_write _ _ _ _ hmw.2 (hl d hd))
    next => exact h
  next => exact h

/-- Loading an image keeps every buffer canonical and inside its storage (log entry 25). -/
theorem State.memoryWf_load (bs : List Byte) : ∀ (s : State) (l : Loc), s.memoryWf = true → (s.load l bs).memoryWf = true := by
  induction bs with
  | nil => intro s l h; exact h
  | cons b bs ih =>
    intro s l h
    refine ih _ _ ?_
    unfold State.loadByte
    split
    next d hd =>
      split
      next hlt => exact State.memoryWf_setByteAt s l b h fun d' hd' => by rw [hd] at hd'; cases hd'; exact hlt
      next => exact h
    next => exact h

end Sys2Proof.Machine
end

