-- ==== Sys2Proof/Laws/Access.lean ====
section
/-! SUPPORT. Sequencing, routing and the memory primitives: what each can answer, once. -/

namespace Sys2Proof.Machine

/-! ## Sequencing -/

@[simp] theorem Res.bind_ok {α β : Type} (v : α) (s : State) (k : α → State → Res β) :
    (Res.ok v s).bind k = k v s := rfl

@[simp] theorem Res.bind_fault {α β : Type} (f : Fault) (k : α → State → Res β) :
    (Res.fault f : Res α).bind k = .fault f := rfl

theorem Res.bind_eq_ok {α β : Type} {x : Res α} {k : α → State → Res β} {w : β} {t : State} :
    x.bind k = .ok w t ↔ ∃ v s, x = .ok v s ∧ k v s = .ok w t := by
  cases x <;> simp

theorem Res.bind_eq_fault {α β : Type} {x : Res α} {k : α → State → Res β} {f : Fault} :
    x.bind k = .fault f ↔ x = .fault f ∨ ∃ v s, x = .ok v s ∧ k v s = .fault f := by
  cases x <;> simp

@[simp] theorem Res.toOutcome_ok (u : Unit) (s : State) : (Res.ok u s).toOutcome = .next s := rfl

@[simp] theorem Res.toOutcome_fault (f : Fault) : (Res.fault f).toOutcome = .fault f := rfl

theorem Res.toOutcome_eq_next {x : Res Unit} {t : State} : x.toOutcome = .next t ↔ x = .ok () t := by
  cases x <;> simp

theorem Res.toOutcome_eq_fault {x : Res Unit} {f : Fault} : x.toOutcome = .fault f ↔ x = .fault f := by
  cases x <;> simp

theorem Res.toOutcome_ne_refused (x : Res Unit) (r : Refusal) : x.toOutcome ≠ .refused r := by
  cases x <;> simp

theorem State.raise_eq {α : Type} (s : State) (e : EngineError) :
    (s.raise e : Res α) = .fault (.failed e s.output) := rfl

/-! ## Routing -/

/-- What an access reaches depends on the regions, the devices' shapes and `mb` alone. -/
theorem State.access_congr {s t : State} (hr : s.regions = t.regions) (hs : s.shapes = t.shapes)
    (hm : s.reg .mb = t.reg .mb) (a n : Nat) : s.access a n = t.access a n := by
  unfold State.access State.route
  rw [hr]
  split
  · rfl
  split
  · rfl
  next r _ =>
    have hk : s.shapes[r.device]? = t.shapes[r.device]? := by rw [hs]
    simp only [State.shapes, List.getElem?_map] at hk
    unfold State.resolve
    cases h1 : s.devices[r.device]? with
    | none =>
      cases h2 : t.devices[r.device]? with
      | none => rfl
      | some e => simp [h1, h2] at hk
    | some d =>
      cases h2 : t.devices[r.device]? with
      | none => simp [h1, h2] at hk
      | some e =>
        simp only [h1, h2, Option.map_some, Option.some.injEq] at hk
        have hsel : d.selected (s.reg .mb) = e.selected (t.reg .mb) := by
          rw [← Device.selected_shape d, hk, Device.selected_shape, hm]
        have hlen : d.buffers.length = e.buffers.length := by
          rw [← Device.length_buffers_shape d, hk, Device.length_buffers_shape]
        have hsize : d.size = e.size := by rw [← Device.size_shape d, hk, Device.size_shape]
        cases d <;> cases e <;> first | cases hk; done | simp only [hsel, hlen, hsize]; done | skip
        next => simp only [Device.size] at hsize; rw [hsize]

@[simp] theorem State.access_setByteAt (s : State) (l : Loc) (b : Byte) (a n : Nat) :
    (s.setByteAt l b).access a n = s.access a n :=
  State.access_congr (by simp) (by simp) (by simp) a n

@[simp] theorem State.access_setWordAt (s : State) (l : Loc) (v : Word) (a n : Nat) :
    (s.setWordAt l v).access a n = s.access a n :=
  State.access_congr (by simp) (by simp) (by simp) a n

@[simp] theorem State.access_setObject (s : State) (d c : Nat) (a n : Nat) :
    (s.setObject d c).access a n = s.access a n :=
  State.access_congr (by simp) (by simp) (by simp) a n

theorem State.access_setReg (s : State) {r : Reg} (v : Word) (h : r ≠ .mb) (a n : Nat) :
    (s.setReg r v).access a n = s.access a n :=
  State.access_congr (by simp) (by simp) (by rw [State.reg_setReg_ne _ _ (Ne.symm h)]) a n

/-- An access that reaches storage lies inside the address space, in an existing buffer, and inside its device. -/
theorem State.access_storage {s : State} {a n : Nat} {l : Loc} (h : s.access a n = .ok (.storage l)) :
    a + n ≤ 0x10000 ∧ (s.bufferAt l).isSome = true ∧
      ∀ d, s.devices[l.device]? = some d → l.offset + n ≤ d.size := by
  unfold State.access at h
  split at h
  · cases h
  next hle =>
    refine ⟨by omega, ?_⟩
    split at h
    · cases h
    · unfold State.resolve at h
      split at h
      · cases h
      · split at h <;> cases h
      next d _ _ hd =>
        split at h
        next hc =>
          cases h
          refine ⟨?_, ?_⟩
          · simp only [State.bufferAt, hd]; simp [hc.1]
          · intro d' hd'
            simp only [hd, Option.some.injEq] at hd'
            subst hd'; exact hc.2
        · cases h
      · cases h

/-- An access fails only for the three reasons an address can give (R70). -/
theorem State.access_error {s : State} {a n : Nat} {e : EngineError} (h : s.access a n = .error e) :
    e = .addressOverflow a ∨ e = .noRegion a ∨ e = .deviceRange a := by
  unfold State.access at h
  split at h
  · cases h; simp
  split at h
  · cases h; simp
  · unfold State.resolve at h
    split at h
    · cases h
    · split at h <;> cases h; simp
    · split at h <;> cases h; simp
    · cases h; simp

/-- An access that reaches another object reaches one that exists. -/
theorem State.access_object {s : State} {a n d o : Nat} (h : s.access a n = .ok (.object d o)) :
    ∃ kind size contents, s.devices[d]? = some (.object kind size contents) := by
  unfold State.access at h
  split at h
  · cases h
  split at h
  · cases h
  · unfold State.resolve at h
    split at h
    · cases h
    next hd =>
      split at h
      · cases h; exact ⟨_, _, _, hd⟩
      · cases h
    · split at h <;> cases h
    · cases h

/-! ## The default platform -/

/-- On the default platform the shapes are those of one 64 KiB RAM, so there is one. -/
theorem State.flat_devices {s : State} (h : s.flat) : ∃ m, s.devices = [.ram 65536 m] := by
  have hs := h.2
  unfold State.shapes defaultDevices at hs
  match hd : s.devices, hs with
  | [.ram sz m], hs =>
    simp [Device.shape] at hs
    exact ⟨m, by rw [hs]⟩
  | [.bank _ _], hs => simp [Device.shape] at hs
  | [.ioSink], hs => simp [Device.shape] at hs
  | [.object _ _ _], hs => simp [Device.shape] at hs
  | [], hs => simp at hs
  | _ :: _ :: _, hs => simp at hs

theorem State.flat_of_same {s t : State} (h : s.flat) (hr : t.regions = s.regions) (hs : t.shapes = s.shapes) :
    t.flat := ⟨hr.trans h.1, hs.trans h.2⟩

/-- On the default platform an access inside the address space reaches the byte of that address (R79). -/
theorem State.access_flat {s : State} (h : s.flat) {a n : Nat} (hn : 0 < n) (ha : a + n ≤ 0x10000) :
    s.access a n = .ok (.storage (flatLoc a)) := by
  obtain ⟨m, hm⟩ := State.flat_devices h
  have hlt : ¬ a + n > 0x10000 := by omega
  have hle : a ≤ 0xFFFF := by omega
  simp [State.access, hlt, State.route, h.1, defaultRegions, Region.covers, hle, Region.localAddr, State.resolve, hm,
    Device.selected, Device.buffers, Device.size, ha, flatLoc]

/-- On the default platform an access past the address space overflows (R66, R79). -/
theorem State.access_overflow (s : State) {a n : Nat} (ha : a + n > 0x10000) :
    s.access a n = .error (.addressOverflow a) := by
  simp [State.access, ha]

/-- On the default platform every place of the one RAM lies in its buffer. -/
theorem State.isSome_bufferAt_flat {s : State} (h : s.flat) (a : Nat) : (s.bufferAt (flatLoc a)).isSome = true := by
  obtain ⟨m, hm⟩ := State.flat_devices h
  simp [State.bufferAt, hm, flatLoc, Device.buffers]

/-! ## The memory primitives -/

/-- Everything an 8-bit read can answer. -/
theorem State.memRead8_eq_ok {s t : State} {a : Nat} {v : Byte} :
    s.memRead8 a = .ok v t ↔
      (∃ l, s.access a 1 = .ok (.storage l) ∧ v = s.byteAt l ∧ t = s) ∨
      (∃ d o, s.access a 1 = .ok (.sink d o) ∧ v = Config.ioReadByte s.draws ∧ t = s.draw) ∨
      (∃ d o, s.access a 1 = .ok (.object d o) ∧ v = (s.objectGet8 d o).1 ∧ t = s.setObject d (s.objectGet8 d o).2) := by
  unfold State.memRead8
  rcases s.access a 1 with e | (l | ⟨d, o⟩ | ⟨d, o⟩) <;> simp [State.raise, eq_comm]

/-- Everything a 16-bit read can answer. -/
theorem State.memRead16_eq_ok {s t : State} {a : Nat} {v : Word} :
    s.memRead16 a = .ok v t ↔
      (∃ l, s.access a 2 = .ok (.storage l) ∧ v = s.wordAt l ∧ t = s) ∨
      (∃ d o, s.access a 2 = .ok (.sink d o) ∧ v = Config.ioReadWord s.draws ∧ t = s.draw) ∨
      (∃ d o, s.access a 2 = .ok (.object d o) ∧ v = (s.objectGet16 d o).1 ∧ t = s.setObject d (s.objectGet16 d o).2) := by
  unfold State.memRead16
  rcases s.access a 2 with e | (l | ⟨d, o⟩ | ⟨d, o⟩) <;> simp [State.raise, eq_comm]

/-- Everything a 16-bit write can answer. -/
theorem State.memWrite16_eq_ok {s t : State} {a : Nat} {v : Word} {u : Unit} :
    s.memWrite16 a v = .ok u t ↔
      (∃ l, s.access a 2 = .ok (.storage l) ∧ t = s.setWordAt l v) ∨
      (∃ d o, s.access a 2 = .ok (.sink d o) ∧ t = s.emit { device := d, offset := o, value := v }) ∨
      (∃ d o, s.access a 2 = .ok (.object d o) ∧ t = s.setObject d (s.objectSet16 d o v)) := by
  unfold State.memWrite16
  rcases s.access a 2 with e | (l | ⟨d, o⟩ | ⟨d, o⟩) <;> simp [State.raise, eq_comm]

theorem State.memRead8_eq_fault {s : State} {a : Nat} {f : Fault} :
    s.memRead8 a = .fault f ↔ ∃ e, s.access a 1 = .error e ∧ f = .failed e s.output := by
  unfold State.memRead8
  rcases s.access a 1 with e | (l | ⟨d, o⟩ | ⟨d, o⟩) <;> simp [State.raise, eq_comm]

theorem State.memRead16_eq_fault {s : State} {a : Nat} {f : Fault} :
    s.memRead16 a = .fault f ↔ ∃ e, s.access a 2 = .error e ∧ f = .failed e s.output := by
  unfold State.memRead16
  rcases s.access a 2 with e | (l | ⟨d, o⟩ | ⟨d, o⟩) <;> simp [State.raise, eq_comm]

theorem State.memWrite16_eq_fault {s : State} {a : Nat} {v : Word} {f : Fault} :
    s.memWrite16 a v = .fault f ↔ ∃ e, s.access a 2 = .error e ∧ f = .failed e s.output := by
  unfold State.memWrite16
  rcases s.access a 2 with e | (l | ⟨d, o⟩ | ⟨d, o⟩) <;> simp [State.raise, eq_comm]

theorem State.memRead8_storage {s : State} {a : Nat} {l : Loc} (h : s.access a 1 = .ok (.storage l)) :
    s.memRead8 a = .ok (s.byteAt l) s := by simp [State.memRead8, h]

theorem State.memRead16_storage {s : State} {a : Nat} {l : Loc} (h : s.access a 2 = .ok (.storage l)) :
    s.memRead16 a = .ok (s.wordAt l) s := by simp [State.memRead16, h]

theorem State.memWrite16_storage {s : State} {a : Nat} {l : Loc} (v : Word) (h : s.access a 2 = .ok (.storage l)) :
    s.memWrite16 a v = .ok () (s.setWordAt l v) := by simp [State.memWrite16, h]

/-! ## The stack primitives -/

/-- Everything a push can answer (R250). -/
theorem State.push_eq_ok {s t : State} {v : Word} {u : Unit} :
    s.push v = .ok u t ↔
      ∃ s1, s.memWrite16 (s.reg .sp).toNat v = .ok () s1 ∧
        t = (s1.setReg .sp (s1.reg .sp - 2)).setFrameSize (s1.frameSize + 2) := by
  unfold State.push
  simp only [Res.bind_eq_ok]
  constructor
  · rintro ⟨_, s1, h, h2⟩; cases h2; exact ⟨s1, h, rfl⟩
  · rintro ⟨s1, h, rfl⟩; exact ⟨(), s1, h, rfl⟩

theorem State.push_eq_fault {s : State} {v : Word} {f : Fault} :
    s.push v = .fault f ↔ ∃ e, s.access (s.reg .sp).toNat 2 = .error e ∧ f = .failed e s.output := by
  unfold State.push
  simp only [Res.bind_eq_fault, State.memWrite16_eq_fault]
  constructor
  · rintro (h | ⟨_, _, _, h⟩)
    · exact h
    · cases h
  · exact Or.inl

/-- Everything a pop can answer (R251). -/
theorem State.pop_eq_ok {s t : State} {v : Word} :
    s.pop = .ok v t ↔
      ∃ s1, (s.setReg .sp (s.reg .sp + 2)).memRead16 (s.reg .sp + 2).toNat = .ok v s1 ∧
        t = s1.setFrameSize (s1.frameSize - 2) := by
  unfold State.pop
  simp only [Res.bind_eq_ok]
  constructor
  · rintro ⟨w, s1, h, h2⟩; cases h2; exact ⟨s1, h, rfl⟩
  · rintro ⟨s1, h, rfl⟩; exact ⟨v, s1, h, rfl⟩

/-- What every pop that succeeds leaves: `sp` 2 higher, no other register, no stored byte, no routing and no output changed (R251). -/
theorem State.pop_keeps {s t : State} {v : Word} (h : s.pop = .ok v t) :
    t.reg .sp = s.reg .sp + 2 ∧ (∀ r, r ≠ .sp → t.reg r = s.reg r) ∧ (∀ a n, t.access a n = s.access a n) ∧
      (∀ l, t.wordAt l = s.wordAt l) ∧ t.output = s.output := by
  obtain ⟨s1, h1, rfl⟩ := State.pop_eq_ok.mp h
  have hacc : ∀ v a n, (s.setReg .sp v).access a n = s.access a n := fun v a n => State.access_setReg _ _ (by decide) a n
  rcases State.memRead16_eq_ok.mp h1 with ⟨_, _, _, rfl⟩ | ⟨_, _, _, _, rfl⟩ | ⟨_, _, _, _, rfl⟩ <;>
    exact ⟨by simp, fun r hr => by simp [hr], fun a n => by simp [hacc], fun l => by simp, by simp⟩

theorem State.pop_eq_fault {s : State} {f : Fault} :
    s.pop = .fault f ↔ ∃ e, s.access (s.reg .sp + 2).toNat 2 = .error e ∧ f = .failed e s.output := by
  unfold State.pop
  simp only [Res.bind_eq_fault, State.memRead16_eq_fault]
  rw [State.access_setReg _ _ (by decide)]
  constructor
  · rintro (h | ⟨_, _, _, h⟩)
    · exact h
    · cases h
  · exact Or.inl

/-- A push onto storage. -/
theorem State.push_storage {s : State} {l : Loc} (v : Word) (h : s.access (s.reg .sp).toNat 2 = .ok (.storage l)) :
    s.push v =
      .ok () (((s.setWordAt l v).setReg .sp (s.reg .sp - 2)).setFrameSize (s.frameSize + 2)) := by
  simp [State.push, State.memWrite16_storage v h]

/-- A pop from storage. -/
theorem State.pop_storage {s : State} {l : Loc} (h : s.access (s.reg .sp + 2).toNat 2 = .ok (.storage l)) :
    s.pop = .ok (s.wordAt l) ((s.setReg .sp (s.reg .sp + 2)).setFrameSize (s.frameSize - 2)) := by
  have h' : (s.setReg .sp (s.reg .sp + 2)).access (s.reg .sp + 2).toNat 2 = .ok (.storage l) := by
    rw [State.access_setReg _ _ (by decide)]; exact h
  rw [State.pop, State.memRead16_storage h']
  rfl

end Sys2Proof.Machine
end

