-- ==== Sys2Proof/Laws/Decode.lean ====
section
/-! SUPPORT. The small lemmas of the encoding: registers as bytes, rows of a well-formed table, fields and layouts read back. -/

namespace Sys2Proof

/-! ## Register bytes -/

theorem Reg.ordinal_lt (r : Reg) : r.ordinal < regCount := by cases r <;> decide

@[simp] theorem Reg.ofOrdinal_ordinal (r : Reg) : Reg.ofOrdinal r.ordinal = r := by cases r <;> rfl

theorem Reg.ordinal_ofOrdinal : ∀ {n : Nat}, n < regCount → (Reg.ofOrdinal n).ordinal = n := by decide

/-- A register byte selects the ordinal `b mod 14` (R22). -/
theorem Reg.ordinal_ofByte (b : Byte) : (Reg.ofByte b).ordinal = b.toNat % 14 :=
  Reg.ordinal_ofOrdinal (Nat.mod_lt _ (by decide))

@[simp] theorem Reg.ofByte_toByte (r : Reg) : Reg.ofByte r.toByte = r := by cases r <;> rfl

theorem Reg.ordinal_injective {r q : Reg} (h : r.ordinal = q.ordinal) : r = q := by
  rw [← Reg.ofOrdinal_ordinal r, h, Reg.ofOrdinal_ordinal]

/-! ## Rows of a table -/

theorem OpcodeMap.rowOfOp_some {t : List Row} {op : Op} {row : Row} (h : OpcodeMap.rowOfOp t op = some row) :
    row ∈ t ∧ row.op = op := by
  refine ⟨List.mem_of_find?_eq_some h, ?_⟩
  simpa using List.find?_some h

theorem OpcodeMap.rowOfByte_some {t : List Row} {b : Byte} {row : Row} (h : OpcodeMap.rowOfByte t b = some row) :
    row ∈ t ∧ row.opcode = b := by
  refine ⟨List.mem_of_find?_eq_some h, ?_⟩
  simpa using List.find?_some h

/-- A table with a row for the pair gives one. -/
theorem OpcodeMap.exists_rowOfOp {t : List Row} {i : Instr} (h : i.wf t = true) :
    ∃ row, OpcodeMap.rowOfOp t i.op = some row := by
  unfold Instr.wf at h
  obtain ⟨row, hm, ho⟩ := List.any_eq_true.mp h
  exact Option.isSome_iff_exists.mp (List.find?_isSome.mpr ⟨row, hm, ho⟩)

theorem OpcodeMap.rowOfByte_mem {t : List Row} (h : (t.map Row.opcode).Nodup) {row : Row} (hm : row ∈ t) :
    OpcodeMap.rowOfByte t row.opcode = some row := by
  induction t with
  | nil => cases hm
  | cons r rs ih =>
    rw [List.map_cons, List.nodup_cons] at h
    unfold OpcodeMap.rowOfByte
    rw [List.find?_cons]
    rcases List.mem_cons.mp hm with rfl | hm
    · simp
    · have hne : (r.opcode == row.opcode) = false := by
        rw [beq_eq_false_iff_ne]
        intro he
        exact h.1 (he ▸ List.mem_map_of_mem hm)
      rw [hne]
      exact ih h.2 hm

/-- Under a table with distinct opcodes, the opcode of a pair's row selects that row (R101 a). -/
theorem OpcodeMap.rowOfByte_rowOfOp {t : List Row} (h : OpcodeMap.wf t = true) {op : Op} {row : Row}
    (hr : OpcodeMap.rowOfOp t op = some row) : OpcodeMap.rowOfByte t row.opcode = some row := by
  unfold OpcodeMap.wf OpcodeMap.opcodesDistinct at h
  simp only [Bool.and_eq_true, decide_eq_true_eq] at h
  exact OpcodeMap.rowOfByte_mem h.1.1 (OpcodeMap.rowOfOp_some hr).1

/-- A table row's size is its mode's (R101 c). -/
theorem OpcodeMap.size_of_wf {t : List Row} (h : OpcodeMap.wf t = true) {row : Row} (hm : row ∈ t) :
    row.size = row.op.mode.size := by
  unfold OpcodeMap.wf OpcodeMap.sizesMatch at h
  simp only [Bool.and_eq_true, List.all_eq_true, beq_iff_eq] at h
  exact h.2 row hm

/-! ## Fields and layouts -/

/-- The bytes of a mode's fields and its opcode byte make its size (R103). -/
theorem Mode.size_eq_layout (m : Mode) : m.size = 1 + (m.layout.map Field.width).sum := by
  cases m <;> rfl

theorem Field.length_encode (f : Field) (o : Operands) : (f.encode o).length = f.width := by
  cases f <;> rfl

theorem length_encodeFields (fs : List Field) (o : Operands) :
    (encodeFields fs o).length = (fs.map Field.width).sum := by
  induction fs with
  | nil => rfl
  | cons f fs ih =>
    rw [encodeFields, List.flatMap_cons, List.length_append, Field.length_encode, List.map_cons, List.sum_cons]
    exact congrArg _ ih

/-- The operand values with one field taken from other operand values. -/
def Operands.copyField (f : Field) (o src : Operands) : Operands :=
  match f with
  | .imm => { o with imm := src.imm }
  | .addr => { o with addr := src.addr }
  | .regA => { o with regA := src.regA }
  | .regB => { o with regB := src.regB }
  | .imm8 => { o with imm8 := src.imm8 }

/-- Reading a field back gives the value it was written from. -/
theorem Field.decode_encode (f : Field) (src o : Operands) (rest : List Byte) :
    f.decode (f.encode src ++ rest) o = some (Operands.copyField f o src, rest) := by
  cases f <;> simp [Field.decode, Field.encode, Operands.copyField]

/-- Reading the fields of a layout back gives the values they were written from. -/
theorem decodeFields_encodeFields (fs : List Field) (src : Operands) (rest : List Byte) :
    ∀ o : Operands, decodeFields fs (encodeFields fs src ++ rest) o =
      some (fs.foldl (fun o f => Operands.copyField f o src) o, rest) := by
  induction fs with
  | nil => intro o; rfl
  | cons f fs ih =>
    intro o
    have he : encodeFields (f :: fs) src ++ rest = f.encode src ++ (encodeFields fs src ++ rest) := by
      simp [encodeFields]
    rw [he, decodeFields, Field.decode_encode]
    exact ih _

/-- An instruction's operand values are what its mode's layout carries. -/
theorem Instr.copy_operands (i : Instr) :
    i.op.mode.layout.foldl (fun o f => Operands.copyField f o i.operands) {} = i.operands := by
  cases i <;> rfl

@[simp] theorem Instr.ofOp_operands (i : Instr) : Instr.ofOp i.op i.operands = i := by
  cases i <;> rfl

@[simp] theorem Instr.op_ofOp (op : Op) (o : Operands) : (Instr.ofOp op o).op = op := by
  cases op <;> rfl

/-- The fields of a layout take as many bytes as they are wide. -/
theorem Field.length_decode {f : Field} {bytes rest : List Byte} {o o' : Operands}
    (h : f.decode bytes o = some (o', rest)) : bytes.length = f.width + rest.length := by
  unfold Field.decode at h
  split at h
  · cases h; simp only [Field.width, List.length_cons]; omega
  · cases h; simp only [Field.width, List.length_cons]; omega
  · cases h; simp only [Field.width, List.length_cons]; omega
  · cases h; simp only [Field.width, List.length_cons]; omega
  · cases h; simp only [Field.width, List.length_cons]; omega
  · cases h

theorem length_decodeFields (fs : List Field) {rest : List Byte} {o' : Operands} :
    ∀ {bytes : List Byte} {o : Operands}, decodeFields fs bytes o = some (o', rest) →
      bytes.length = (fs.map Field.width).sum + rest.length := by
  induction fs with
  | nil => intro bytes o h; cases h; simp
  | cons f fs ih =>
    intro bytes o h
    rw [decodeFields] at h
    split at h
    next o1 mid h1 =>
      have := Field.length_decode h1
      have := ih h
      simp only [List.map_cons, List.sum_cons]
      omega
    · cases h

end Sys2Proof
end

