-- ==== Sys2Proof/Laws/Frame.lean ====
section
/-! SUPPORT. What every operation leaves alone: the relations between the state before and after, proved once per shared operation and
carried through sequencing. -/

namespace Sys2Proof.Machine

/-! ## Relations between before and after -/

/-- The relation `R` holds between `s` and the state after `x`, if `x` succeeds. -/
def Res.Post {α : Type} (R : State → State → Prop) (s : State) (x : Res α) : Prop := ∀ v t, x = .ok v t → R s t

theorem Res.Post.bind {α β : Type} {R : State → State → Prop} (htrans : ∀ a b c, R a b → R b c → R a c)
    {s : State} {x : Res α} {k : α → State → Res β} (hx : Res.Post R s x)
    (hk : ∀ v t, x = .ok v t → Res.Post R t (k v t)) : Res.Post R s (x.bind k) := by
  intro w u h
  obtain ⟨v, t, h1, h2⟩ := Res.bind_eq_ok.mp h
  exact htrans _ _ _ (hx v t h1) (hk v t h1 w u h2)

theorem Res.Post.ok {α : Type} {R : State → State → Prop} {s t : State} {v : α} (h : R s t) :
    Res.Post R s (.ok v t) := by
  intro w u he; cases he; exact h

/-- What every operation of an instruction but `HLT` keeps. -/
structure State.Evolves (s t : State) : Prop where
  platform : s.samePlatform t
  runState : t.runState = s.runState
  memoryWf : s.memoryWf = true → t.memoryWf = true
  output : s.output <+: t.output

theorem State.samePlatform_refl (s : State) : s.samePlatform s := ⟨rfl, rfl, rfl, rfl⟩

theorem State.samePlatform_trans {a b c : State} (h : a.samePlatform b) (h' : b.samePlatform c) :
    a.samePlatform c :=
  ⟨h'.1.trans h.1, h'.2.1.trans h.2.1, h'.2.2.1.trans h.2.2.1, h'.2.2.2.trans h.2.2.2⟩

/-- A failed engine stands on the platform it stood on (R169 leaves only the contents open). -/
theorem State.samePlatform_fail (s : State) (e : EngineError) (output : List OutputEvent) : s.samePlatform (s.fail e output) := by
  refine ⟨rfl, rfl, rfl, List.ext_getElem? fun k => ?_⟩
  simp only [State.shapes, State.fail, List.getElem?_map, List.getElem?_mapIdx]
  cases s.devices[k]? with
  | none => rfl
  | some d => cases d <;> simp [Device.forget, Device.shape]

theorem State.Evolves.refl (s : State) : s.Evolves s := ⟨s.samePlatform_refl, rfl, id, List.prefix_rfl⟩

theorem State.Evolves.trans {a b c : State} (h : a.Evolves b) (h' : b.Evolves c) : a.Evolves c :=
  ⟨State.samePlatform_trans h.platform h'.platform, h'.runState.trans h.runState,
    fun w => h'.memoryWf (h.memoryWf w), h.output.trans h'.output⟩

theorem State.Evolves.setReg (s : State) (r : Reg) (v : Word) : s.Evolves (s.setReg r v) :=
  ⟨⟨rfl, rfl, rfl, rfl⟩, rfl, id, List.prefix_rfl⟩

theorem State.Evolves.setFrameSize (s : State) (v : Word) : s.Evolves (s.setFrameSize v) :=
  ⟨⟨rfl, rfl, rfl, rfl⟩, rfl, id, List.prefix_rfl⟩

theorem State.Evolves.setHandler (s : State) (b : Bool) : s.Evolves (s.setHandler b) :=
  ⟨⟨rfl, rfl, rfl, rfl⟩, rfl, id, List.prefix_rfl⟩

theorem State.Evolves.draw (s : State) : s.Evolves s.draw :=
  ⟨⟨rfl, rfl, rfl, rfl⟩, rfl, id, List.prefix_rfl⟩

theorem State.Evolves.emit (s : State) (e : OutputEvent) : s.Evolves (s.emit e) :=
  ⟨⟨rfl, rfl, rfl, rfl⟩, rfl, id, List.prefix_append _ _⟩

/-- A word stored where a two-byte access reached storage. -/
theorem State.Evolves.setWordAt {s : State} {a : Nat} {l : Loc} (v : Word)
    (h : s.access a 2 = .ok (.storage l)) : s.Evolves (s.setWordAt l v) := by
  refine ⟨⟨by simp, by simp, by simp, by simp⟩, by simp, ?_, by simp⟩
  intro hw
  obtain ⟨_, _, hsize⟩ := State.access_storage h
  have h1 : (s.setByteAt l (hiByte v)).memoryWf = true :=
    State.memoryWf_setByteAt _ _ _ hw fun d hd => by have := hsize d hd; omega
  refine State.memoryWf_setByteAt _ _ _ h1 fun d hd => ?_
  have hsh : (s.setByteAt l (hiByte v)).shapes[l.device]? = s.shapes[l.device]? := by simp
  simp only [State.shapes, List.getElem?_map] at hsh
  have hd' : (s.setByteAt l (hiByte v)).devices[l.device]? = some d := hd
  rw [hd'] at hsh
  cases hs : s.devices[l.device]? with
  | none => simp [hs] at hsh
  | some d0 =>
    simp only [hs, Option.map_some, Option.some.injEq] at hsh
    have h2 := hsize d0 hs
    have h3 : d.size = d0.size := by rw [← Device.size_shape d, hsh, Device.size_shape]
    show l.offset + 1 < d.size
    omega

theorem State.Evolves.setObject (s : State) (d c : Nat) : s.Evolves (s.setObject d c) :=
  ⟨⟨by simp, by simp, by simp, by simp⟩, by simp, State.memoryWf_setObject s d c, by simp⟩

/-! ## Every operation evolves the state, or raises an access fault that keeps the output -/

/-- `e` is what an access of some state on the same platform answers, so one of the three errors an address can raise (R70). -/
def State.RaisesAccess (s : State) (e : EngineError) : Prop :=
  ∃ t a n, 0 < n ∧ s.samePlatform t ∧ t.access a n = .error e

/-- `x` evolves the state, or raises an access error that keeps the output emitted so far. -/
structure Res.Tame {α : Type} (s : State) (x : Res α) : Prop where
  ok : Res.Post State.Evolves s x
  fault : ∀ f, x = .fault f → ∃ e output, f = .failed e output ∧ s.RaisesAccess e ∧ s.output <+: output

theorem State.RaisesAccess.of_samePlatform {s t : State} {e : EngineError} (h : t.RaisesAccess e)
    (hp : s.samePlatform t) : s.RaisesAccess e := by
  obtain ⟨u, a, n, hn, hu, he⟩ := h
  exact ⟨u, a, n, hn, State.samePlatform_trans hp hu, he⟩

/-- An access error is one of three. -/
theorem State.RaisesAccess.kind {s : State} {e : EngineError} (h : s.RaisesAccess e) :
    ∃ a, e = .noRegion a ∨ e = .addressOverflow a ∨ e = .deviceRange a := by
  obtain ⟨_, a, _, _, _, he⟩ := h
  rcases State.access_error he with rfl | rfl | rfl <;> exact ⟨a, by simp⟩

/-- On the default platform an access error is an overflow (R79). -/
theorem State.RaisesAccess.flat {s : State} {e : EngineError} (h : s.RaisesAccess e) (hf : s.flat) :
    ∃ a, e = .addressOverflow a := by
  obtain ⟨t, a, n, hn, hp, he⟩ := h
  have ht : t.flat := State.flat_of_same hf hp.2.1 hp.2.2.2
  refine ⟨a, ?_⟩
  by_cases hl : a + n ≤ 0x10000
  · rw [State.access_flat ht hn hl] at he; cases he
  · rw [State.access_overflow t (by omega)] at he; cases he; rfl

theorem Res.Tame.bind {α β : Type} {s : State} {x : Res α} {k : α → State → Res β} (hx : Res.Tame s x)
    (hk : ∀ v t, x = .ok v t → Res.Tame t (k v t)) : Res.Tame s (x.bind k) := by
  refine ⟨Res.Post.bind (R := State.Evolves) (fun _ _ _ => State.Evolves.trans) hx.ok fun v t h => (hk v t h).ok, fun f h => ?_⟩
  rcases Res.bind_eq_fault.mp h with h | ⟨v, t, h1, h2⟩
  · exact hx.fault f h
  · obtain ⟨e, out, he, ha, hp⟩ := (hk v t h1).fault f h2
    exact ⟨e, out, he, ha.of_samePlatform (hx.ok v t h1).platform, (hx.ok v t h1).output.trans hp⟩

theorem Res.Tame.ok' {α : Type} {s t : State} {v : α} (h : s.Evolves t) : Res.Tame s (.ok v t) :=
  ⟨Res.Post.ok h, fun _ hf => by cases hf⟩

theorem Res.Tame.from {α : Type} {s t : State} {x : Res α} (h : s.Evolves t) (hx : Res.Tame t x) : Res.Tame s x :=
  Res.Tame.bind (x := .ok () t) (k := fun _ _ => x) (Res.Tame.ok' h) fun _ u hu => by cases hu; exact hx

theorem State.raisesAccess {s : State} {a n : Nat} {e : EngineError} (hn : 0 < n) (h : s.access a n = .error e) :
    s.RaisesAccess e := ⟨s, a, n, hn, s.samePlatform_refl, h⟩

theorem State.memRead8_tame (s : State) (a : Nat) : Res.Tame s (s.memRead8 a) := by
  refine ⟨fun v t h => ?_, fun f h => ?_⟩
  · rcases State.memRead8_eq_ok.mp h with ⟨_, _, _, rfl⟩ | ⟨_, _, _, _, rfl⟩ | ⟨_, _, _, _, rfl⟩
    · exact State.Evolves.refl _
    · exact State.Evolves.draw _
    · exact State.Evolves.setObject _ _ _
  · obtain ⟨e, he, rfl⟩ := State.memRead8_eq_fault.mp h
    exact ⟨e, _, rfl, State.raisesAccess (by decide) he, List.prefix_rfl⟩

theorem State.memRead16_tame (s : State) (a : Nat) : Res.Tame s (s.memRead16 a) := by
  refine ⟨fun v t h => ?_, fun f h => ?_⟩
  · rcases State.memRead16_eq_ok.mp h with ⟨_, _, _, rfl⟩ | ⟨_, _, _, _, rfl⟩ | ⟨_, _, _, _, rfl⟩
    · exact State.Evolves.refl _
    · exact State.Evolves.draw _
    · exact State.Evolves.setObject _ _ _
  · obtain ⟨e, he, rfl⟩ := State.memRead16_eq_fault.mp h
    exact ⟨e, _, rfl, State.raisesAccess (by decide) he, List.prefix_rfl⟩

theorem State.memWrite16_tame (s : State) (a : Nat) (v : Word) : Res.Tame s (s.memWrite16 a v) := by
  refine ⟨fun u t h => ?_, fun f h => ?_⟩
  · rcases State.memWrite16_eq_ok.mp h with ⟨l, hl, rfl⟩ | ⟨_, _, _, rfl⟩ | ⟨_, _, _, rfl⟩
    · exact State.Evolves.setWordAt v hl
    · exact State.Evolves.emit _ _
    · exact State.Evolves.setObject _ _ _
  · obtain ⟨e, he, rfl⟩ := State.memWrite16_eq_fault.mp h
    exact ⟨e, _, rfl, State.raisesAccess (by decide) he, List.prefix_rfl⟩

theorem State.push_tame (s : State) (v : Word) : Res.Tame s (s.push v) :=
  Res.Tame.bind (s.memWrite16_tame _ v) fun _ t _ =>
    Res.Tame.ok' ((State.Evolves.setReg t _ _).trans (State.Evolves.setFrameSize _ _))

theorem State.pop_tame (s : State) : Res.Tame s s.pop :=
  Res.Tame.from (State.Evolves.setReg s .sp _) <|
    Res.Tame.bind (State.memRead16_tame _ _) fun _ _ _ => Res.Tame.ok' (State.Evolves.setFrameSize _ _)

theorem State.pushAll_tame (vs : List Word) : ∀ s : State, Res.Tame s (s.pushAll vs) := by
  induction vs with
  | nil => intro s; exact Res.Tame.ok' (State.Evolves.refl s)
  | cons v vs ih => intro s; exact Res.Tame.bind (s.push_tame v) fun _ t _ => ih t

theorem State.popInto_tame (rs : List Reg) : ∀ s : State, Res.Tame s (s.popInto rs) := by
  induction rs with
  | nil => intro s; exact Res.Tame.ok' (State.Evolves.refl s)
  | cons r rs ih =>
    intro s
    exact Res.Tame.bind s.pop_tame fun v t _ => Res.Tame.from (State.Evolves.setReg t r v) (ih _)

theorem State.discard_tame (n : Nat) : ∀ s : State, Res.Tame s (s.discard n) := by
  induction n with
  | zero => intro s; exact Res.Tame.ok' (State.Evolves.refl s)
  | succ n ih => intro s; exact Res.Tame.bind s.pop_tame fun _ t _ => ih t

theorem State.pushState_tame (s : State) : Res.Tame s s.pushState :=
  Res.Tame.bind (State.pushAll_tame _ s) fun _ s1 _ =>
    Res.Tame.bind (s1.push_tame _) fun _ s2 _ =>
      Res.Tame.ok' ((State.Evolves.setReg s2 _ _).trans (State.Evolves.setFrameSize _ _))

theorem State.popState_tame (s : State) : Res.Tame s s.popState :=
  Res.Tame.from (State.Evolves.setReg s .sp _) <|
    Res.Tame.bind (State.pop_tame _) fun fs s1 _ =>
      Res.Tame.bind (Res.Tame.from (State.Evolves.setFrameSize s1 fs) (State.popInto_tame _ _)) fun _ s2 _ =>
        Res.Tame.bind s2.pop_tame fun _ s3 _ =>
          Res.Tame.bind (State.discard_tame _ s3) fun _ s4 _ => Res.Tame.ok' (State.Evolves.setReg s4 _ _)

theorem State.saveForInterrupt_tame (s : State) : Res.Tame s s.saveForInterrupt := by
  unfold State.saveForInterrupt
  split
  · exact Res.Tame.ok' (State.Evolves.refl s)
  · exact Res.Tame.bind (s.push_tame _) fun _ t _ => t.pushState_tame

theorem State.requestInterrupt_tame (s : State) (v : Word) : Res.Tame s (s.requestInterrupt v) := by
  unfold State.requestInterrupt
  split
  · exact Res.Tame.bind s.saveForInterrupt_tame fun _ s1 _ =>
      Res.Tame.from (State.Evolves.setHandler s1 true) <|
        Res.Tame.bind (State.memRead16_tame _ _) fun _ s2 _ => Res.Tame.ok' (State.Evolves.setReg s2 _ _)
  · exact Res.Tame.ok' (State.Evolves.refl s)

theorem State.returnFromInterrupt_tame (s : State) : Res.Tame s s.returnFromInterrupt :=
  Res.Tame.from (State.Evolves.setHandler s false) (State.popState_tame _)

/-! ## Which registers an operation writes -/

theorem State.sameRegsBut_refl (rs : List Reg) (s : State) : s.sameRegsBut rs s := fun _ _ => rfl

theorem State.sameRegsBut_trans {rs : List Reg} {a b c : State} (h : a.sameRegsBut rs b) (h' : b.sameRegsBut rs c) :
    a.sameRegsBut rs c := fun r hr => (h' r hr).trans (h r hr)

theorem State.sameRegsBut_mono {rs qs : List Reg} {s t : State} (h : s.sameRegsBut rs t) (hsub : ∀ r ∈ rs, r ∈ qs) :
    s.sameRegsBut qs t := fun r hr => h r fun hm => hr (hsub r hm)

theorem State.sameRegsBut_setReg {rs : List Reg} {s : State} {r : Reg} (v : Word) (h : r ∈ rs) :
    s.sameRegsBut rs (s.setReg r v) := fun _ hq => State.reg_setReg_ne s v fun he => hq (he ▸ h)

/-- Sequencing operations that write only the named registers. -/
theorem Res.Post.bindRegs {α β : Type} {rs : List Reg} {s : State} {x : Res α} {k : α → State → Res β}
    (hx : Res.Post (State.sameRegsBut rs) s x)
    (hk : ∀ v t, x = .ok v t → Res.Post (State.sameRegsBut rs) t (k v t)) :
    Res.Post (State.sameRegsBut rs) s (x.bind k) :=
  Res.Post.bind (R := State.sameRegsBut rs) (fun _ _ _ => State.sameRegsBut_trans) hx hk

theorem Res.Post.fromRegs {α : Type} {rs : List Reg} {s t : State} {x : Res α} (h : s.sameRegsBut rs t)
    (hx : Res.Post (State.sameRegsBut rs) t x) : Res.Post (State.sameRegsBut rs) s x :=
  fun v u hu => State.sameRegsBut_trans h (hx v u hu)

theorem State.memRead8_regs (rs : List Reg) (s : State) (a : Nat) :
    Res.Post (State.sameRegsBut rs) s (s.memRead8 a) := by
  intro v t h
  rcases State.memRead8_eq_ok.mp h with ⟨_, _, _, rfl⟩ | ⟨_, _, _, _, rfl⟩ | ⟨_, _, _, _, rfl⟩ <;> exact fun _ _ => by simp

theorem State.memRead16_regs (rs : List Reg) (s : State) (a : Nat) :
    Res.Post (State.sameRegsBut rs) s (s.memRead16 a) := by
  intro v t h
  rcases State.memRead16_eq_ok.mp h with ⟨_, _, _, rfl⟩ | ⟨_, _, _, _, rfl⟩ | ⟨_, _, _, _, rfl⟩ <;> exact fun _ _ => by simp

theorem State.memWrite16_regs (rs : List Reg) (s : State) (a : Nat) (v : Word) :
    Res.Post (State.sameRegsBut rs) s (s.memWrite16 a v) := by
  intro u t h
  rcases State.memWrite16_eq_ok.mp h with ⟨_, _, rfl⟩ | ⟨_, _, _, rfl⟩ | ⟨_, _, _, rfl⟩ <;> exact fun _ _ => by simp

theorem State.push_regs {rs : List Reg} (hsp : Reg.sp ∈ rs) (s : State) (v : Word) :
    Res.Post (State.sameRegsBut rs) s (s.push v) :=
  Res.Post.bindRegs (State.memWrite16_regs rs s _ v) fun _ _ _ =>
    Res.Post.ok (State.sameRegsBut_setReg _ hsp)

theorem State.pop_regs {rs : List Reg} (hsp : Reg.sp ∈ rs) (s : State) :
    Res.Post (State.sameRegsBut rs) s s.pop :=
  Res.Post.fromRegs (State.sameRegsBut_setReg _ hsp) <|
    Res.Post.bindRegs (State.memRead16_regs rs _ _) fun _ _ _ => Res.Post.ok fun _ _ => rfl

theorem State.pushAll_regs {rs : List Reg} (hsp : Reg.sp ∈ rs) (vs : List Word) :
    ∀ s : State, Res.Post (State.sameRegsBut rs) s (s.pushAll vs) := by
  induction vs with
  | nil => intro s; exact Res.Post.ok (State.sameRegsBut_refl rs s)
  | cons v vs ih => intro s; exact Res.Post.bindRegs (State.push_regs hsp s v) fun _ t _ => ih t

theorem State.popInto_regs {rs : List Reg} (hsp : Reg.sp ∈ rs) (qs : List Reg) (hq : ∀ q ∈ qs, q ∈ rs) :
    ∀ s : State, Res.Post (State.sameRegsBut rs) s (s.popInto qs) := by
  induction qs with
  | nil => intro s; exact Res.Post.ok (State.sameRegsBut_refl rs s)
  | cons _ _ ih =>
    intro s
    exact Res.Post.bindRegs (State.pop_regs hsp s) fun v t _ =>
      Res.Post.fromRegs (State.sameRegsBut_setReg v (hq _ List.mem_cons_self))
        (ih (fun x hx => hq x (List.mem_cons_of_mem _ hx)) _)

theorem State.discard_regs {rs : List Reg} (hsp : Reg.sp ∈ rs) (n : Nat) :
    ∀ s : State, Res.Post (State.sameRegsBut rs) s (s.discard n) := by
  induction n with
  | zero => intro s; exact Res.Post.ok (State.sameRegsBut_refl rs s)
  | succ n ih => intro s; exact Res.Post.bindRegs (State.pop_regs hsp s) fun _ t _ => ih t

theorem State.pushState_regs {rs : List Reg} (hsp : Reg.sp ∈ rs) (hfp : Reg.fp ∈ rs) (s : State) :
    Res.Post (State.sameRegsBut rs) s s.pushState :=
  Res.Post.bindRegs (State.pushAll_regs hsp _ s) fun _ s1 _ =>
    Res.Post.bindRegs (State.push_regs hsp s1 _) fun _ _ _ =>
      Res.Post.ok (State.sameRegsBut_setReg _ hfp)

theorem State.popState_regs {rs : List Reg} (hsp : Reg.sp ∈ rs) (hfp : Reg.fp ∈ rs)
    (hsaved : ∀ q ∈ savedRegs.reverse, q ∈ rs) (s : State) :
    Res.Post (State.sameRegsBut rs) s s.popState :=
  Res.Post.fromRegs (State.sameRegsBut_setReg _ hsp) <|
    Res.Post.bindRegs (State.pop_regs hsp _) fun _ _ _ =>
      Res.Post.bindRegs (State.popInto_regs hsp _ hsaved _) fun _ s2 _ =>
        Res.Post.bindRegs (State.pop_regs hsp s2) fun _ s3 _ =>
          Res.Post.bindRegs (State.discard_regs hsp _ s3) fun _ _ _ =>
            Res.Post.ok (State.sameRegsBut_setReg _ hfp)

theorem State.requestInterrupt_regs {rs : List Reg} (hsp : Reg.sp ∈ rs) (hfp : Reg.fp ∈ rs) (hpc : Reg.pc ∈ rs)
    (s : State) (v : Word) : Res.Post (State.sameRegsBut rs) s (s.requestInterrupt v) := by
  unfold State.requestInterrupt
  split
  · refine Res.Post.bindRegs ?_ fun _ s1 _ => ?_
    · unfold State.saveForInterrupt
      split
      · exact Res.Post.ok (State.sameRegsBut_refl rs s)
      · exact Res.Post.bindRegs (State.push_regs hsp s _) fun _ t _ => State.pushState_regs hsp hfp t
    · exact Res.Post.bindRegs (State.memRead16_regs rs (s1.setHandler true) _) fun _ _ _ =>
        Res.Post.ok (State.sameRegsBut_setReg _ hpc)
  · exact Res.Post.ok (State.sameRegsBut_refl rs s)

/-! ## The in-handler flag -/

/-- `H` is unchanged. -/
def State.sameHandler (s t : State) : Prop := t.inHandler = s.inHandler

theorem State.sameHandler_trans (a b c : State) (h : a.sameHandler b) (h' : b.sameHandler c) : a.sameHandler c :=
  Eq.trans h' h

theorem State.memRead16_handler (s : State) (a : Nat) : Res.Post State.sameHandler s (s.memRead16 a) := by
  intro v t h
  rcases State.memRead16_eq_ok.mp h with ⟨_, _, _, rfl⟩ | ⟨_, _, _, _, rfl⟩ | ⟨_, _, _, _, rfl⟩ <;> simp [State.sameHandler]

theorem State.memWrite16_handler (s : State) (a : Nat) (v : Word) :
    Res.Post State.sameHandler s (s.memWrite16 a v) := by
  intro u t h
  rcases State.memWrite16_eq_ok.mp h with ⟨_, _, rfl⟩ | ⟨_, _, _, rfl⟩ | ⟨_, _, _, rfl⟩ <;> simp [State.sameHandler]

theorem State.push_handler (s : State) (v : Word) : Res.Post State.sameHandler s (s.push v) :=
  Res.Post.bind State.sameHandler_trans (State.memWrite16_handler s _ v) fun _ _ _ => Res.Post.ok rfl

theorem State.pop_handler (s : State) : Res.Post State.sameHandler s s.pop :=
  Res.Post.bind (s := s) State.sameHandler_trans
    (fun v t h => State.memRead16_handler (s.setReg .sp (s.reg .sp + 2)) _ v t h) fun _ _ _ => Res.Post.ok rfl

theorem State.pushAll_handler (vs : List Word) : ∀ s : State, Res.Post State.sameHandler s (s.pushAll vs) := by
  induction vs with
  | nil => intro s; exact Res.Post.ok rfl
  | cons v vs ih => intro s; exact Res.Post.bind State.sameHandler_trans (s.push_handler v) fun _ t _ => ih t

theorem State.popInto_handler (rs : List Reg) : ∀ s : State, Res.Post State.sameHandler s (s.popInto rs) := by
  induction rs with
  | nil => intro s; exact Res.Post.ok rfl
  | cons r rs ih =>
    intro s
    exact Res.Post.bind State.sameHandler_trans s.pop_handler fun v t _ => fun w u h => ih (t.setReg r v) w u h

theorem State.discard_handler (n : Nat) : ∀ s : State, Res.Post State.sameHandler s (s.discard n) := by
  induction n with
  | zero => intro s; exact Res.Post.ok rfl
  | succ n ih => intro s; exact Res.Post.bind State.sameHandler_trans s.pop_handler fun _ t _ => ih t

theorem State.pushState_handler (s : State) : Res.Post State.sameHandler s s.pushState :=
  Res.Post.bind State.sameHandler_trans (State.pushAll_handler _ s) fun _ s1 _ =>
    Res.Post.bind State.sameHandler_trans (s1.push_handler _) fun _ _ _ => Res.Post.ok rfl

theorem State.popState_handler (s : State) : Res.Post State.sameHandler s s.popState :=
  Res.Post.bind (s := s) State.sameHandler_trans
    (fun v t h => State.pop_handler (s.setReg .sp (s.reg .fp)) v t h) fun fs s1 _ =>
    Res.Post.bind (s := s1) State.sameHandler_trans
      (fun v t h => State.popInto_handler savedRegs.reverse (s1.setFrameSize fs) v t h) fun _ s2 _ =>
      Res.Post.bind State.sameHandler_trans s2.pop_handler fun _ s3 _ =>
        Res.Post.bind State.sameHandler_trans (State.discard_handler _ s3) fun _ _ _ => Res.Post.ok rfl

end Sys2Proof.Machine
end

