-- ==== Sys2Proof/Laws/Stack.lean ====
section
/-! SUPPORT. The stack on the default platform: what a run of pushes leaves, and what pops and discards answer, said once. -/

namespace Sys2Proof.Machine

/-! ## Small facts about words -/

theorem toNat_le_of_ne_top {a : Word} (h : a ≠ 0xFFFF) : a.toNat + 2 ≤ 0x10000 := by
  have h1 : a.toNat < 65536 := a.isLt
  have h2 : a.toNat ≠ 65535 := fun he => h (BitVec.eq_of_toNat_eq he)
  omega

theorem toNat_add_overflow {a : Word} (h : a = 0xFFFF) : a.toNat + 2 > 0x10000 := by
  subst h; decide

theorem ofNat_succ_word (n : Nat) : BitVec.ofNat 16 (n + 1) = BitVec.ofNat 16 n + (1 : Word) := BitVec.ofNat_add n 1

@[simp] theorem State.setReg_self (s : State) (r : Reg) : s.setReg r (s.reg r) = s := by
  cases r <;> rfl

@[simp] theorem State.setFrameSize_self (s : State) : s.setFrameSize s.frameSize = s := rfl

/-! ## The default platform is kept -/

theorem State.flat_setReg {s : State} (h : s.flat) (r : Reg) (v : Word) : (s.setReg r v).flat := h

theorem State.flat_setFrameSize {s : State} (h : s.flat) (v : Word) : (s.setFrameSize v).flat := h

theorem State.flat_setHandler {s : State} (h : s.flat) (b : Bool) : (s.setHandler b).flat := h

theorem State.flat_setWordAt {s : State} (h : s.flat) (l : Loc) (v : Word) : (s.setWordAt l v).flat :=
  State.flat_of_same h (by simp) (by simp)

theorem State.Evolves.flat {s t : State} (h : s.Evolves t) (hf : s.flat) : t.flat :=
  State.flat_of_same hf h.platform.2.1 h.platform.2.2.2

@[simp] theorem State.flatWord_setReg (s : State) (r : Reg) (v a : Word) : (s.setReg r v).flatWord a = s.flatWord a := rfl

@[simp] theorem State.flatWord_setFrameSize (s : State) (v a : Word) : (s.setFrameSize v).flatWord a = s.flatWord a := rfl

@[simp] theorem State.flatWord_setHandler (s : State) (b : Bool) (a : Word) :
    (s.setHandler b).flatWord a = s.flatWord a := rfl

/-! ## One push, one pop -/

/-- A push on the default platform (R250). -/
theorem State.push_flat {s : State} (h : s.flat) (v : Word) (hsp : s.reg .sp ≠ 0xFFFF) :
    s.push v =
      .ok () (((s.setWordAt (flatLoc (s.reg .sp).toNat) v).setReg .sp (s.reg .sp - 2)).setFrameSize (s.frameSize + 2)) :=
  State.push_storage v (State.access_flat h (by decide) (toNat_le_of_ne_top hsp))

/-- A push at the top of the address space overflows (R66, R250). -/
theorem State.push_overflow {s : State} (v : Word) (hsp : s.reg .sp = 0xFFFF) :
    s.push v = .fault (.failed (.addressOverflow 0xFFFF) s.output) :=
  State.push_eq_fault.mpr ⟨_, State.access_overflow s (toNat_add_overflow hsp), by rw [hsp]; rfl⟩

/-- A pop on the default platform (R251). -/
theorem State.pop_flat {s : State} (h : s.flat) (hsp : s.reg .sp + 2 ≠ 0xFFFF) :
    s.pop = .ok (s.flatWord (s.reg .sp + 2)) ((s.setReg .sp (s.reg .sp + 2)).setFrameSize (s.frameSize - 2)) :=
  State.pop_storage (State.access_flat h (by decide) (toNat_le_of_ne_top hsp))

/-- A 16-bit read on the default platform. -/
theorem State.memRead16_flat {s : State} (h : s.flat) {a : Nat} (ha : a + 2 ≤ 0x10000) :
    s.memRead16 a = .ok (s.wordAt (flatLoc a)) s :=
  State.memRead16_storage (State.access_flat h (by decide) ha)

/-! ## Slots -/

theorem slotDown_zero (a : Word) : slotDown a 0 = a := by simp [slotDown]

theorem slotDown_succ (a : Word) (k : Nat) : slotDown (a - 2) k = slotDown a (k + 1) := by
  simp only [slotDown, ofNat_succ_word]; ring

theorem slotUp_zero (a : Word) : slotUp a 0 = a + 2 := by simp [slotUp]

theorem slotUp_succ (a : Word) (k : Nat) : slotUp (a + 2) k = slotUp a (k + 1) := by
  simp only [slotUp, ofNat_succ_word]; ring

theorem slotUp_add (a : Word) (j k : Nat) : slotUp (a + 2 * BitVec.ofNat 16 j) k = slotUp a (j + k) := by
  simp only [slotUp, BitVec.ofNat_add]; ring

/-- The words that pushes wrote are met by pops in the opposite order. -/
theorem slotUp_slotDown (a : Word) (m k : Nat) : slotUp (a - 2 * BitVec.ofNat 16 (m + k + 1)) k = slotDown a m := by
  simp only [slotUp, slotDown, BitVec.ofNat_add]
  rw [show BitVec.ofNat 16 1 = (1 : Word) from rfl]
  ring

/-! ## A run of pops -/

/-- A pop whose access reaches anything succeeds. -/
theorem State.pop_ok_of_access {s : State} (h : ∃ g, s.access (s.reg .sp + 2).toNat 2 = .ok g) : ∃ v t, s.pop = .ok v t := by
  cases hp : s.pop with
  | ok v t => exact ⟨v, t, rfl⟩
  | fault f =>
    obtain ⟨g, hg⟩ := h
    obtain ⟨e, he, _⟩ := State.pop_eq_fault.mp hp
    rw [hg] at he; cases he

/-- What popping `n` words leaves: `sp` and `F` moved, the named registers written, everything else as before. -/
structure State.Popped (s t : State) (n : Nat) (rs : List Reg) : Prop where
  sp : t.reg .sp = s.reg .sp + 2 * BitVec.ofNat 16 n
  frameSize : t.frameSize = s.frameSize - 2 * BitVec.ofNat 16 n
  regs : s.sameRegsBut (.sp :: rs) t
  handler : t.inHandler = s.inHandler
  runState : t.runState = s.runState
  platform : s.samePlatform t
  devices : t.devices = s.devices
  output : s.sameOutput t

theorem State.wordAt_of_devices {s t : State} (h : t.devices = s.devices) (l : Loc) : t.wordAt l = s.wordAt l := by
  simp only [State.wordAt, State.byteAt, State.bufferAt, h]

theorem State.Popped.access {s t : State} {n : Nat} {rs : List Reg} (h : s.Popped t n rs) (hmb : .mb ∉ rs) (a m : Nat) :
    t.access a m = s.access a m :=
  State.access_congr h.platform.2.1 h.platform.2.2.2 (h.regs .mb (by simp [hmb])) a m

theorem State.Popped.zero (s : State) : s.Popped s 0 [] :=
  ⟨by simp, by simp, fun _ _ => rfl, rfl, rfl, s.samePlatform_refl, rfl, rfl, rfl⟩

theorem State.Popped.trans {a b c : State} {n m : Nat} {rs qs : List Reg} (h : a.Popped b n rs) (h' : b.Popped c m qs) :
    a.Popped c (n + m) (rs ++ qs) := by
  refine ⟨?_, ?_, fun r hr => ?_, h'.handler.trans h.handler, h'.runState.trans h.runState,
    State.samePlatform_trans h.platform h'.platform, h'.devices.trans h.devices,
    h'.output.1.trans h.output.1, h'.output.2.trans h.output.2⟩
  · rw [h'.sp, h.sp, BitVec.ofNat_add]; ring
  · rw [h'.frameSize, h.frameSize, BitVec.ofNat_add]; ring
  · simp only [List.mem_cons, List.mem_append, not_or] at hr
    rw [h'.regs r (by simp [hr]), h.regs r (by simp [hr])]

/-- One pop from storage (R251). -/
theorem State.pop_popped {s : State} {l : Loc} (h : s.access (s.reg .sp + 2).toNat 2 = .ok (.storage l)) :
    ∃ t, s.pop = .ok (s.wordAt l) t ∧ s.Popped t 1 [] := by
  refine ⟨_, State.pop_storage h, ⟨?_, ?_, fun r hr => ?_, rfl, rfl, ⟨rfl, rfl, rfl, rfl⟩, rfl, rfl, rfl⟩⟩
  · simp
  · simp
  · simp only [List.mem_cons, List.not_mem_nil, or_false] at hr
    simp [hr]

/-- Discarding words from storage (R258). -/
theorem State.discard_popped (n : Nat) : ∀ {s : State} {place : Nat → Loc},
    (∀ k < n, s.access (slotUp (s.reg .sp) k).toNat 2 = .ok (.storage (place k))) →
    ∃ t, s.discard n = .ok () t ∧ s.Popped t n [] := by
  induction n with
  | zero => intro s _ _; exact ⟨s, rfl, State.Popped.zero s⟩
  | succ n ih =>
    intro s place h
    have h0 := h 0 (Nat.succ_pos n)
    rw [slotUp_zero] at h0
    obtain ⟨t, ht, P⟩ := State.pop_popped h0
    have hsp : t.reg .sp = s.reg .sp + 2 := by rw [P.sp]; simp
    obtain ⟨u, hu, Q⟩ := ih (s := t) (place := fun k => place (k + 1)) (fun k hk => by
      rw [P.access (by simp), hsp, slotUp_succ]; exact h (k + 1) (by omega))
    exact ⟨u, by rw [State.discard, ht, Res.bind_ok, hu], by simpa [Nat.add_comm] using P.trans Q⟩

/-- Popping words from storage into registers other than `sp` and `mb` (R258). -/
theorem State.popInto_popped (rs : List Reg) : ∀ {s : State} {place : Nat → Loc}, rs.Nodup → .sp ∉ rs → .mb ∉ rs →
    (∀ k < rs.length, s.access (slotUp (s.reg .sp) k).toNat 2 = .ok (.storage (place k))) →
    ∃ t, s.popInto rs = .ok () t ∧ s.Popped t rs.length rs ∧
      ∀ (k : Nat) (h : k < rs.length), t.reg rs[k] = s.wordAt (place k) := by
  induction rs with
  | nil => intro s _ _ _ _ _; exact ⟨s, rfl, State.Popped.zero s, fun k h => absurd h (by simp)⟩
  | cons r rs ih =>
    intro s place hnd hsp hmb h
    simp only [List.mem_cons, not_or] at hsp hmb
    obtain ⟨hr, hnd⟩ := List.nodup_cons.mp hnd
    have h0 := h 0 (by simp)
    rw [slotUp_zero] at h0
    obtain ⟨t, ht, P⟩ := State.pop_popped h0
    have P' : s.Popped (t.setReg r (s.wordAt (place 0))) 1 [r] := by
      refine ⟨?_, P.frameSize, fun q hq => ?_, P.handler, P.runState, P.platform, P.devices, P.output⟩
      · rw [State.reg_setReg_ne _ _ hsp.1]; exact P.sp
      · simp only [List.mem_cons, List.not_mem_nil, or_false, not_or] at hq
        rw [State.reg_setReg_ne _ _ hq.2]
        exact P.regs q (by simp [hq.1])
    have hsp1 : (t.setReg r (s.wordAt (place 0))).reg .sp = s.reg .sp + 2 := by rw [P'.sp]; simp
    obtain ⟨u, hu, Q, hv⟩ := ih (s := t.setReg r (s.wordAt (place 0))) (place := fun k => place (k + 1)) hnd hsp.2 hmb.2
      (fun k hk => by
        rw [P'.access (by simp [hmb.1]), hsp1, slotUp_succ]
        exact h (k + 1) (by simpa using hk))
    refine ⟨u, by rw [State.popInto, ht, Res.bind_ok, hu], by simpa [Nat.add_comm] using P'.trans Q, ?_⟩
    intro k hk
    match k, hk with
    | 0, _ =>
      rw [List.getElem_cons_zero, Q.regs r (by simp [hr, Ne.symm hsp.1]), State.reg_setReg_same]
    | k + 1, hk =>
      rw [List.getElem_cons_succ, hv k (by simpa using hk)]
      exact State.wordAt_of_devices P'.devices _

/-- A run of discards reports the first pop whose access fails (R258, R303). -/
theorem State.discard_fault (n : Nat) : ∀ {s : State} (k : Nat) {e : EngineError}, k < n →
    (∀ j < k, ∃ g, s.access (slotUp (s.reg .sp) j).toNat 2 = .ok g) →
    s.access (slotUp (s.reg .sp) k).toNat 2 = .error e → s.discard n = .fault (.failed e s.output) := by
  induction n with
  | zero => intro s k e hk; omega
  | succ n ih =>
    intro s k e hk hj he
    cases k with
    | zero => rw [slotUp_zero] at he; rw [State.discard, State.pop_eq_fault.mpr ⟨e, he, rfl⟩, Res.bind_fault]
    | succ k =>
      obtain ⟨v, t, ht⟩ := State.pop_ok_of_access (by have := hj 0 (Nat.succ_pos k); rwa [slotUp_zero] at this)
      obtain ⟨hsp, _, hacc, _, ho⟩ := State.pop_keeps ht
      rw [State.discard, ht, Res.bind_ok, ih (s := t) k (e := e) (by omega)
        (fun j hjk => by rw [hacc, hsp, slotUp_succ]; exact hj (j + 1) (by omega))
        (by rw [hacc, hsp, slotUp_succ]; exact he), ho]

/-- What popping words into registers other than `sp` and `mb` can do: succeed, with `sp` moved past them, routing, stored words
and output as before; or report the first pop whose access fails (R258, R303). -/
theorem State.popInto_spec (rs : List Reg) : ∀ {s : State}, .sp ∉ rs → .mb ∉ rs →
    (∀ (k : Nat) (e : EngineError), k < rs.length → (∀ j < k, ∃ g, s.access (slotUp (s.reg .sp) j).toNat 2 = .ok g) →
      s.access (slotUp (s.reg .sp) k).toNat 2 = .error e → s.popInto rs = .fault (.failed e s.output)) ∧
    ((∀ j < rs.length, ∃ g, s.access (slotUp (s.reg .sp) j).toNat 2 = .ok g) →
      ∃ t, s.popInto rs = .ok () t ∧ t.reg .sp = s.reg .sp + 2 * BitVec.ofNat 16 rs.length ∧
        (∀ a n, t.access a n = s.access a n) ∧ (∀ l, t.wordAt l = s.wordAt l) ∧ t.output = s.output) := by
  induction rs with
  | nil =>
    intro s _ _
    exact ⟨fun k e hk => absurd hk (by simp), fun _ => ⟨s, rfl, by simp, fun _ _ => rfl, fun _ => rfl, rfl⟩⟩
  | cons r rs ih =>
    intro s hsp hmb
    simp only [List.mem_cons, not_or] at hsp hmb
    have step : ∀ v t, s.pop = .ok v t → (t.setReg r v).reg .sp = s.reg .sp + 2 ∧
        (∀ a n, (t.setReg r v).access a n = s.access a n) ∧ (∀ l, (t.setReg r v).wordAt l = s.wordAt l) ∧
        (t.setReg r v).output = s.output := fun v t ht => by
      obtain ⟨h1, _, h3, h4, h5⟩ := State.pop_keeps ht
      exact ⟨by rw [State.reg_setReg_ne _ _ hsp.1, h1],
        fun a n => by rw [State.access_setReg _ _ (Ne.symm hmb.1), h3], fun l => by simp [h4], by simp [h5]⟩
    refine ⟨fun k e hk hj he => ?_, fun hj => ?_⟩
    · cases k with
      | zero => rw [slotUp_zero] at he; rw [State.popInto, State.pop_eq_fault.mpr ⟨e, he, rfl⟩, Res.bind_fault]
      | succ k =>
        obtain ⟨v, t, ht⟩ := State.pop_ok_of_access (by have := hj 0 (Nat.succ_pos k); rwa [slotUp_zero] at this)
        obtain ⟨h1, h3, _, h5⟩ := step v t ht
        rw [State.popInto, ht, Res.bind_ok, (ih (s := t.setReg r v) hsp.2 hmb.2).1 k e (by simpa using hk)
          (fun j hjk => by rw [h3, h1, slotUp_succ]; exact hj (j + 1) (by omega))
          (by rw [h3, h1, slotUp_succ]; exact he), h5]
    · obtain ⟨v, t, ht⟩ := State.pop_ok_of_access (by have := hj 0 (by simp); rwa [slotUp_zero] at this)
      obtain ⟨h1, h3, h4, h5⟩ := step v t ht
      obtain ⟨u, hu, hs, ha, hw, ho⟩ := (ih (s := t.setReg r v) hsp.2 hmb.2).2 fun j hjl => by
        rw [h3, h1, slotUp_succ]; exact hj (j + 1) (by simpa using hjl)
      refine ⟨u, by rw [State.popInto, ht, Res.bind_ok, hu], ?_, fun a n => by rw [ha, h3], fun l => by rw [hw, h4], by rw [ho, h5]⟩
      rw [hs, h1, List.length_cons, ofNat_succ_word]
      ring

/-- `popState()` from storage (R258): what it reads and what it leaves. -/
theorem State.popState_storage {s : State} {place : Nat → Loc}
    (h : ∀ k < 11 + (s.wordAt (place 10)).toNat, s.access (slotUp (s.reg .fp) k).toNat 2 = .ok (.storage (place k))) :
    ∃ t, s.popState = .ok () t ∧
      (∀ (k : Nat) (hk : k < savedRegs.reverse.length), t.reg savedRegs.reverse[k] = s.wordAt (place (k + 1))) ∧
      t.reg .sp = s.reg .fp + 22 + 2 * s.wordAt (place 10) ∧ t.reg .fp = s.reg .fp + s.wordAt (place 0) ∧
      t.frameSize = s.wordAt (place 0) - 20 - 2 * s.wordAt (place 10) ∧
      t.inHandler = s.inHandler ∧ t.runState = s.runState ∧ s.sameRegsBut (.sp :: .fp :: savedRegs) t ∧
      s.samePlatform t ∧ t.devices = s.devices ∧ s.sameOutput t := by
  have hsp0 : (s.setReg .sp (s.reg .fp)).reg .sp = s.reg .fp := by simp
  have hacc : ∀ a n, (s.setReg .sp (s.reg .fp)).access a n = s.access a n :=
    fun a n => State.access_setReg _ _ (by decide) a n
  obtain ⟨t1, h1, P1⟩ := State.pop_popped (s := s.setReg .sp (s.reg .fp)) (l := place 0)
    (by rw [hacc, hsp0]; simpa [slotUp] using h 0 (by omega))
  have hfs : (s.setReg .sp (s.reg .fp)).wordAt (place 0) = s.wordAt (place 0) := by simp
  rw [hfs] at h1
  have hsp1 : t1.reg .sp = s.reg .fp + 2 := by rw [P1.sp, hsp0]; simp
  have hacc1 : ∀ a n, t1.access a n = s.access a n := fun a n => by rw [P1.access (by simp), hacc]
  have hacc1' : ∀ a n, (t1.setFrameSize (s.wordAt (place 0))).access a n = s.access a n := fun a n => hacc1 a n
  obtain ⟨t2, h2, P2, hv⟩ := State.popInto_popped savedRegs.reverse (s := t1.setFrameSize (s.wordAt (place 0)))
    (place := fun k => place (k + 1)) (by decide) (by decide) (by decide) (fun k hk => by
      rw [hacc1', State.reg_setFrameSize, hsp1, slotUp_succ]
      exact h (k + 1) (by simp [savedRegs] at hk; omega))
  have hsp2 : t2.reg .sp = s.reg .fp + 2 * BitVec.ofNat 16 10 := by
    rw [P2.sp, State.reg_setFrameSize, hsp1, List.length_reverse]
    show s.reg .fp + 2 + 2 * BitVec.ofNat 16 9 = _
    rw [BitVec.add_assoc]; rfl
  have hacc2 : ∀ a n, t2.access a n = s.access a n := fun a n => by rw [P2.access (by decide), hacc1']
  have hdev2 : t2.devices = s.devices := P2.devices.trans P1.devices
  obtain ⟨t3, h3, P3⟩ := State.pop_popped (s := t2) (l := place 10)
    (by rw [hacc2, hsp2, ← slotUp_zero, slotUp_add]; exact h 10 (by omega))
  rw [State.wordAt_of_devices hdev2] at h3
  have hsp3 : t3.reg .sp = s.reg .fp + 2 * BitVec.ofNat 16 11 := by
    rw [P3.sp, hsp2, BitVec.add_assoc]; rfl
  have hacc3 : ∀ a n, t3.access a n = s.access a n := fun a n => by rw [P3.access (by simp), hacc2]
  obtain ⟨t4, h4, P4⟩ := State.discard_popped (s.wordAt (place 10)).toNat (s := t3)
    (place := fun k => place (11 + k)) (fun k hk => by
      rw [hacc3, hsp3, slotUp_add]; exact h (11 + k) (by omega))
  refine ⟨t4.setReg .fp (s.reg .fp + s.wordAt (place 0)), ?_, ?_, ?_, ?_, ?_, ?_, ?_, ?_, ?_, ?_, ?_⟩
  · rw [State.popState, h1, Res.bind_ok, h2, Res.bind_ok, h3, Res.bind_ok, h4, Res.bind_ok]
  · intro k hk
    have hne : savedRegs.reverse[k] ∈ savedRegs.reverse := List.getElem_mem hk
    have hfp : savedRegs.reverse[k] ≠ .fp := fun e => absurd (e ▸ hne) (by decide)
    have hspn : savedRegs.reverse[k] ≠ .sp := fun e => absurd (e ▸ hne) (by decide)
    rw [State.reg_setReg_ne _ _ hfp, P4.regs _ (by simp only [List.mem_singleton]; exact hspn),
      P3.regs _ (by simp only [List.mem_singleton]; exact hspn), hv k hk]
    exact State.wordAt_of_devices (s := s) (t := t1.setFrameSize (s.wordAt (place 0))) P1.devices _
  · rw [State.reg_setReg_ne _ _ (by decide), P4.sp, hsp3, BitVec.ofNat_toNat]
    simp only [BitVec.setWidth_eq]
    rfl
  · simp
  · rw [State.frameSize_setReg, P4.frameSize, P3.frameSize, P2.frameSize, State.frameSize_setFrameSize, BitVec.ofNat_toNat,
      BitVec.setWidth_eq]
    have : s.wordAt (place 0) - 2 * BitVec.ofNat 16 savedRegs.reverse.length - 2 * BitVec.ofNat 16 1 =
        s.wordAt (place 0) - 20 := by
      show s.wordAt (place 0) - (18 : Word) - (2 : Word) = _
      rw [BitVec.sub_sub]; rfl
    rw [this]
  · exact P4.handler.trans (P3.handler.trans (P2.handler.trans P1.handler))
  · exact P4.runState.trans (P3.runState.trans (P2.runState.trans P1.runState))
  · intro r hr
    simp only [List.mem_cons, not_or] at hr
    have hr' : r ∉ savedRegs.reverse := by simpa using hr.2.2
    rw [State.reg_setReg_ne _ _ hr.2.1, P4.regs r (by simp [hr.1]), P3.regs r (by simp [hr.1]),
      P2.regs r (by simpa [hr.1] using hr'), State.reg_setFrameSize, P1.regs r (by simp [hr.1]),
      State.reg_setReg_ne _ _ hr.1]
  · exact State.samePlatform_trans P1.platform (State.samePlatform_trans P2.platform
      (State.samePlatform_trans P3.platform P4.platform))
  · exact P4.devices.trans (P3.devices.trans hdev2)
  · exact ⟨P4.output.1.trans (P3.output.1.trans (P2.output.1.trans P1.output.1)),
      P4.output.2.trans (P3.output.2.trans (P2.output.2.trans P1.output.2))⟩

/-! ## A run of pushes -/

/-- What pushing a list of words leaves: each word at its place, every other byte and everything but `sp` and `F` as before. -/
structure State.Pushed (s t : State) (vs : List Word) (place : Nat → Loc) : Prop where
  evolves : s.Evolves t
  sp : t.reg .sp = slotDown (s.reg .sp) vs.length
  frameSize : t.frameSize = s.frameSize + 2 * BitVec.ofNat 16 vs.length
  wrote : s.wroteWords t vs place
  objects : s.sameObjects t
  regs : s.sameRegsBut [.sp] t
  handler : t.inHandler = s.inHandler
  output : s.sameOutput t

/-- A word none of whose bytes changed reads as before. -/
theorem State.wordAt_congr {s t : State} {l : Loc} (h : t.byteAt l = s.byteAt l) (h' : t.byteAt l.next = s.byteAt l.next) :
    t.wordAt l = s.wordAt l := by
  rw [State.wordAt, State.wordAt, h, h']

theorem Loc.next_injective {l m : Loc} (h : l.next = m.next) : l = m := by
  cases l; cases m; simp_all [Loc.next]

/-- Pushing a list of words for which there is room (R250). -/
theorem State.pushAll_room (vs : List Word) : ∀ {s : State} {place : Nat → Loc}, s.roomFor vs.length place →
    ∃ t, s.pushAll vs = .ok () t ∧ s.Pushed t vs place := by
  induction vs with
  | nil =>
    intro s place _
    exact ⟨s, rfl, State.Evolves.refl s, by simp [slotDown_zero], by simp,
      ⟨fun k h => absurd h (by simp), fun _ _ => rfl⟩, State.sameObjects_of_devices rfl, fun _ _ => rfl, rfl, rfl, rfl⟩
  | cons v vs ih =>
    intro s place hroom
    rw [List.length_cons] at hroom
    have h0 := hroom.1 0 (Nat.succ_pos _)
    rw [slotDown_zero] at h0
    have hpush := State.push_storage v h0
    have hev : s.Evolves _ := (s.push_tame v).ok _ _ hpush
    have hacc : ∀ a n, (((s.setWordAt (place 0) v).setReg .sp (s.reg .sp - 2)).setFrameSize (s.frameSize + 2)).access a n
        = s.access a n := fun a n => State.access_congr hev.platform.2.1 hev.platform.2.2.2 (by simp) a n
    obtain ⟨t, ht, P⟩ := ih (s := ((s.setWordAt (place 0) v).setReg .sp (s.reg .sp - 2)).setFrameSize (s.frameSize + 2))
      (place := fun k => place (k + 1)) ⟨fun k hk => by
        rw [hacc, State.reg_setFrameSize, State.reg_setReg_same, slotDown_succ]
        exact hroom.1 (k + 1) (by omega), fun j hj k hk hne => hroom.2 (j + 1) (by omega) (k + 1) (by omega) (by omega)⟩
    have hin := (State.access_storage h0).2.1
    have apart : ∀ k < vs.length, place 0 ≠ place (k + 1) ∧ place 0 ≠ (place (k + 1)).next ∧ (place 0).next ≠ place (k + 1) :=
      fun k hk =>
        ⟨(hroom.2 0 (by omega) (k + 1) (by omega) (by omega)).1, (hroom.2 0 (by omega) (k + 1) (by omega) (by omega)).2,
          fun e => (hroom.2 (k + 1) (by omega) 0 (by omega) (by omega)).2 e.symm⟩
    refine ⟨t, by rw [State.pushAll, hpush, Res.bind_ok]; exact ht, hev.trans P.evolves, ?_, ?_, ⟨?_, ?_⟩,
      State.sameObjects_trans (s.sameObjects_setWordAt (place 0) v) P.objects, ?_, ?_, ?_, ?_⟩
    · rw [P.sp, State.reg_setFrameSize, State.reg_setReg_same, slotDown_succ, List.length_cons]
    · rw [P.frameSize, State.frameSize_setFrameSize, List.length_cons, ofNat_succ_word]; ring
    · intro k hk
      match k, hk with
      | 0, _ =>
        rw [List.getElem_cons_zero, State.wordAt_congr
          (P.wrote.2 (place 0) fun k hk => ⟨(apart k hk).1, (apart k hk).2.1⟩)
          (P.wrote.2 (place 0).next fun k hk => ⟨(apart k hk).2.2, fun e => (apart k hk).1 (Loc.next_injective e)⟩)]
        exact State.wordAt_setWordAt_same s v hin
      | k + 1, hk =>
        rw [List.getElem_cons_succ]
        exact P.wrote.1 k (by simpa using hk)
    · intro l hl
      rw [P.wrote.2 l fun k hk => hl (k + 1) (by simpa using hk)]
      have := hl 0 (by simp)
      exact State.byteAt_setWordAt_ne s v this.1 this.2
    · intro r hr
      rw [P.regs r hr]
      simp only [List.mem_singleton] at hr
      simp [hr]
    · rw [P.handler]; simp
    · rw [P.output.1]; simp
    · rw [P.output.2]; simp

/-- What a push that succeeds leaves of `sp` and of the routing (R250). -/
theorem State.push_keeps {s t : State} {v : Word} (h : s.push v = .ok () t) :
    t.reg .sp = s.reg .sp - 2 ∧ ∀ a n, t.access a n = s.access a n := by
  have hev : s.Evolves t := (s.push_tame v).ok _ _ h
  refine ⟨?_, fun a n => State.access_congr hev.platform.2.1 hev.platform.2.2.2
    (State.push_regs (rs := [.sp]) (by simp) s v _ _ h .mb (by decide)) a n⟩
  obtain ⟨s1, hw, rfl⟩ := State.push_eq_ok.mp h
  rw [State.reg_setFrameSize, State.reg_setReg_same, State.memWrite16_regs [] s _ v _ _ hw .sp (by simp)]

/-- Pushing a list reports the first push whose access fails (R303). -/
theorem State.pushAll_fault (vs : List Word) : ∀ {s : State} (k : Nat) {e : EngineError}, k < vs.length →
    (∀ j < k, ∃ g, s.access (slotDown (s.reg .sp) j).toNat 2 = .ok g) →
    s.access (slotDown (s.reg .sp) k).toNat 2 = .error e →
    ∃ output, s.pushAll vs = .fault (.failed e output) ∧ s.output <+: output := by
  induction vs with
  | nil => intro s k e hk; simp at hk
  | cons v vs ih =>
    intro s k e hk hj he
    cases k with
    | zero =>
      rw [slotDown_zero] at he
      exact ⟨s.output, by rw [State.pushAll, State.push_eq_fault.mpr ⟨e, he, rfl⟩, Res.bind_fault], List.prefix_rfl⟩
    | succ k =>
      obtain ⟨g, hg⟩ := hj 0 (Nat.succ_pos k)
      rw [slotDown_zero] at hg
      have hp : ∃ t, s.push v = .ok () t := by
        cases hpv : s.push v with
        | ok u t => exact ⟨t, rfl⟩
        | fault f =>
          obtain ⟨e', he', _⟩ := State.push_eq_fault.mp hpv
          rw [hg] at he'; cases he'
      obtain ⟨t, ht⟩ := hp
      have hev : s.Evolves t := (s.push_tame v).ok _ _ ht
      obtain ⟨hsp, hacc⟩ := State.push_keeps ht
      obtain ⟨out, ho, hp⟩ := ih (s := t) k (e := e) (by simpa using hk)
        (fun j hjk => by
          rw [hacc, hsp, slotDown_succ]; exact hj (j + 1) (by omega))
        (by rw [hacc, hsp, slotDown_succ]; exact he)
      exact ⟨out, by rw [State.pushAll, ht, Res.bind_ok, ho], hev.output.trans hp⟩

/-- Pushes whose every access reaches something all succeed, whatever they reach. -/
theorem State.pushAll_ok_of_access (vs : List Word) : ∀ {s : State},
    (∀ j < vs.length, ∃ g, s.access (slotDown (s.reg .sp) j).toNat 2 = .ok g) →
    ∃ t, s.pushAll vs = .ok () t ∧ t.reg .sp = slotDown (s.reg .sp) vs.length ∧ ∀ a n, t.access a n = s.access a n := by
  induction vs with
  | nil => intro s _; exact ⟨s, rfl, (slotDown_zero _).symm, fun _ _ => rfl⟩
  | cons v vs ih =>
    intro s h
    obtain ⟨g, hg⟩ := h 0 (by simp)
    rw [slotDown_zero] at hg
    cases hp : s.push v with
    | fault f =>
      obtain ⟨e, he, _⟩ := State.push_eq_fault.mp hp
      rw [hg] at he; cases he
    | ok u t =>
      obtain ⟨hsp, hacc⟩ := State.push_keeps hp
      obtain ⟨w, hw, h1, h2⟩ := ih (s := t) fun j hj => by
        rw [hacc, hsp, slotDown_succ]; exact h (j + 1) (by simpa using hj)
      exact ⟨w, by rw [State.pushAll, hp]; exact hw, by rw [h1, hsp, slotDown_succ]; rfl, fun a n => by rw [h2, hacc]⟩

/-! ## The default platform -/

theorem flatLoc_injective {a b : Nat} (h : flatLoc a = flatLoc b) : a = b := congrArg Loc.offset h

/-- Words at different even distances from one address share no byte. -/
theorem wordLocs_disjoint {a : Word} {j k : Nat} (hj : j < 32768) (hk : k < 32768) (hne : j ≠ k)
    (htop : a - 2 * BitVec.ofNat 16 j ≠ 0xFFFF) (htop' : a - 2 * BitVec.ofNat 16 k ≠ 0xFFFF) :
    ∀ l ∈ wordLocs (a - 2 * BitVec.ofNat 16 j), l ∉ wordLocs (a - 2 * BitVec.ofNat 16 k) := by
  have hb := a.isLt
  have e : ∀ i : Nat, i < 32768 → (a - 2 * BitVec.ofNat 16 i).toNat = (a.toNat + 65536 - 2 * i) % 65536 := by
    intro i hi
    rw [BitVec.toNat_sub, BitVec.toNat_mul, BitVec.toNat_ofNat]
    have : (2 : BitVec 16).toNat * (i % 2 ^ 16) % 2 ^ 16 = 2 * i := by
      show 2 * (i % 65536) % 65536 = 2 * i
      omega
    rw [this]; omega
  have t1 := toNat_le_of_ne_top htop
  have t2 := toNat_le_of_ne_top htop'
  rw [e j hj] at t1
  rw [e k hk] at t2
  intro l hl hl'
  simp only [wordLocs, List.mem_cons, List.not_mem_nil, or_false, e j hj, e k hk] at hl hl'
  have ho : l.offset = (a.toNat + 65536 - 2 * j) % 65536 ∨ l.offset = (a.toNat + 65536 - 2 * j) % 65536 + 1 := by
    rcases hl with rfl | rfl
    · exact Or.inl rfl
    · exact Or.inr rfl
  have ho' : l.offset = (a.toNat + 65536 - 2 * k) % 65536 ∨ l.offset = (a.toNat + 65536 - 2 * k) % 65536 + 1 := by
    rcases hl' with rfl | rfl
    · exact Or.inl rfl
    · exact Or.inr rfl
  omega

/-- Bytes of a word unchanged, so the word is unchanged. -/
theorem State.flatWord_congr {s t : State} {a : Word} (h : ∀ l ∈ wordLocs a, t.byteAt l = s.byteAt l) :
    t.flatWord a = s.flatWord a := by
  unfold State.flatWord State.wordAt
  rw [h _ (by simp [wordLocs]), h _ (by simp [wordLocs])]

/-- On the default platform there is room for a run of pushes that never meets the top of the address space. -/
theorem State.roomFor_flat {s : State} (hf : s.flat) {n : Nat} (hn : n ≤ 32768)
    (h : ∀ k < n, slotDown (s.reg .sp) k ≠ 0xFFFF) :
    s.roomFor n fun k => flatLoc (slotDown (s.reg .sp) k).toNat := by
  refine ⟨fun k hk => State.access_flat hf (by decide) (toNat_le_of_ne_top (h k hk)), fun j hj k hk hne => ?_⟩
  have hd := wordLocs_disjoint (a := s.reg .sp) (j := j) (k := k) (by omega) (by omega) hne (h j hj) (h k hk)
    (flatLoc (slotDown (s.reg .sp) j).toNat) (by simp [wordLocs, slotDown])
  simp only [wordLocs, List.mem_cons, List.not_mem_nil, or_false, not_or] at hd
  exact hd

/-- Pushing one list after another is pushing them joined. -/
theorem State.pushAll_append (vs ws : List Word) : ∀ s : State,
    s.pushAll (vs ++ ws) = (s.pushAll vs).bind fun _ t => t.pushAll ws := by
  induction vs with
  | nil => intro s; rfl
  | cons v vs ih =>
    intro s
    rw [List.cons_append, State.pushAll, State.pushAll]
    cases s.push v with
    | ok u t => exact ih t
    | fault f => rfl

end Sys2Proof.Machine
end

