-- ==== Sys2Proof/Laws/Fetch.lean ====
section
/-! SUPPORT. Fetching: what each fetch can answer, and that fetching the bytes at `pc` is decoding them. -/

namespace Sys2Proof.Machine

/-! ## What a fetch keeps -/

theorem State.fetch_tame (s : State) : Res.Tame s s.fetch :=
  Res.Tame.bind (s.memRead8_tame _) fun _ t _ => Res.Tame.ok' (State.Evolves.setReg t _ _)

theorem State.fetch16_tame (s : State) : Res.Tame s s.fetch16 :=
  Res.Tame.bind (s.memRead16_tame _) fun _ t _ => Res.Tame.ok' (State.Evolves.setReg t _ _)

theorem State.fetchReg_tame (s : State) : Res.Tame s s.fetchReg :=
  Res.Tame.bind s.fetch_tame fun _ t _ => Res.Tame.ok' (State.Evolves.refl t)

theorem State.fetchField_tame (s : State) (f : Field) (o : Operands) : Res.Tame s (s.fetchField f o) := by
  cases f
  · exact Res.Tame.bind s.fetch16_tame fun _ t _ => Res.Tame.ok' (State.Evolves.refl t)
  · exact Res.Tame.bind s.fetch16_tame fun _ t _ => Res.Tame.ok' (State.Evolves.refl t)
  · exact Res.Tame.bind s.fetchReg_tame fun _ t _ => Res.Tame.ok' (State.Evolves.refl t)
  · exact Res.Tame.bind s.fetchReg_tame fun _ t _ => Res.Tame.ok' (State.Evolves.refl t)
  · exact Res.Tame.bind s.fetch_tame fun _ t _ => Res.Tame.ok' (State.Evolves.refl t)

theorem State.fetchFields_tame (fs : List Field) : ∀ (s : State) (o : Operands), Res.Tame s (s.fetchFields o fs) := by
  induction fs with
  | nil => intro s o; exact Res.Tame.ok' (State.Evolves.refl s)
  | cons f fs ih => intro s o; exact Res.Tame.bind (s.fetchField_tame f o) fun o1 t _ => ih t o1

/-- A fetched instruction leaves an evolved state (R166: nothing but `pc` is written). -/
theorem State.fetchInstr_ok {s t : State} {r : Option Instr} (h : s.fetchInstr = .ok r t) : s.Evolves t := by
  obtain ⟨b, s1, hb, h⟩ := Res.bind_eq_ok.mp h
  refine (s.fetch_tame.ok _ _ hb).trans ?_
  split at h
  next row _ =>
    obtain ⟨o, s2, ho, h⟩ := Res.bind_eq_ok.mp h
    cases h
    exact (State.fetchFields_tame _ _ _).ok _ _ ho
  next =>
    split at h
    · cases h
    · cases h; exact State.Evolves.refl _

/-- A fetch fails with an access fault, or with `IllegalOpcode` (R113, R170); the output is kept. -/
theorem State.fetchInstr_fault {s : State} {f : Fault} (h : s.fetchInstr = .fault f) :
    ∃ e output, f = .failed e output ∧ (s.RaisesAccess e ∨ ∃ op a, e = .illegalOpcode op a) ∧
      s.output <+: output := by
  rcases Res.bind_eq_fault.mp h with h | ⟨b, s1, hb, h⟩
  · obtain ⟨e, out, he, ha, hp⟩ := s.fetch_tame.fault f h
    exact ⟨e, out, he, Or.inl ha, hp⟩
  · have hp1 := (s.fetch_tame.ok _ _ hb).output
    split at h
    next row _ =>
      rcases Res.bind_eq_fault.mp h with h | ⟨o, s2, _, h⟩
      · obtain ⟨e, out, he, ha, hp⟩ := (State.fetchFields_tame _ _ _).fault f h
        exact ⟨e, out, he, Or.inl (ha.of_samePlatform (s.fetch_tame.ok _ _ hb).platform), hp1.trans hp⟩
      · cases h
    next =>
      split at h
      · cases h; exact ⟨_, _, rfl, Or.inr ⟨_, _, rfl⟩, hp1⟩
      · cases h

/-! ## Fetching is decoding -/

/-- Two neighbouring bytes of storage make a word of storage (R65). -/
theorem State.access_pair {s : State} {a : Nat} {l : Loc} (h1 : s.access a 1 = .ok (.storage l))
    (h2 : s.access (a + 1) 1 = .ok (.storage l.next)) : s.access a 2 = .ok (.storage l) := by
  obtain ⟨hb, _, hsize⟩ := State.access_storage h2
  have hle : ¬ a + 2 > 0x10000 := by omega
  unfold State.access at h1 ⊢
  rw [if_neg hle]
  split at h1
  · cases h1
  · split at h1
    · cases h1
    next r hr =>
      unfold State.resolve at h1 ⊢
      split at h1
      · cases h1
      · split at h1 <;> cases h1
      next d _ _ hd =>
        split at h1
        next hc =>
          cases h1
          have hs := hsize d hd
          simp only [Loc.next] at hs
          rw [if_pos ⟨hc.1, by omega⟩]
        · cases h1
      · cases h1

/-- The bytes at `pc` and up lie in one buffer from the place `l` on, and are `bytes`. -/
def State.codeFrom (s : State) (l : Loc) (bytes : List Byte) : Prop :=
  ∀ (k : Nat) (h : k < bytes.length),
    s.access ((s.reg .pc).toNat + k) 1 = .ok (.storage { l with offset := l.offset + k }) ∧
      s.byteAt { l with offset := l.offset + k } = bytes[k]

theorem State.codeFrom_head {s : State} {l : Loc} {b : Byte} {bytes : List Byte} (h : s.codeFrom l (b :: bytes)) :
    s.access (s.reg .pc).toNat 1 = .ok (.storage l) ∧ s.byteAt l = b :=
  h 0 (Nat.succ_pos _)

/-- After one byte is fetched the rest of the code lies at the new `pc`. -/
theorem State.codeFrom_tail {s : State} {l : Loc} {b : Byte} {bytes : List Byte} (h : s.codeFrom l (b :: bytes)) :
    (s.setReg .pc (s.reg .pc + 1)).codeFrom l.next bytes := by
  intro k hk
  have hk1 := h (k + 1) (by rw [List.length_cons]; omega)
  have hb := (State.access_storage hk1.1).1
  have hpc : (s.reg .pc + 1).toNat = (s.reg .pc).toNat + 1 := by
    rw [BitVec.toNat_add]
    show ((s.reg .pc).toNat + 1) % 65536 = _
    omega
  rw [State.access_setReg _ _ (by decide), State.byteAt_setReg, State.reg_setReg_same, hpc]
  have e1 : (s.reg .pc).toNat + 1 + k = (s.reg .pc).toNat + (k + 1) := by omega
  have e2 : ({ l.next with offset := l.next.offset + k } : Loc) = { l with offset := l.offset + (k + 1) } := by
    simp only [Loc.next]; congr 1; omega
  rw [e1, e2]
  exact ⟨hk1.1, by simpa using hk1.2⟩

theorem State.fetch_code {s : State} {l : Loc} {b : Byte} {bytes : List Byte} (h : s.codeFrom l (b :: bytes)) :
    s.fetch = .ok b (s.setReg .pc (s.reg .pc + 1)) := by
  obtain ⟨ha, hb⟩ := State.codeFrom_head h
  rw [State.fetch, State.memRead8_storage ha, Res.bind_ok, hb]

theorem State.fetch16_code {s : State} {l : Loc} {hi lo : Byte} {bytes : List Byte}
    (h : s.codeFrom l (hi :: lo :: bytes)) :
    s.fetch16 = .ok (joinBytes hi lo) (s.setReg .pc (s.reg .pc + 2)) := by
  obtain ⟨ha, hb⟩ := State.codeFrom_head h
  have h1 := h 1 (by simp)
  have hw : s.access (s.reg .pc).toNat 2 = .ok (.storage l) := State.access_pair ha h1.1
  rw [State.fetch16, State.memRead16_storage hw, Res.bind_ok]
  have : s.wordAt l = joinBytes hi lo := by
    rw [State.wordAt, hb]
    exact congrArg _ h1.2
  rw [this]

theorem State.setReg_setReg_pc (s : State) (v w : Word) : (s.setReg .pc v).setReg .pc w = s.setReg .pc w := rfl

/-- Fetching a field that the code decodes. -/
theorem State.fetchField_code {s : State} {l : Loc} {f : Field} {bytes rest : List Byte} {o o' : Operands}
    (h : s.codeFrom l bytes) (hd : f.decode bytes o = some (o', rest)) :
    s.fetchField f o = .ok o' (s.setReg .pc (s.reg .pc + BitVec.ofNat 16 f.width)) ∧
      (s.setReg .pc (s.reg .pc + BitVec.ofNat 16 f.width)).codeFrom { l with offset := l.offset + f.width } rest := by
  have e2 : ∀ {b b' : Byte} {r : List Byte}, s.codeFrom l (b :: b' :: r) →
      (s.setReg .pc (s.reg .pc + BitVec.ofNat 16 2)).codeFrom { l with offset := l.offset + 2 } r := by
    intro b b' r hc
    have ht := State.codeFrom_tail (State.codeFrom_tail hc)
    rw [State.reg_setReg_same, State.setReg_setReg_pc] at ht
    have e : s.reg .pc + 1 + 1 = s.reg .pc + BitVec.ofNat 16 2 := by rw [BitVec.add_assoc]; rfl
    rw [e] at ht
    exact ht
  unfold Field.decode at hd
  split at hd
  · cases hd
    exact ⟨by rw [State.fetchField, State.fetch16_code h]; rfl, e2 h⟩
  · cases hd
    exact ⟨by rw [State.fetchField, State.fetch16_code h]; rfl, e2 h⟩
  · cases hd
    exact ⟨by rw [State.fetchField, State.fetchReg, State.fetch_code h]; rfl, State.codeFrom_tail h⟩
  · cases hd
    exact ⟨by rw [State.fetchField, State.fetchReg, State.fetch_code h]; rfl, State.codeFrom_tail h⟩
  · cases hd
    exact ⟨by rw [State.fetchField, State.fetch_code h]; rfl, State.codeFrom_tail h⟩
  · cases hd

/-- Fetching the fields of a layout that the code decodes (R165, R117). -/
theorem State.fetchFields_code (fs : List Field) {rest : List Byte} {o' : Operands} :
    ∀ {s : State} {l : Loc} {bytes : List Byte} {o : Operands}, s.codeFrom l bytes →
      decodeFields fs bytes o = some (o', rest) →
      s.fetchFields o fs =
        .ok o' (s.setReg .pc (s.reg .pc + BitVec.ofNat 16 (fs.map Field.width).sum)) := by
  induction fs with
  | nil =>
    intro s l bytes o _ hd
    cases hd
    simp [State.fetchFields]
  | cons f fs ih =>
    intro s l bytes o hc hd
    rw [decodeFields] at hd
    split at hd
    next o1 mid h1 =>
      obtain ⟨hf, hc'⟩ := State.fetchField_code hc h1
      rw [State.fetchFields, hf, Res.bind_ok, ih hc' hd, State.reg_setReg_same, State.setReg_setReg_pc,
        List.map_cons, List.sum_cons, BitVec.ofNat_add, BitVec.add_assoc]
    · cases hd

end Sys2Proof.Machine
end

