-- ==== Sys2Proof/Laws/Exec.lean ====
section
/-! SUPPORT. What every instruction and every step can answer: all instructions but `hlt` are one tame operation, and a step is a fetch
and then that. -/

namespace Sys2Proof.Machine

/-- Every instruction but `hlt` is the outcome of one operation that evolves the state or raises an access error. -/
theorem exec_tame (i : Instr) (s : State) :
    (∃ x : Res Unit, exec i s = x.toOutcome ∧ Res.Tame s x) ∨
      (i = .hlt ∧ exec i s = .next (s.setRunState .halted)) := by
  have reg : ∀ r v, Res.Tame s (.ok () (s.setReg r v)) := fun r v => Res.Tame.ok' (State.Evolves.setReg s r v)
  have load : ∀ a d, Res.Tame s ((s.memRead16 a).bind fun v s1 => .ok () (s1.setReg d v)) := fun a d =>
    Res.Tame.bind (s.memRead16_tame _) fun _ t _ => Res.Tame.ok' (State.Evolves.setReg t _ _)
  have jump : ∀ c v t, ∃ x : Res Unit, s.jumpIf c v t = x.toOutcome ∧ Res.Tame s x := fun c v t =>
    ⟨.ok () (if c.holds v (s.reg .acc) then s.setReg .pc t else s), rfl, by
      split
      · exact reg _ _
      · exact Res.Tame.ok' (State.Evolves.refl s)⟩
  cases i
  case hlt => exact Or.inr ⟨rfl, rfl⟩
  all_goals left
  case movImmReg => exact ⟨_, rfl, reg _ _⟩
  case movRegReg => exact ⟨_, rfl, reg _ _⟩
  case movRegMem => exact ⟨_, rfl, s.memWrite16_tame _ _⟩
  case movImmMem => exact ⟨_, rfl, s.memWrite16_tame _ _⟩
  case movMemReg => exact ⟨_, rfl, load _ _⟩
  case movRegPtrReg => exact ⟨_, rfl, load _ _⟩
  case movImmOffReg => exact ⟨_, rfl, load _ _⟩
  case pshImm => exact ⟨_, rfl, s.push_tame _⟩
  case pshReg => exact ⟨_, rfl, s.push_tame _⟩
  case popReg => exact ⟨_, rfl, Res.Tame.bind s.pop_tame fun _ t _ => Res.Tame.ok' (State.Evolves.setReg t _ _)⟩
  case calImm => exact ⟨_, rfl, Res.Tame.bind s.pushState_tame fun _ t _ => Res.Tame.ok' (State.Evolves.setReg t _ _)⟩
  case calReg => exact ⟨_, rfl, Res.Tame.bind s.pushState_tame fun _ t _ => Res.Tame.ok' (State.Evolves.setReg t _ _)⟩
  case ret => exact ⟨_, rfl, s.popState_tame⟩
  case intImm => exact ⟨_, rfl, s.requestInterrupt_tame _⟩
  case rti => exact ⟨_, rfl, s.returnFromInterrupt_tame⟩
  all_goals first | exact jump _ _ _ | exact ⟨_, rfl, reg _ _⟩

/-- Everything a step can do. -/
theorem step_cases {s : State} {o : Host.Outcome State Fault Refusal} (h : step s = o) :
    (s.runState = .halted ∧ o = .fault .engineHalted) ∨
      (∃ e, s.runState = .failed e ∧ o = .fault (.engineFailed e)) ∨
      (s.runState = .running ∧
        ((∃ i s1, s.fetchInstr = .ok (some i) s1 ∧ o = exec i s1) ∨
          (∃ s1, s.fetchInstr = .ok none s1 ∧ o = .next s1) ∨ ∃ f, s.fetchInstr = .fault f ∧ o = .fault f)) := by
  subst h
  unfold step
  cases hr : s.runState with
  | halted => simp
  | failed e => simp
  | running =>
    refine Or.inr (Or.inr ⟨rfl, ?_⟩)
    simp only [State.fetchAndExecute]
    cases hf : s.fetchInstr with
    | ok v s1 => cases v with
      | none => exact Or.inr (Or.inl ⟨s1, rfl, rfl⟩)
      | some i => exact Or.inl ⟨i, s1, rfl, rfl⟩
    | fault f => exact Or.inr (Or.inr ⟨f, rfl, rfl⟩)

end Sys2Proof.Machine
end

