-- ==== Sys2Proof/Laws/PerInstr.lean ====
section
/-! SUPPORT. The per-instruction family `Encoding`: under the default table every instruction is well-formed, is encoded in exactly its size,
and decodes back to itself with every operand value (spec 30_encoding.md R112, R115, R118). -/

namespace Sys2Proof.Laws

/-- The instruction has a row in the default table, its encoding has its size, and decoding the encoding gives the instruction and the
bytes after it. -/
def Encoding.Statement (i : Instr) : Prop :=
  i.wf OpcodeMap.default = true ∧
    ∃ bytes, encode OpcodeMap.default i = some bytes ∧ bytes.length = i.size ∧
      ∀ rest, decode OpcodeMap.default (bytes ++ rest) = .ok (i, rest)

/-- What every member rests on: a row of the default table for the pair. -/
theorem encoding_of_row {i : Instr} (row : Row) (ho : i.op = row.op)
    (hr : OpcodeMap.rowOfOp OpcodeMap.default row.op = some row)
    (hb : OpcodeMap.rowOfByte OpcodeMap.default row.opcode = some row) : Encoding.Statement i := by
  rw [← ho] at hr
  have hw : i.wf OpcodeMap.default = true :=
    List.any_eq_true.mpr ⟨row, (OpcodeMap.rowOfOp_some hr).1, by simp [ho]⟩
  refine ⟨hw, row.opcode :: encodeFields i.op.mode.layout i.operands, ?_, ?_, fun rest => ?_⟩
  · simp [encode, hr]
  · rw [List.length_cons, length_encodeFields, Instr.size, Mode.size_eq_layout]; omega
  · rw [List.cons_append, decode, hb]
    simp only [← ho, decodeFields_encodeFields, Instr.copy_operands, Instr.ofOp_operands]

theorem Encoding.movImmReg (imm : Word) (rd : Reg) : Encoding.Statement (.movImmReg imm rd) :=
  encoding_of_row ⟨.movImmReg, 0x10, 4⟩ rfl (by decide) (by decide)

theorem Encoding.movRegReg (rs : Reg) (rd : Reg) : Encoding.Statement (.movRegReg rs rd) :=
  encoding_of_row ⟨.movRegReg, 0x11, 3⟩ rfl (by decide) (by decide)

theorem Encoding.movRegMem (rs : Reg) (addr : Word) : Encoding.Statement (.movRegMem rs addr) :=
  encoding_of_row ⟨.movRegMem, 0x12, 4⟩ rfl (by decide) (by decide)

theorem Encoding.movMemReg (addr : Word) (rd : Reg) : Encoding.Statement (.movMemReg addr rd) :=
  encoding_of_row ⟨.movMemReg, 0x13, 4⟩ rfl (by decide) (by decide)

theorem Encoding.movImmMem (imm : Word) (addr : Word) : Encoding.Statement (.movImmMem imm addr) :=
  encoding_of_row ⟨.movImmMem, 0x1B, 5⟩ rfl (by decide) (by decide)

theorem Encoding.movRegPtrReg (rp : Reg) (rd : Reg) : Encoding.Statement (.movRegPtrReg rp rd) :=
  encoding_of_row ⟨.movRegPtrReg, 0x1C, 3⟩ rfl (by decide) (by decide)

theorem Encoding.movImmOffReg (imm : Word) (ri : Reg) (rd : Reg) : Encoding.Statement (.movImmOffReg imm ri rd) :=
  encoding_of_row ⟨.movImmOffReg, 0x1D, 5⟩ rfl (by decide) (by decide)

theorem Encoding.addRegReg (ra : Reg) (rb : Reg) : Encoding.Statement (.addRegReg ra rb) :=
  encoding_of_row ⟨.addRegReg, 0x14, 3⟩ rfl (by decide) (by decide)

theorem Encoding.addImmReg (imm : Word) (ra : Reg) : Encoding.Statement (.addImmReg imm ra) :=
  encoding_of_row ⟨.addImmReg, 0x3F, 4⟩ rfl (by decide) (by decide)

theorem Encoding.subImmReg (imm : Word) (ra : Reg) : Encoding.Statement (.subImmReg imm ra) :=
  encoding_of_row ⟨.subImmReg, 0x16, 4⟩ rfl (by decide) (by decide)

theorem Encoding.subRegReg (ra : Reg) (rb : Reg) : Encoding.Statement (.subRegReg ra rb) :=
  encoding_of_row ⟨.subRegReg, 0x1F, 3⟩ rfl (by decide) (by decide)

theorem Encoding.incReg (ra : Reg) : Encoding.Statement (.incReg ra) :=
  encoding_of_row ⟨.incReg, 0x35, 2⟩ rfl (by decide) (by decide)

theorem Encoding.decReg (ra : Reg) : Encoding.Statement (.decReg ra) :=
  encoding_of_row ⟨.decReg, 0x36, 2⟩ rfl (by decide) (by decide)

theorem Encoding.mulImmReg (imm : Word) (ra : Reg) : Encoding.Statement (.mulImmReg imm ra) :=
  encoding_of_row ⟨.mulImmReg, 0x20, 4⟩ rfl (by decide) (by decide)

theorem Encoding.mulRegReg (ra : Reg) (rb : Reg) : Encoding.Statement (.mulRegReg ra rb) :=
  encoding_of_row ⟨.mulRegReg, 0x21, 3⟩ rfl (by decide) (by decide)

theorem Encoding.lsfRegImm8 (ra : Reg) (n : Byte) : Encoding.Statement (.lsfRegImm8 ra n) :=
  encoding_of_row ⟨.lsfRegImm8, 0x26, 3⟩ rfl (by decide) (by decide)

theorem Encoding.lsfRegReg (ra : Reg) (rb : Reg) : Encoding.Statement (.lsfRegReg ra rb) :=
  encoding_of_row ⟨.lsfRegReg, 0x27, 3⟩ rfl (by decide) (by decide)

theorem Encoding.rsfRegImm8 (ra : Reg) (n : Byte) : Encoding.Statement (.rsfRegImm8 ra n) :=
  encoding_of_row ⟨.rsfRegImm8, 0x2A, 3⟩ rfl (by decide) (by decide)

theorem Encoding.rsfRegReg (ra : Reg) (rb : Reg) : Encoding.Statement (.rsfRegReg ra rb) :=
  encoding_of_row ⟨.rsfRegReg, 0x2B, 3⟩ rfl (by decide) (by decide)

theorem Encoding.andRegReg (ra : Reg) (rb : Reg) : Encoding.Statement (.andRegReg ra rb) :=
  encoding_of_row ⟨.andRegReg, 0x2F, 3⟩ rfl (by decide) (by decide)

theorem Encoding.orRegReg (ra : Reg) (rb : Reg) : Encoding.Statement (.orRegReg ra rb) :=
  encoding_of_row ⟨.orRegReg, 0x31, 3⟩ rfl (by decide) (by decide)

theorem Encoding.xorRegReg (ra : Reg) (rb : Reg) : Encoding.Statement (.xorRegReg ra rb) :=
  encoding_of_row ⟨.xorRegReg, 0x33, 3⟩ rfl (by decide) (by decide)

theorem Encoding.notReg (ra : Reg) : Encoding.Statement (.notReg ra) :=
  encoding_of_row ⟨.notReg, 0x34, 2⟩ rfl (by decide) (by decide)

theorem Encoding.jneImmMem (imm : Word) (target : Word) : Encoding.Statement (.jneImmMem imm target) :=
  encoding_of_row ⟨.jneImmMem, 0x15, 5⟩ rfl (by decide) (by decide)

theorem Encoding.jneRegMem (r : Reg) (target : Word) : Encoding.Statement (.jneRegMem r target) :=
  encoding_of_row ⟨.jneRegMem, 0x40, 4⟩ rfl (by decide) (by decide)

theorem Encoding.jeqImmMem (imm : Word) (target : Word) : Encoding.Statement (.jeqImmMem imm target) :=
  encoding_of_row ⟨.jeqImmMem, 0x41, 5⟩ rfl (by decide) (by decide)

theorem Encoding.jeqRegMem (r : Reg) (target : Word) : Encoding.Statement (.jeqRegMem r target) :=
  encoding_of_row ⟨.jeqRegMem, 0x3E, 4⟩ rfl (by decide) (by decide)

theorem Encoding.jltImmMem (imm : Word) (target : Word) : Encoding.Statement (.jltImmMem imm target) :=
  encoding_of_row ⟨.jltImmMem, 0x43, 5⟩ rfl (by decide) (by decide)

theorem Encoding.jltRegMem (r : Reg) (target : Word) : Encoding.Statement (.jltRegMem r target) :=
  encoding_of_row ⟨.jltRegMem, 0x42, 4⟩ rfl (by decide) (by decide)

theorem Encoding.jgtImmMem (imm : Word) (target : Word) : Encoding.Statement (.jgtImmMem imm target) :=
  encoding_of_row ⟨.jgtImmMem, 0x45, 5⟩ rfl (by decide) (by decide)

theorem Encoding.jgtRegMem (r : Reg) (target : Word) : Encoding.Statement (.jgtRegMem r target) :=
  encoding_of_row ⟨.jgtRegMem, 0x44, 4⟩ rfl (by decide) (by decide)

theorem Encoding.jleImmMem (imm : Word) (target : Word) : Encoding.Statement (.jleImmMem imm target) :=
  encoding_of_row ⟨.jleImmMem, 0x47, 5⟩ rfl (by decide) (by decide)

theorem Encoding.jleRegMem (r : Reg) (target : Word) : Encoding.Statement (.jleRegMem r target) :=
  encoding_of_row ⟨.jleRegMem, 0x46, 4⟩ rfl (by decide) (by decide)

theorem Encoding.jgeImmMem (imm : Word) (target : Word) : Encoding.Statement (.jgeImmMem imm target) :=
  encoding_of_row ⟨.jgeImmMem, 0x49, 5⟩ rfl (by decide) (by decide)

theorem Encoding.jgeRegMem (r : Reg) (target : Word) : Encoding.Statement (.jgeRegMem r target) :=
  encoding_of_row ⟨.jgeRegMem, 0x48, 4⟩ rfl (by decide) (by decide)

theorem Encoding.pshImm (imm : Word) : Encoding.Statement (.pshImm imm) :=
  encoding_of_row ⟨.pshImm, 0x17, 3⟩ rfl (by decide) (by decide)

theorem Encoding.pshReg (r : Reg) : Encoding.Statement (.pshReg r) :=
  encoding_of_row ⟨.pshReg, 0x18, 2⟩ rfl (by decide) (by decide)

theorem Encoding.popReg (r : Reg) : Encoding.Statement (.popReg r) :=
  encoding_of_row ⟨.popReg, 0x1A, 2⟩ rfl (by decide) (by decide)

theorem Encoding.calImm (target : Word) : Encoding.Statement (.calImm target) :=
  encoding_of_row ⟨.calImm, 0x5E, 3⟩ rfl (by decide) (by decide)

theorem Encoding.calReg (r : Reg) : Encoding.Statement (.calReg r) :=
  encoding_of_row ⟨.calReg, 0x5F, 2⟩ rfl (by decide) (by decide)

theorem Encoding.ret : Encoding.Statement .ret :=
  encoding_of_row ⟨.ret, 0x60, 1⟩ rfl (by decide) (by decide)

theorem Encoding.hlt : Encoding.Statement .hlt :=
  encoding_of_row ⟨.hlt, 0xFF, 1⟩ rfl (by decide) (by decide)

theorem Encoding.intImm (imm : Word) : Encoding.Statement (.intImm imm) :=
  encoding_of_row ⟨.intImm, 0xFD, 3⟩ rfl (by decide) (by decide)

theorem Encoding.rti : Encoding.Statement .rti :=
  encoding_of_row ⟨.rti, 0xFC, 1⟩ rfl (by decide) (by decide)

end Sys2Proof.Laws
end

