-- ==== Sys2Proof/Tests/Slice0.lean ====
section
/-! SUPPORT. The model's own tests: the well-formedness smoke tests, every constructor's bytes decoded, one-step tests whose expected
results are the spec's (95_test_vectors.md, the vector named in each theorem), and for each statement that has hypotheses a concrete
case that meets them. -/

namespace Sys2Proof.Tests
open Sys2Proof Sys2Proof.Machine

/-! ## Well-formedness: an ill-formed term for each check (30_encoding.md R101) -/

theorem test_wf_default : OpcodeMap.wf OpcodeMap.default = true := by decide

theorem test_wf_refuses_shared_opcode :
    OpcodeMap.opcodesDistinct [⟨.hlt, 0xFF, 1⟩, ⟨.rti, 0xFF, 1⟩] = false ∧
    OpcodeMap.wf [⟨.hlt, 0xFF, 1⟩, ⟨.rti, 0xFF, 1⟩] = false := by decide

theorem test_wf_refuses_shared_pair :
    OpcodeMap.pairsDistinct [⟨.hlt, 0xFF, 1⟩, ⟨.hlt, 0xFE, 1⟩] = false ∧
    OpcodeMap.wf [⟨.hlt, 0xFF, 1⟩, ⟨.hlt, 0xFE, 1⟩] = false := by decide

theorem test_wf_refuses_wrong_size :
    OpcodeMap.sizesMatch [⟨.incReg, 0x35, 3⟩] = false ∧ OpcodeMap.wf [⟨.incReg, 0x35, 3⟩] = false := by decide

theorem test_wf_refuses_instruction_without_row :
    Instr.wf [⟨.hlt, 0xFF, 1⟩] .rti = false ∧ encode [⟨.hlt, 0xFF, 1⟩] .rti = none := by decide

/-! ## Decoding: bytes written out from R103 and R112, for every constructor -/

theorem test_decode_move :
    decodesTo OpcodeMap.default [0x10, 0x12, 0x34, 0x02] (.movImmReg 0x1234 .r1) ∧
    decodesTo OpcodeMap.default [0x11, 0x02, 0x03] (.movRegReg .r1 .r2) ∧
    decodesTo OpcodeMap.default [0x12, 0x02, 0x01, 0x00] (.movRegMem .r1 0x0100) ∧
    decodesTo OpcodeMap.default [0x13, 0x01, 0x00, 0x03] (.movMemReg 0x0100 .r2) ∧
    decodesTo OpcodeMap.default [0x1B, 0x12, 0x34, 0x00, 0x20] (.movImmMem 0x1234 0x0020) ∧
    decodesTo OpcodeMap.default [0x1C, 0x02, 0x03] (.movRegPtrReg .r1 .r2) ∧
    decodesTo OpcodeMap.default [0x1D, 0x00, 0x10, 0x04, 0x05] (.movImmOffReg 0x0010 .r3 .r4) :=
  ⟨rfl, rfl, rfl, rfl, rfl, rfl, rfl⟩

theorem test_decode_alu :
    decodesTo OpcodeMap.default [0x14, 0x02, 0x03] (.addRegReg .r1 .r2) ∧
    decodesTo OpcodeMap.default [0x3F, 0x80, 0x00, 0x02] (.addImmReg 0x8000 .r1) ∧
    decodesTo OpcodeMap.default [0x16, 0x00, 0x01, 0x02] (.subImmReg 0x0001 .r1) ∧
    decodesTo OpcodeMap.default [0x1F, 0x02, 0x03] (.subRegReg .r1 .r2) ∧
    decodesTo OpcodeMap.default [0x35, 0x02] (.incReg .r1) ∧
    decodesTo OpcodeMap.default [0x36, 0x02] (.decReg .r1) ∧
    decodesTo OpcodeMap.default [0x20, 0x12, 0x34, 0x02] (.mulImmReg 0x1234 .r1) ∧
    decodesTo OpcodeMap.default [0x21, 0x02, 0x03] (.mulRegReg .r1 .r2) ∧
    decodesTo OpcodeMap.default [0x26, 0x02, 0x0F] (.lsfRegImm8 .r1 0x0F) ∧
    decodesTo OpcodeMap.default [0x27, 0x02, 0x03] (.lsfRegReg .r1 .r2) ∧
    decodesTo OpcodeMap.default [0x2A, 0x02, 0x0F] (.rsfRegImm8 .r1 0x0F) ∧
    decodesTo OpcodeMap.default [0x2B, 0x02, 0x03] (.rsfRegReg .r1 .r2) ∧
    decodesTo OpcodeMap.default [0x2F, 0x02, 0x03] (.andRegReg .r1 .r2) ∧
    decodesTo OpcodeMap.default [0x31, 0x02, 0x03] (.orRegReg .r1 .r2) ∧
    decodesTo OpcodeMap.default [0x33, 0x02, 0x03] (.xorRegReg .r1 .r2) ∧
    decodesTo OpcodeMap.default [0x34, 0x01] (.notReg .acc) :=
  ⟨rfl, rfl, rfl, rfl, rfl, rfl, rfl, rfl, rfl, rfl, rfl, rfl, rfl, rfl, rfl, rfl⟩

theorem test_decode_jump :
    decodesTo OpcodeMap.default [0x15, 0x00, 0x05, 0x01, 0x40] (.jneImmMem 0x0005 0x0140) ∧
    decodesTo OpcodeMap.default [0x40, 0x02, 0x01, 0x40] (.jneRegMem .r1 0x0140) ∧
    decodesTo OpcodeMap.default [0x41, 0x00, 0x05, 0x01, 0x40] (.jeqImmMem 0x0005 0x0140) ∧
    decodesTo OpcodeMap.default [0x3E, 0x02, 0x01, 0x40] (.jeqRegMem .r1 0x0140) ∧
    decodesTo OpcodeMap.default [0x43, 0x00, 0x05, 0x01, 0x40] (.jltImmMem 0x0005 0x0140) ∧
    decodesTo OpcodeMap.default [0x42, 0x02, 0x01, 0x40] (.jltRegMem .r1 0x0140) ∧
    decodesTo OpcodeMap.default [0x45, 0x00, 0x05, 0x01, 0x40] (.jgtImmMem 0x0005 0x0140) ∧
    decodesTo OpcodeMap.default [0x44, 0x02, 0x01, 0x40] (.jgtRegMem .r1 0x0140) ∧
    decodesTo OpcodeMap.default [0x47, 0x00, 0x05, 0x01, 0x40] (.jleImmMem 0x0005 0x0140) ∧
    decodesTo OpcodeMap.default [0x46, 0x02, 0x01, 0x40] (.jleRegMem .r1 0x0140) ∧
    decodesTo OpcodeMap.default [0x49, 0x00, 0x05, 0x01, 0x40] (.jgeImmMem 0x0005 0x0140) ∧
    decodesTo OpcodeMap.default [0x48, 0x02, 0x01, 0x40] (.jgeRegMem .r1 0x0140) :=
  ⟨rfl, rfl, rfl, rfl, rfl, rfl, rfl, rfl, rfl, rfl, rfl, rfl⟩

theorem test_decode_stack :
    decodesTo OpcodeMap.default [0x17, 0x00, 0x2A] (.pshImm 0x002A) ∧
    decodesTo OpcodeMap.default [0x18, 0x0A] (.pshReg .sp) ∧
    decodesTo OpcodeMap.default [0x1A, 0x0B] (.popReg .fp) ∧
    decodesTo OpcodeMap.default [0x5E, 0x01, 0x00] (.calImm 0x0100) ∧
    decodesTo OpcodeMap.default [0x5F, 0x04] (.calReg .r3) ∧
    decodesTo OpcodeMap.default [0x60] .ret := ⟨rfl, rfl, rfl, rfl, rfl, rfl⟩

theorem test_decode_system :
    decodesTo OpcodeMap.default [0xFF] .hlt ∧
    decodesTo OpcodeMap.default [0xFD, 0x00, 0x13] (.intImm 0x0013) ∧
    decodesTo OpcodeMap.default [0xFC] .rti := ⟨rfl, rfl, rfl⟩

/-- Register bytes 0 to 13 are the registers in ordinal order, and 14 and up wrap (R21, R22). -/
theorem test_decode_register_bytes :
    [(0 : Byte), 1, 2, 3, 4, 5, 6, 7, 8, 9, 10, 11, 12, 13, 14, 255].map Reg.ofByte =
      [.pc, .acc, .r1, .r2, .r3, .r4, .r5, .r6, .r7, .r8, .sp, .fp, .im, .mb, .pc, .r2] := by decide

theorem test_decode_refusals :
    decode OpcodeMap.default [0x07] = .error (.unassignedOpcode 0x07) ∧
    decode OpcodeMap.default [0x10, 0x12, 0x34] = .error .truncated := ⟨rfl, rfl⟩

/-- The host's numbering: `mov $1234, r1` as a number, its first byte lowest. -/
theorem test_decodeTableWord : decodeTableWord 32 0x02341210 = some (.movImmReg 0x1234 .r1) := by decide

/-! ## One step -/

/-- Write registers in order. -/
def setRegs (s : State) (rs : List (Reg × Word)) : State := rs.foldl (fun t p => t.setReg p.1 p.2) s

/-- The reset state with the named registers set, `pc` at 0x0010 before that, and the bytes at 0x0010 (the vectors' setting). -/
def at10 (bytes : List Byte) (rs : List (Reg × Word)) : State :=
  (setRegs (State.reset.setReg .pc 0x0010) rs).load (flatLoc 0x0010) bytes

/-- The outcome is exactly the next state given. -/
def isNext (o : Host.Outcome State Fault Refusal) (t : State) : Bool :=
  match o with
  | .next u => u == t
  | _ => false

/-- The outcome is the fault given, with nothing emitted. -/
def failsWith (o : Host.Outcome State Fault Refusal) (e : EngineError) : Bool :=
  match o with
  | .fault f => f == .failed e []
  | _ => false

/-- One step of the bytes at 0x0010 changes exactly the named registers. -/
def runs (bytes : List Byte) (before changes : List (Reg × Word)) : Bool :=
  isNext (step (at10 bytes before)) (at10 bytes (before ++ changes))

theorem test_withFetchWord : isNext (step (State.reset.withFetchWord 32 0x02341210))
    (setRegs (State.reset.withFetchWord 32 0x02341210) [(.r1, 0x1234), (.pc, 0x0004)]) = true := by decide +kernel

/-! ### Move -/

theorem test_V1_movImmReg : runs [0x10, 0x12, 0x34, 0xFF] [] [(.r2, 0x1234), (.pc, 0x0014)] = true := by decide
theorem test_V2_movImmReg_pc : runs [0x10, 0x00, 0x40, 0x0E] [] [(.pc, 0x0040)] = true := by decide
theorem test_V3_movRegReg_from_pc : runs [0x11, 0x00, 0x02] [] [(.r1, 0x0013), (.pc, 0x0013)] = true := by decide
theorem test_V4_movRegReg_to_pc : runs [0x11, 0x02, 0x00] [(.r1, 0x1234)] [(.pc, 0x1234)] = true := by decide

theorem test_V5_movRegMem : isNext (step (at10 [0x12, 0x02, 0xFF, 0xFE] [(.r1, 0xBEEF)]))
    ((at10 [0x12, 0x02, 0xFF, 0xFE] [(.r1, 0xBEEF), (.pc, 0x0014)]).load (flatLoc 0xFFFE) [0xBE, 0xEF]) = true := by decide

theorem test_V8_movRegMem_own_bytes : isNext (step (at10 [0x12, 0x02, 0x00, 0x11] [(.r1, 0xBEEF)]))
    (at10 [0x12, 0xBE, 0xEF, 0x11] [(.r1, 0xBEEF), (.pc, 0x0014)]) = true := by decide

theorem test_V7_movMemReg_overflow :
    failsWith (step (at10 [0x13, 0xFF, 0xFF, 0x02] [])) (.addressOverflow 0xFFFF) = true := by decide

/-- R183's example. -/
theorem test_movMemReg : isNext (step ((at10 [0x13, 0x01, 0x00, 0x03] []).load (flatLoc 0x0100) [0xBE, 0xEF]))
    ((at10 [0x13, 0x01, 0x00, 0x03] [(.r2, 0xBEEF), (.pc, 0x0014)]).load (flatLoc 0x0100) [0xBE, 0xEF]) = true := by decide

/-- R184's example. -/
theorem test_movImmMem : isNext (step (at10 [0x1B, 0x12, 0x34, 0x00, 0x20] []))
    ((at10 [0x1B, 0x12, 0x34, 0x00, 0x20] [(.pc, 0x0015)]).load (flatLoc 0x0020) [0x12, 0x34]) = true := by decide

theorem test_V9_movRegPtrReg_same : isNext
    (step ((at10 [0x1C, 0x02, 0x02] [(.r1, 0x0100)]).load (flatLoc 0x0100) [0xAB, 0xCD]))
    ((at10 [0x1C, 0x02, 0x02] [(.r1, 0xABCD), (.pc, 0x0013)]).load (flatLoc 0x0100) [0xAB, 0xCD]) = true := by decide

theorem test_V12_movImmOffReg_highest : isNext
    (step ((at10 [0x1D, 0xFF, 0x00, 0x02, 0x03] [(.r1, 0x00FE)]).load (flatLoc 0xFFFE) [0x11, 0x22]))
    ((at10 [0x1D, 0xFF, 0x00, 0x02, 0x03] [(.r1, 0x00FE), (.r2, 0x1122), (.pc, 0x0015)]).load (flatLoc 0xFFFE) [0x11, 0x22])
      = true := by decide

theorem test_V13_movImmOffReg_overflow :
    failsWith (step (at10 [0x1D, 0xFF, 0xFF, 0x02, 0x03] [(.r1, 0x0001)])) (.addressOverflow 0x10000) = true := by decide

/-! ### ALU -/

theorem test_V20_addRegReg :
    runs [0x14, 0x02, 0x03] [(.r1, 0xFFFF), (.r2, 0x0001)] [(.acc, 0x0000), (.pc, 0x0013)] = true := by decide
theorem test_V21_addRegReg_acc : runs [0x14, 0x01, 0x01] [(.acc, 0x4000)] [(.acc, 0x8000), (.pc, 0x0013)] = true := by decide
theorem test_V22_addImmReg :
    runs [0x3F, 0x80, 0x00, 0x02] [(.r1, 0x8000), (.acc, 0x0001)] [(.acc, 0x0000), (.pc, 0x0014)] = true := by decide
theorem test_V23_subImmReg : runs [0x16, 0x00, 0x01, 0x02] [(.r1, 0x0000)] [(.acc, 0xFFFF), (.pc, 0x0014)] = true := by decide
theorem test_V24_subRegReg :
    runs [0x1F, 0x02, 0x03] [(.r1, 0x0001), (.r2, 0x0002)] [(.acc, 0xFFFF), (.pc, 0x0013)] = true := by decide
theorem test_V25_incReg : runs [0x35, 0x02] [(.r1, 0xFFFF)] [(.acc, 0x0000), (.pc, 0x0012)] = true := by decide
theorem test_V27_decReg : runs [0x36, 0x02] [(.r1, 0x0000)] [(.acc, 0xFFFF), (.pc, 0x0012)] = true := by decide
theorem test_V28_mulImmReg :
    runs [0x20, 0xFF, 0xFF, 0x02] [(.r1, 0xFFFF)] [(.acc, 0x0001), (.pc, 0x0014)] = true := by decide
theorem test_V29_mulRegReg :
    runs [0x21, 0x02, 0x02] [(.r1, 0x0100), (.acc, 0x0005)] [(.acc, 0x0000), (.pc, 0x0013)] = true := by decide
theorem test_V30_lsfRegImm8 : runs [0x26, 0x02, 0x0F] [(.r1, 0x0003)] [(.acc, 0x8000), (.pc, 0x0013)] = true := by decide
theorem test_V33_lsfRegImm8_count_33 :
    runs [0x26, 0x02, 0x21] [(.r1, 0x1234)] [(.acc, 0x2468), (.pc, 0x0013)] = true := by decide
theorem test_V34_lsfRegReg :
    runs [0x27, 0x02, 0x03] [(.r1, 0x0001), (.r2, 0x0021)] [(.acc, 0x0002), (.pc, 0x0013)] = true := by decide
theorem test_V35_rsfRegImm8_logical : runs [0x2A, 0x02, 0x0F] [(.r1, 0x8000)] [(.acc, 0x0001), (.pc, 0x0013)] = true := by decide
theorem test_V36_rsfRegImm8_count_16 :
    runs [0x2A, 0x02, 0x10] [(.r1, 0xFFFF), (.acc, 0x0007)] [(.acc, 0x0000), (.pc, 0x0013)] = true := by decide
theorem test_V38_rsfRegReg :
    runs [0x2B, 0x02, 0x03] [(.r1, 0x8000), (.r2, 0x0001)] [(.acc, 0x4000), (.pc, 0x0013)] = true := by decide
theorem test_V39_andRegReg :
    runs [0x2F, 0x02, 0x03] [(.r1, 0xFF0F), (.r2, 0x0FF0)] [(.acc, 0x0F00), (.pc, 0x0013)] = true := by decide
theorem test_V40_orRegReg :
    runs [0x31, 0x02, 0x03] [(.r1, 0xF000), (.r2, 0x000F)] [(.acc, 0xF00F), (.pc, 0x0013)] = true := by decide
theorem test_V41_xorRegReg : runs [0x33, 0x01, 0x01] [(.acc, 0x1234)] [(.acc, 0x0000), (.pc, 0x0013)] = true := by decide
theorem test_V42_notReg : runs [0x34, 0x01] [(.acc, 0x0F0F)] [(.acc, 0xF0F0), (.pc, 0x0012)] = true := by decide

/-- A state with `ALU_INPLACE` naming some instructions. -/
def inplace (ops : List InplaceOp) (s : State) : State := { s with config := { s.config with aluInplace := ops } }

theorem test_V43_incReg_inplace : isNext (step (inplace [.incReg] (at10 [0x35, 0x02] [(.r1, 0x0041)])))
    (inplace [.incReg] (at10 [0x35, 0x02] [(.r1, 0x0042), (.pc, 0x0012)])) = true := by decide

/-! ### Conditional jumps -/

theorem test_V50_jneImmMem : runs [0x15, 0x00, 0x05, 0x00, 0x40] [(.acc, 0x0005)] [(.pc, 0x0015)] = true := by decide
theorem test_R232_jneImmMem_taken : runs [0x15, 0x00, 0x05, 0x00, 0x40] [(.acc, 0x0002)] [(.pc, 0x0040)] = true := by decide
theorem test_V51_jneRegMem_acc : runs [0x40, 0x01, 0x00, 0x40] [(.acc, 0x0005)] [(.pc, 0x0014)] = true := by decide
theorem test_V52_jeqImmMem : runs [0x41, 0x00, 0x05, 0x00, 0x40] [(.acc, 0x0005)] [(.pc, 0x0040)] = true := by decide
theorem test_V53_jeqRegMem_pc : runs [0x3E, 0x00, 0x00, 0x40] [(.acc, 0x0014)] [(.pc, 0x0040)] = true := by decide
theorem test_V54_jltImmMem : runs [0x43, 0x00, 0x01, 0x00, 0x40] [(.acc, 0xFFFF)] [(.pc, 0x0040)] = true := by decide
theorem test_V55_jltRegMem :
    runs [0x42, 0x02, 0x00, 0x40] [(.r1, 0xFFFF), (.acc, 0x0001)] [(.pc, 0x0014)] = true := by decide
theorem test_V56_jgtImmMem : runs [0x45, 0xFF, 0xFF, 0x00, 0x40] [] [(.pc, 0x0040)] = true := by decide
theorem test_V57_jgtRegMem :
    runs [0x44, 0x02, 0x00, 0x40] [(.r1, 0x0003), (.acc, 0x0003)] [(.pc, 0x0014)] = true := by decide
theorem test_V58_jleImmMem : runs [0x47, 0x00, 0x03, 0x00, 0x40] [(.acc, 0x0003)] [(.pc, 0x0040)] = true := by decide
theorem test_V59_jleRegMem :
    runs [0x46, 0x02, 0x00, 0x40] [(.r1, 0x8000), (.acc, 0x7FFF)] [(.pc, 0x0014)] = true := by decide
theorem test_V60_jgeImmMem : runs [0x49, 0x00, 0x02, 0x00, 0x40] [(.acc, 0x0003)] [(.pc, 0x0015)] = true := by decide
theorem test_V61_jgeRegMem_acc : runs [0x48, 0x01, 0x00, 0x40] [(.acc, 0x1234)] [(.pc, 0x0040)] = true := by decide

/-! ### Stack and call -/

/-- A state with another frame-size counter, in-handler flag, or both. -/
def withHidden (f : Word) (h : Bool) (s : State) : State := (s.setFrameSize f).setHandler h

theorem test_V70_pshImm_overflow :
    failsWith (step (at10 [0x17, 0x00, 0x2A] [(.sp, 0xFFFF)])) (.addressOverflow 0xFFFF) = true := by decide

theorem test_V71_pshImm_wraps : isNext (step (at10 [0x17, 0x00, 0x2A] [(.sp, 0x0000)]))
    (withHidden 0x0002 false ((at10 [0x17, 0x00, 0x2A] [(.sp, 0xFFFE), (.pc, 0x0013)]).load (flatLoc 0x0000) [0x00, 0x2A]))
      = true := by decide

theorem test_V73_pshReg_sp : isNext (step (at10 [0x18, 0x0A] []))
    (withHidden 0x0002 false ((at10 [0x18, 0x0A] [(.sp, 0xFFFC), (.pc, 0x0012)]).load (flatLoc 0xFFFE) [0xFF, 0xFE]))
      = true := by decide

theorem test_V74_pshReg_pc : isNext (step (at10 [0x18, 0x00] []))
    (withHidden 0x0002 false ((at10 [0x18, 0x00] [(.sp, 0xFFFC), (.pc, 0x0012)]).load (flatLoc 0xFFFE) [0x00, 0x12]))
      = true := by decide

theorem test_V76_popReg_overflow :
    failsWith (step (at10 [0x1A, 0x02] [(.sp, 0xFFFD)])) (.addressOverflow 0xFFFF) = true := by decide

theorem test_V77_popReg_sp : isNext
    (step (withHidden 0x0002 false ((at10 [0x1A, 0x0A] [(.sp, 0xFFFC)]).load (flatLoc 0xFFFE) [0x80, 0x00])))
    (withHidden 0x0000 false ((at10 [0x1A, 0x0A] [(.sp, 0x8000), (.pc, 0x0012)]).load (flatLoc 0xFFFE) [0x80, 0x00]))
      = true := by decide

theorem test_V80_calImm_overflow :
    failsWith (step (at10 [0x5E, 0x01, 0x00] [(.sp, 0x0011)])) (.addressOverflow 0xFFFF) = true := by decide

theorem test_V79_calReg_pc : isNext (step (at10 [0x5F, 0x00] []))
    ((at10 [0x5F, 0x00] [(.sp, 0xFFEA), (.fp, 0xFFEA), (.pc, 0x0012)]).load (flatLoc 0xFFEC) [0x00, 0x14, 0x00, 0x12])
      = true := by decide +kernel

/-- R263's example, with the values of P3 in r1 to r8 made distinct. -/
theorem test_R263_calImm : isNext
    (step (withHidden 0x0004 false (at10 [0x5E, 0x01, 0x00] [(.sp, 0xFFFA), (.r1, 0x1111), (.r2, 0x2222), (.r8, 0x8888)])))
    ((at10 [0x5E, 0x01, 0x00]
        [(.r1, 0x1111), (.r2, 0x2222), (.r8, 0x8888), (.sp, 0xFFE6), (.fp, 0xFFE6), (.pc, 0x0100)]).load (flatLoc 0xFFE8)
      [0x00, 0x18, 0x00, 0x13, 0x88, 0x88, 0x00, 0x00, 0x00, 0x00, 0x00, 0x00, 0x00, 0x00, 0x00, 0x00, 0x22, 0x22, 0x11, 0x11])
      = true := by decide +kernel

theorem test_V81_ret_overflow :
    failsWith (step (at10 [0x60] [(.sp, 0xFFFD), (.fp, 0xFFFD)])) (.addressOverflow 0xFFFF) = true := by decide

/-- The state of V97 and V98: a frame at 0xFFE8. -/
def framed (opcode : Byte) (rs : List (Reg × Word)) : State :=
  (at10 [opcode] rs).load (flatLoc 0xFFEA) [0x00, 0x16, 0x00, 0x13]

theorem test_V98_ret_in_handler :
    isNext (step (withHidden 0x0000 true (framed 0x60 [(.sp, 0xFFE8), (.fp, 0xFFE8)])))
      (withHidden 0x0002 true (framed 0x60 [(.sp, 0xFFFE), (.fp, 0xFFFE), (.pc, 0x0013)])) = true := by decide

/-! ### System and interrupts -/

theorem test_V90_hlt :
    isNext (step (at10 [0xFF] [])) ((at10 [0xFF] [(.pc, 0x0011)]).setRunState .halted) = true := by decide

theorem test_V94_intImm_masked : runs [0xFD, 0x00, 0x13] [(.im, 0xFFF7)] [(.pc, 0x0013)] = true := by decide

theorem test_V95_intImm : isNext (step ((at10 [0xFD, 0x00, 0x13] []).load (flatLoc 0x1006) [0x02, 0x00]))
    (withHidden 0x0000 true
      (((at10 [0xFD, 0x00, 0x13] [(.sp, 0xFFE8), (.fp, 0xFFE8), (.pc, 0x0200)]).load (flatLoc 0x1006) [0x02, 0x00]).load
        (flatLoc 0xFFEA) [0x00, 0x16, 0x00, 0x13])) = true := by decide

theorem test_V97_rti : isNext (step (framed 0xFC [(.sp, 0xFFE8), (.fp, 0xFFE8)]))
    (withHidden 0x0002 false (framed 0xFC [(.sp, 0xFFFE), (.fp, 0xFFFE), (.pc, 0x0013)])) = true := by decide

theorem test_P4_rti_clears_H : isNext (step (withHidden 0x0000 true (framed 0xFC [(.sp, 0xFFE8), (.fp, 0xFFE8)])))
    (withHidden 0x0002 false (framed 0xFC [(.sp, 0xFFFE), (.fp, 0xFFFE), (.pc, 0x0013)])) = true := by decide

theorem test_V91_illegal_opcode : failsWith (step (at10 [0x07] [])) (.illegalOpcode 0x07 0x0010) = true := by decide

/-- V99: the vector slot above the address space. -/
theorem test_V99_vector_overflow :
    ((({ State.reset with config := { defaultConfig with ivtBase := 0xFFF0 } } : State).hostInterrupt 0x000F).2
      == some (.addressOverflow 0x1000E)) = true := by decide

theorem test_V101_masked_host_request :
    ((at10 [] [(.im, 0x0000)]).hostInterrupt 3 == (at10 [] [(.im, 0x0000)], none)) = true := by decide

theorem test_V110_straddling_top : isNext (step ((State.reset.setReg .pc 0xFFFF).load (flatLoc 0xFFFF) [0x35] |>.load (flatLoc 0) [0x02]))
    (((setRegs State.reset [(.acc, 0x0001), (.pc, 0x0001)]).load (flatLoc 0xFFFF) [0x35]).load (flatLoc 0) [0x02]) = true := by decide

theorem test_V111_fetch16_at_top :
    failsWith (step ((State.reset.setReg .pc 0xFFFE).load (flatLoc 0xFFFE) [0x10])) (.addressOverflow 0xFFFF) = true := by decide

/-! ### Memory mapper and devices -/

/-- The reset state with a second device mapped last over an inclusive range. -/
def platform (d : Device) (start stop : Nat) (remap : Bool) : State :=
  (({ State.reset with devices := defaultDevices ++ [d] } : State).map 1 start stop remap).1

/-- M5's bank device: `BANK_COUNT` = 4, `BANK_SIZE` = 0x100. -/
def bankPlatform : State := platform (.bank 0x100 [Memory.empty, Memory.empty, Memory.empty, Memory.empty]) 0x8000 0x80FF true

/-- M6's sink. -/
def sinkPlatform : State := platform .ioSink 0xC000 0xC0FF true

/-- An object of 0x100 bytes (R61) at 0xD000. -/
def objectPlatform : State := platform (.object 7 0x100 0) 0xD000 0xD0FF true

/-- M4's platform: RAM in the lower half only. -/
def halfPlatform : State := { State.reset with regions := [{ token := 0, device := 0, start := 0, stop := 0x7FFF, remap := true }] }

theorem test_M1_shadowing :
    (platform (.ram 256 Memory.empty) 0x3000 0x30FF true).access 0x3010 2 = .ok (.storage ⟨1, 0, 0x10⟩) ∧
    (platform (.ram 256 Memory.empty) 0x3000 0x30FF true).access 0x2FFF 1 = .ok (.storage ⟨0, 0, 0x2FFF⟩) ∧
    ((platform (.ram 256 Memory.empty) 0x3000 0x30FF true).unmap 1).access 0x3010 2 = .ok (.storage ⟨0, 0, 0x3010⟩) :=
  ⟨rfl, rfl, rfl⟩

theorem test_M2_no_remap :
    (platform (.ram 256 Memory.empty) 0x8000 0x80FF false).access 0x8000 1 = .error (.deviceRange 0x8000) := rfl

/-- M3's shape over the default RAM: the region holds the first byte, the storage does not hold the second. -/
theorem test_M3_second_byte_outside :
    (platform (.ram 256 Memory.empty) 0x0000 0x00FF true).access 0x00FF 2 = .error (.deviceRange 0x00FF) := rfl

theorem test_M4_no_region :
    failsWith (exec (.pshImm 1) halfPlatform) (.noRegion 0xFFFE) = true := by decide

theorem test_M5_banks :
    isNext (exec (.movImmMem 0x1234 0x8010) (bankPlatform.setReg .mb 1))
      ((bankPlatform.setReg .mb 1).load ⟨1, 1, 0x10⟩ [0x12, 0x34]) = true ∧
    (((bankPlatform.load ⟨1, 1, 0x10⟩ [0x12, 0x34]).setReg .mb 5).access 0x8010 2 = .ok (.storage ⟨1, 1, 0x10⟩)) := by
  exact ⟨by decide, rfl⟩

theorem test_M6_sink : isNext (exec (.movImmMem 0x4142 0xC004) sinkPlatform)
    (sinkPlatform.emit { device := 1, offset := 0x0004, value := 0x4142 }) = true := by decide

/-- An image longer than its device: the byte past the storage is left out (log entry 25). -/
theorem test_load_stops_at_the_storage :
    (bankPlatform.load ⟨1, 3, 0xFF⟩ [0x12, 0x34] == bankPlatform.load ⟨1, 3, 0xFF⟩ [0x12]) = true := by decide

/-! ### The host's registers by name -/

/-- I16: an unknown name is an engine error, and a running engine is failed for it (log entry 23). -/
theorem test_I16_unknown_name :
    (State.reset.hostSet "r9" 1).1.runState = .failed (.unknownRegisterName "r9") ∧
    (State.reset.hostGet "r9").1.runState = .failed (.unknownRegisterName "r9") := ⟨rfl, rfl⟩

/-! ### The assembler -/

/-- What a source text assembles to under the default table is the image given. -/
def assembles (text : String) (image : List Byte) : Bool :=
  match assemble OpcodeMap.default text with
  | .ok bytes => bytes == image
  | .error _ => false

/-- The source text fails to assemble with the error given. -/
def asmFails (text : String) (e : AsmError) : Bool :=
  match assemble OpcodeMap.default text with
  | .ok _ => false
  | .error f => f == e

theorem test_S1_precedence : assembles "mov [$1 + $2 * $3], r1" [0x10, 0x00, 0x07, 0x02] = true := by decide +kernel
theorem test_A4_ties : assembles "mov [$1 - $2 * $3 + $4], r1" [0x10, 0xFF, 0xF7, 0x02] = true := by decide +kernel
theorem test_A9_duplicate_name : asmFails "a: a: hlt" (.duplicate ['a']) = true := by decide +kernel
theorem test_A11_unresolved : asmFails "mov !nowhere, r1" (.unresolved "nowhere".toList) = true := by decide +kernel
theorem test_A12_case : assembles "MOV $0001, R1" [0x10, 0x00, 0x01, 0x02] = true := by decide +kernel
theorem test_A13_longest_form : assembles "mov $0010, r3, r4" [0x1D, 0x00, 0x10, 0x04, 0x05] = true := by decide +kernel
theorem test_A14_missing_comma : asmFails "mov $1234 r1" (.parse 9 ",") = true := by decide +kernel
theorem test_P5_forward_loop : assembles "start:\nmov $0000, acc\nloop:\nadd $0001, acc\njne $0003, &[!loop]\nhlt\n"
    [0x10, 0x00, 0x00, 0x01, 0x3F, 0x00, 0x01, 0x01, 0x15, 0x00, 0x03, 0x00, 0x04, 0xFF] = true := by decide +kernel

/-! ## Witnesses: a concrete case that meets the hypotheses of each statement that has some -/

/-- The state an outcome goes on with. -/
def after (o : Host.Outcome State Fault Refusal) : State :=
  match o with
  | .next t => t
  | _ => State.reset

/-- The state an operation answers. -/
def afterOp (x : Res Unit) : State :=
  match x with
  | .ok _ t => t
  | _ => State.reset

theorem reset_flat : State.reset.flat := ⟨rfl, rfl⟩

/-- Storage reached beside another object: eleven stack words of `objectPlatform`, and its vector slot 3. -/
theorem witness_sameObjects :
    objectPlatform.devices[1]? = some (.object 7 0x100 0) ∧
    objectPlatform.roomFor 11 (fun k => flatLoc (0xFFFE - 2 * k)) ∧
    objectPlatform.access (objectPlatform.config.ivtBase.toNat + 2 * ((3 : Word).toNat % 16)) 2 = .ok (.storage (flatLoc 0x1006)) := by
  refine ⟨rfl, ⟨?_, ?_⟩, by decide⟩ <;> decide

theorem witness_EncodedInstructionDecodesBack :
    OpcodeMap.wf OpcodeMap.default = true ∧ Instr.wf OpcodeMap.default (.movImmOffReg 0xFFFF .mb .pc) = true := by decide

/-- An unassigned byte; a row met by exactly its size; a string one byte short. -/
theorem witness_DecodeReadsTheRowsSize :
    OpcodeMap.wf OpcodeMap.default = true ∧ OpcodeMap.rowOfByte OpcodeMap.default 0x1E = none ∧
    OpcodeMap.rowOfByte OpcodeMap.default 0x1B = some ⟨.movImmMem, 0x1B, 5⟩ ∧
    5 ≤ [(0x1B : Byte), 1, 2, 3, 4].length ∧ [(0x1B : Byte), 1, 2, 3].length < 5 := by decide

/-- The highest register byte and the lowest that is equal to it modulo 14, and a row of each mode with a register byte. -/
theorem witness_RegisterBytesAreReduced :
    (0xFF : Byte).toNat % 14 = (0x03 : Byte).toNat % 14 ∧ (0x0E : Byte).toNat % 14 = (0x00 : Byte).toNat % 14 ∧
    OpcodeMap.rowOfByte OpcodeMap.default 0x35 = some ⟨.incReg, 0x35, 2⟩ ∧ Op.incReg.mode = .reg ∧
    OpcodeMap.rowOfByte OpcodeMap.default 0x10 = some ⟨.movImmReg, 0x10, 4⟩ ∧ Op.movImmReg.mode = .immReg ∧
    OpcodeMap.rowOfByte OpcodeMap.default 0x26 = some ⟨.lsfRegImm8, 0x26, 3⟩ ∧ Op.lsfRegImm8.mode = .regImm8 ∧
    OpcodeMap.rowOfByte OpcodeMap.default 0x12 = some ⟨.movRegMem, 0x12, 4⟩ ∧ Op.movRegMem.mode = .regMem ∧
    OpcodeMap.rowOfByte OpcodeMap.default 0x13 = some ⟨.movMemReg, 0x13, 4⟩ ∧ Op.movMemReg.mode = .memReg ∧
    OpcodeMap.rowOfByte OpcodeMap.default 0x11 = some ⟨.movRegReg, 0x11, 3⟩ ∧ Op.movRegReg.mode = .regReg ∧
    OpcodeMap.rowOfByte OpcodeMap.default 0x1C = some ⟨.movRegPtrReg, 0x1C, 3⟩ ∧ Op.movRegPtrReg.mode = .regPtrReg ∧
    OpcodeMap.rowOfByte OpcodeMap.default 0x1D = some ⟨.movImmOffReg, 0x1D, 5⟩ ∧ Op.movImmOffReg.mode = .immOffReg := by decide

theorem witness_RegisterByteModulo14 :
    (State.reset.setReg .pc 0xFFFF).access ((State.reset.setReg .pc 0xFFFF).reg .pc).toNat 1 = .ok (.storage (flatLoc 0xFFFF)) ∧
    (State.reset.setReg .pc 0xFFFF).byteAt (flatLoc 0xFFFF) = 0x00 := ⟨rfl, rfl⟩

/-- Storage at the highest address, a sink, an object at its highest word, and no region. -/
theorem witness_StoresToMemory :
    State.reset.access (0xFFFE : Word).toNat 2 = .ok (.storage (flatLoc 0xFFFE)) ∧
    sinkPlatform.access (0xC0FF : Word).toNat 2 = .ok (.sink 1 0xFF) ∧
    objectPlatform.access (0xD0FE : Word).toNat 2 = .ok (.object 1 0xFE) ∧
    halfPlatform.access (0x8000 : Word).toNat 2 = .error (.noRegion 0x8000) := ⟨rfl, rfl, by decide, rfl⟩

/-- The same for loads through an address, a pointer register, and base plus index. -/
theorem witness_LoadsFromMemory :
    State.reset.access (0xFFFE : Word).toNat 2 = .ok (.storage (flatLoc 0xFFFE)) ∧
    sinkPlatform.access (0xC000 : Word).toNat 2 = .ok (.sink 1 0) ∧
    objectPlatform.access (0xD000 : Word).toNat 2 = .ok (.object 1 0) ∧
    State.reset.access (State.reset.reg .sp).toNat 2 = .ok (.storage (flatLoc 0xFFFE)) ∧
    State.reset.access ((0xFF00 : Word).toNat + ((State.reset.setReg .r1 0x00FE).reg .r1).toNat) 2 = .ok (.storage (flatLoc 0xFFFE)) ∧
    halfPlatform.access (0x8000 : Word).toNat 2 = .error (.noRegion 0x8000) := ⟨rfl, rfl, by decide, rfl, rfl, rfl⟩

/-- A pointer at the top, and the lowest sum that overflows. -/
theorem witness_DataAccessOverflows :
    (State.reset.setReg .r1 0xFFFF).reg .r1 = 0xFFFF ∧
    (0xFFFE : Word).toNat + ((State.reset.setReg .r1 0x0001).reg .r1).toNat > 0xFFFE := by decide

/-- Each clause at a boundary: the second byte above 0xFFFF; above the last region; the first and the last byte of a region. -/
theorem witness_AccessIsRouted :
    0xFFFF + 2 - 1 > 0xFFFF ∧
    (0x8000 + 2 - 1 ≤ 0xFFFF ∧ ∀ r ∈ halfPlatform.regions, ¬ (r.start ≤ 0x8000 ∧ 0x8000 ≤ r.stop)) ∧
    (∃ r, sinkPlatform.regions = [] ++ r :: defaultRegions ∧ (∀ q ∈ ([] : List Region), ¬ (q.start ≤ 0xC0FF ∧ 0xC0FF ≤ q.stop)) ∧
      r.start ≤ 0xC000 ∧ r.start ≤ 0xC0FF ∧ 0xC0FF ≤ r.stop) ∧
    (∃ q r, sinkPlatform.regions = [q] ++ r :: [] ∧ ¬ (q.start ≤ 0xFFFE ∧ 0xFFFE ≤ q.stop) ∧ r.start ≤ 0xFFFE ∧ 0xFFFE ≤ r.stop) :=
  ⟨by decide, by decide, ⟨_, rfl, by decide, by decide, by decide, by decide⟩, ⟨_, _, rfl, by decide, by decide, by decide⟩⟩

/-- The last word inside a storage and the first outside it, for a RAM, a bank device and an object; a sink. -/
theorem witness_DevicesAnswer :
    State.reset.devices[0]? = some (.ram 65536 Memory.empty) ∧ 65534 + 2 ≤ 65536 ∧ 65536 < 65535 + 2 ∧
    bankPlatform.devices[1]? = some (.bank 0x100 [Memory.empty, Memory.empty, Memory.empty, Memory.empty]) ∧
    0xFE + 2 ≤ 0x100 ∧ 0x100 < 0xFF + 2 ∧ 0 < [Memory.empty, Memory.empty, Memory.empty, Memory.empty].length ∧
    sinkPlatform.devices[1]? = some .ioSink ∧ objectPlatform.devices[1]? = some (.object 7 0x100 0) ∧
    objectPlatform.access 0xD0FF 1 = .ok (.object 1 0xFF) ∧ objectPlatform.access 0xD0FE 2 = .ok (.object 1 0xFE) ∧
    objectPlatform.access 0xD0FF 2 = .error (.deviceRange 0xD0FF) :=
  ⟨rfl, by decide, by decide, rfl, by decide, by decide, by decide, rfl, rfl, by decide, by decide, by decide⟩

theorem witness_WordWrittenIsReadBack :
    State.reset.access 0xFFFE 2 = .ok (.storage (flatLoc 0xFFFE)) ∧
    bankPlatform.access 0x80FE 2 = .ok (.storage ⟨1, 0, 0xFE⟩) := ⟨rfl, rfl⟩

theorem witness_SinkReadsAndWrites :
    sinkPlatform.access 0xC000 2 = .ok (.sink 1 0) ∧ sinkPlatform.access 0xC0FF 1 = .ok (.sink 1 0xFF) := ⟨rfl, rfl⟩

theorem witness_BanksAreIndependent :
    ∃ r, bankPlatform.route 0x80FE = some r ∧ 0x80FE ≤ 0xFFFE ∧
      bankPlatform.devices[r.device]? = some (.bank 0x100 [Memory.empty, Memory.empty, Memory.empty, Memory.empty]) ∧
      r.localAddr 0x80FE + 2 ≤ 0x100 ∧ 0 < [Memory.empty, Memory.empty, Memory.empty, Memory.empty].length :=
  ⟨_, rfl, by decide, rfl, by decide, by decide⟩

theorem witness_MappingShadowsAndUnmaps :
    (∀ r ∈ sinkPlatform.regions, r.token ≠ sinkPlatform.nextToken) ∧
    ∃ r, sinkPlatform.regions = [] ++ r :: defaultRegions ∧ ∀ q ∈ [] ++ defaultRegions, q.token ≠ r.token :=
  ⟨by decide, _, rfl, by decide⟩

/-- On the default platform a step that fails by an unassigned opcode, and one that fails by an overflow. -/
theorem witness_DefaultPlatformFaults :
    State.reset.flat ∧ step State.reset = .fault (.failed (.illegalOpcode 0x00 0x0000) []) ∧
    (State.reset.setWordAt (flatLoc 0) 0x6000).flat ∧
    step ((State.reset.setReg .fp 0xFFFD).setByteAt (flatLoc 0) 0x60) = .fault (.failed (.addressOverflow 0xFFFF) []) :=
  ⟨reset_flat, rfl, ⟨rfl, rfl⟩, rfl⟩

/-- Storage, a sink, an object and an overflow at the stack pointer. -/
theorem witness_PushInstructions :
    State.reset.access (State.reset.reg .sp).toNat 2 = .ok (.storage (flatLoc 0xFFFE)) ∧
    sinkPlatform.access ((sinkPlatform.setReg .sp 0xC010).reg .sp).toNat 2 = .ok (.sink 1 0x10) ∧
    objectPlatform.access ((objectPlatform.setReg .sp 0xD010).reg .sp).toNat 2 = .ok (.object 1 0x10) ∧
    State.reset.access ((State.reset.setReg .sp 0xFFFF).reg .sp).toNat 2 = .error (.addressOverflow 0xFFFF) := ⟨rfl, rfl, by decide, rfl⟩

/-- The wrap at the top, a sink, an object, and the overflow. -/
theorem witness_PopInstruction :
    State.reset.access (State.reset.reg .sp + 2).toNat 2 = .ok (.storage (flatLoc 0)) ∧
    (sinkPlatform.setReg .sp 0xBFFE).access ((sinkPlatform.setReg .sp 0xBFFE).reg .sp + 2).toNat 2 = .ok (.sink 1 0) ∧
    (objectPlatform.setReg .sp 0xCFFE).access ((objectPlatform.setReg .sp 0xCFFE).reg .sp + 2).toNat 2 = .ok (.object 1 0) ∧
    (State.reset.setReg .sp 0xFFFD).access ((State.reset.setReg .sp 0xFFFD).reg .sp + 2).toNat 2 =
      .error (.addressOverflow 0xFFFF) := ⟨rfl, rfl, by decide, rfl⟩

theorem witness_PushThenPop :
    State.reset.access (State.reset.reg .sp).toNat 2 = .ok (.storage (flatLoc 0xFFFE)) ∧
    State.reset.push 0x1234 = .ok () (afterOp (State.reset.push 0x1234)) := ⟨rfl, rfl⟩

/-- V99's state: the last vector slot lies above the address space. -/
def highVectors : State := { State.reset with config := { defaultConfig with ivtBase := 0xFFF0 } }

/-- A frame whose count word, 5, lies at 0x010B, on a RAM of 0x0110 bytes mapped everywhere. -/
def shortFrame : State :=
  (({ State.reset with devices := [.ram 0x0110 Memory.empty] } : State).setReg .fp 0x00F5).setWordAt (flatLoc 0x010B) 5

theorem witness_CallPushesFrame : ∃ place, State.reset.roomFor 10 place :=
  ⟨_, State.roomFor_flat reset_flat (by decide) (by decide)⟩

/-- The first push fails, and the tenth does. -/
theorem witness_CallReportsFirstFault :
    ((∀ j < 0, ∃ g, (State.reset.setReg .sp 0xFFFF).access (slotDown ((State.reset.setReg .sp 0xFFFF).reg .sp) j).toNat 2 = .ok g) ∧
      (State.reset.setReg .sp 0xFFFF).access (slotDown ((State.reset.setReg .sp 0xFFFF).reg .sp) 0).toNat 2 =
        .error (.addressOverflow 0xFFFF)) ∧
    ((∀ j < 9, ∃ g, (State.reset.setReg .sp 0x0011).access (slotDown ((State.reset.setReg .sp 0x0011).reg .sp) j).toNat 2 = .ok g) ∧
      (State.reset.setReg .sp 0x0011).access (slotDown ((State.reset.setReg .sp 0x0011).reg .sp) 9).toNat 2 =
        .error (.addressOverflow 0xFFFF)) := by
  refine ⟨⟨by omega, rfl⟩, ⟨fun j hj => ⟨_, State.access_flat (s := State.reset.setReg .sp 0x0011) ⟨rfl, rfl⟩ (by decide) ?_⟩, rfl⟩⟩
  revert j; decide

/-- A request whose eleventh push passes 0xFFFF; V99's, whose pushes all succeed and whose vector slot passes it; and for the returns V81's
first pop, and a pop of an argument: `fp` 0x00F5 on a RAM of 0x0110 bytes, the count word 5, the fifth argument outside the storage. -/
theorem witness_RequestsAndReturnsReportFirstFault :
    (((State.reset.setReg .sp 0x0013).reg .im).getLsbD ((3 : Word).toNat % 16) = true ∧ (State.reset.setReg .sp 0x0013).inHandler = false ∧
      (∀ j < 10, ∃ g, (State.reset.setReg .sp 0x0013).access (slotDown ((State.reset.setReg .sp 0x0013).reg .sp) j).toNat 2 = .ok g) ∧
      (State.reset.setReg .sp 0x0013).access (slotDown ((State.reset.setReg .sp 0x0013).reg .sp) 10).toNat 2 =
        .error (.addressOverflow 0xFFFF)) ∧
    ((highVectors.reg .im).getLsbD ((15 : Word).toNat % 16) = true ∧ highVectors.inHandler = false ∧
      (∀ j < 11, ∃ g, highVectors.access (slotDown (highVectors.reg .sp) j).toNat 2 = .ok g) ∧
      highVectors.access (highVectors.config.ivtBase.toNat + 2 * ((15 : Word).toNat % 16)) 2 = .error (.addressOverflow 0x1000E)) ∧
    (State.reset.setReg .fp 0xFFFD).access (slotUp ((State.reset.setReg .fp 0xFFFD).reg .fp) 0).toNat 2 =
      .error (.addressOverflow 0xFFFF) ∧
    (shortFrame.access (slotUp (shortFrame.reg .fp) 10).toNat 2 = .ok (.storage (flatLoc 0x010B)) ∧
      12 < 11 + (shortFrame.wordAt (flatLoc 0x010B)).toNat ∧
      (∀ j < 12, ∃ g, shortFrame.access (slotUp (shortFrame.reg .fp) j).toNat 2 = .ok g) ∧
      shortFrame.access (slotUp (shortFrame.reg .fp) 12).toNat 2 = .error (.deviceRange 0x010F)) := by
  refine ⟨⟨by decide, rfl, fun j hj => ⟨_, State.access_flat (s := State.reset.setReg .sp 0x0013) ⟨rfl, rfl⟩ (by decide) ?_⟩, rfl⟩,
    ⟨by decide, rfl, fun j hj => ⟨_, State.access_flat (s := highVectors) ⟨rfl, rfl⟩ (by decide) ?_⟩, rfl⟩, rfl,
    ⟨rfl, by decide, fun j hj => ⟨.storage (flatLoc (slotUp 0x00F5 j).toNat), ?_⟩, rfl⟩⟩
  · revert j; decide
  · revert j; decide
  · revert j; decide

/-- A frame at 0xFFE8 whose count word is 1 when the word at 0xFFFE is. -/
theorem witness_ReturnPopsFrame : ∃ place : Nat → Loc, ∀ k < 11 +
    (((State.reset.setReg .fp 0xFFD0).setWordAt (flatLoc 0xFFE6) 1).wordAt (place 10)).toNat,
      ((State.reset.setReg .fp 0xFFD0).setWordAt (flatLoc 0xFFE6) 1).access
        (slotUp (((State.reset.setReg .fp 0xFFD0).setWordAt (flatLoc 0xFFE6) 1).reg .fp) k).toNat 2 = .ok (.storage (place k)) := by
  refine ⟨fun k => flatLoc (slotUp 0xFFD0 k).toNat, fun k hk => ?_⟩
  have hk' : k < 12 := hk
  refine State.access_flat ⟨rfl, rfl⟩ (by decide) ?_
  show (slotUp 0xFFD0 k).toNat + 2 ≤ 0x10000
  revert k; decide

/-- A caller with one argument and its count pushed (rule R263's example), calling 0x0100. -/
def caller : State :=
  (setRegs State.reset [(.pc, 0x0013), (.sp, 0xFFFA), (.r1, 0x1111), (.r8, 0x8888)]).setWordAt (flatLoc 0xFFFC) 0x0001 |>.setFrameSize 4

theorem witness_CallThenReturn :
    caller.flat ∧ (∀ k < 10, slotDown (caller.reg .sp) k ≠ 0xFFFF) ∧ (∀ k ≤ (0x0001 : Word).toNat, slotUp (caller.reg .sp) k ≠ 0xFFFF) ∧
    exec (.calImm 0x0100) caller = .next (after (exec (.calImm 0x0100) caller)) ∧
    (after (exec (.calImm 0x0100) caller)).flat ∧
    (0x0001 : Word) = (after (exec (.calImm 0x0100) caller)).flatWord (caller.reg .sp + 2) ∧ caller.frameInv :=
  ⟨⟨rfl, rfl⟩, by decide, by decide, rfl, ⟨rfl, rfl⟩, rfl, rfl⟩

theorem witness_FrameInvariant :
    State.reset.frameInv ∧ Reg.r1 ≠ .sp ∧ Reg.r1 ≠ .fp ∧
    exec (.pshImm 1) State.reset = .next (after (exec (.pshImm 1) State.reset)) ∧
    exec (.pshReg .r1) State.reset = .next (after (exec (.pshReg .r1) State.reset)) ∧
    exec (.popReg .r1) State.reset = .next (after (exec (.popReg .r1) State.reset)) ∧
    exec (.calImm 1) caller = .next (after (exec (.calImm 1) caller)) ∧
    exec (.calReg .r1) caller = .next (after (exec (.calReg .r1) caller)) ∧
    exec .ret State.reset = .next (after (exec .ret State.reset)) ∧
    exec .rti State.reset = .next (after (exec .rti State.reset)) :=
  ⟨rfl, by decide, by decide, rfl, rfl, rfl, rfl, rfl, rfl, rfl⟩

theorem witness_MaskedRequestIsIgnored :
    ((State.reset.setReg .im 0x7FFF).reg .im).getLsbD ((0xFFFF : Word).toNat % 16) = false := by decide

theorem witness_InterruptEntry :
    (State.reset.reg .im).getLsbD ((0x0013 : Word).toNat % 16) = true ∧ State.reset.inHandler = false ∧
    State.reset.runState = .running ∧ (∃ place, State.reset.roomFor 11 place) ∧
    State.reset.access (State.reset.config.ivtBase.toNat + 2 * ((0x0013 : Word).toNat % 16)) 2 = .ok (.storage (flatLoc 0x1006)) :=
  ⟨by decide, rfl, rfl, ⟨_, State.roomFor_flat reset_flat (by decide) (by decide)⟩, rfl⟩

/-- A state in a handler with another vector base. -/
def inHandlerAt (base : Word) (s : State) : State := { s with inHandler := true, config := { s.config with ivtBase := base } }

/-- The last slot in storage, a slot in a sink and one in an object, and the lowest slot address above 0xFFFE. -/
theorem witness_NestedRequestSavesNothing :
    ((inHandlerAt 0xFFE0 State.reset).reg .im).getLsbD ((15 : Word).toNat % 16) = true ∧
    (inHandlerAt 0xFFE0 State.reset).inHandler = true ∧
    (inHandlerAt 0xFFE0 State.reset).access ((inHandlerAt 0xFFE0 State.reset).config.ivtBase.toNat + 2 * ((15 : Word).toNat % 16)) 2 =
      .ok (.storage (flatLoc 0xFFFE)) ∧
    (inHandlerAt 0xC000 sinkPlatform).access ((inHandlerAt 0xC000 sinkPlatform).config.ivtBase.toNat + 2 * ((15 : Word).toNat % 16)) 2 =
      .ok (.sink 1 30) ∧
    (inHandlerAt 0xD000 objectPlatform).access ((inHandlerAt 0xD000 objectPlatform).config.ivtBase.toNat + 2 * ((15 : Word).toNat % 16)) 2 =
      .ok (.object 1 30) ∧
    (inHandlerAt 0xFFE1 State.reset).access ((inHandlerAt 0xFFE1 State.reset).config.ivtBase.toNat + 2 * ((15 : Word).toNat % 16)) 2 =
      .error (.addressOverflow 0xFFFF) ∧
    (inHandlerAt 0xFFE1 State.reset).config.ivtBase.toNat + 2 * ((15 : Word).toNat % 16) > 0xFFFE :=
  ⟨by decide, rfl, rfl, rfl, by decide, rfl, by decide⟩

theorem witness_RequestLineModulo16 : (0x0003 : Word).toNat % 16 = (0xFFF3 : Word).toNat % 16 := by decide

theorem witness_InterruptRoundTrip :
    State.reset.flat ∧ State.reset.inHandler = false ∧ (State.reset.reg .im).getLsbD ((0x0003 : Word).toNat % 16) = true ∧
    (∀ k < 11, slotDown (State.reset.reg .sp) k ≠ 0xFFFF) ∧
    State.reset.requestInterrupt 0x0003 = .ok () (afterOp (State.reset.requestInterrupt 0x0003)) ∧
    (afterOp (State.reset.requestInterrupt 0x0003)).flat ∧ State.reset.frameInv :=
  ⟨reset_flat, rfl, by decide, by decide, rfl, ⟨rfl, rfl⟩, rfl⟩

/-- `inc r1` in the last two bytes of memory. -/
theorem witness_StepRunsDecodedInstruction :
    ((State.reset.setReg .pc 0xFFFE).load (flatLoc 0xFFFE) [0x35, 0x02]).runState = .running ∧
    ((State.reset.setReg .pc 0xFFFE).load (flatLoc 0xFFFE) [0x35, 0x02]).codeAt [0x35, 0x02] ∧
    decodesTo ((State.reset.setReg .pc 0xFFFE).load (flatLoc 0xFFFE) [0x35, 0x02]).config.opcodeMap [0x35, 0x02] (.incReg .r1) := by
  refine ⟨rfl, ⟨flatLoc 0xFFFE, fun k h => ?_⟩, rfl⟩
  match k, h with
  | 0, _ => exact ⟨rfl, rfl⟩
  | 1, _ => exact ⟨rfl, rfl⟩

/-- The byte 0x00 at 0x0000, under both policies. -/
theorem witness_UnassignedOpcode :
    State.reset.runState = .running ∧ State.reset.codeAt [0x00] ∧ OpcodeMap.rowOfByte State.reset.config.opcodeMap 0x00 = none ∧
    State.reset.config.unknownOpcode = .fault ∧
    ({ State.reset with config := { defaultConfig with unknownOpcode := .nop } } : State).codeAt [0x00] := by
  refine ⟨rfl, ⟨flatLoc 0, fun k h => ?_⟩, rfl, rfl, ⟨flatLoc 0, fun k h => ?_⟩⟩
  · match k, h with
    | 0, _ => exact ⟨rfl, rfl⟩
  · match k, h with
    | 0, _ => exact ⟨rfl, rfl⟩

/-- A byte at 0xFFFF, a word at 0xFFFE, and the overflow. -/
theorem witness_FetchRules :
    (State.reset.setReg .pc 0xFFFF).access ((State.reset.setReg .pc 0xFFFF).reg .pc).toNat 1 = .ok (.storage (flatLoc 0xFFFF)) ∧
    (State.reset.setReg .pc 0xFFFE).access ((State.reset.setReg .pc 0xFFFE).reg .pc).toNat 2 = .ok (.storage (flatLoc 0xFFFE)) ∧
    (State.reset.setReg .pc 0xFFFF).reg .pc = 0xFFFF := ⟨rfl, rfl, rfl⟩

theorem witness_StoppedEngineTakesNoStep :
    (State.reset.setRunState .halted).runState ≠ .running ∧
    (State.reset.setRunState (.failed (.noRegion 0))).runState ≠ .running := by decide

/-- A step of a well-formed machine that completes; it is also one of `exec` of a store, and one that leaves memory alone. -/
theorem witness_StepKeepsWellFormedMachine :
    (at10 [0x17, 0x00, 0x2A] []).wf = true ∧
    step (at10 [0x17, 0x00, 0x2A] []) = .next (after (step (at10 [0x17, 0x00, 0x2A] []))) := ⟨by decide +kernel, rfl⟩

theorem witness_StepKeepsPlatform :
    step (at10 [0x17, 0x00, 0x2A] []) = .next (after (step (at10 [0x17, 0x00, 0x2A] []))) := rfl

/-- A step that emits, and a call that emits and then fails: its first nine words go to a sink, the tenth to 0xFFFF. -/
theorem witness_OutputOnlyGrows :
    (step (sinkPlatform.load (flatLoc 0) [0x1B, 0x41, 0x42, 0xC0, 0x04]) =
      .next (after (step (sinkPlatform.load (flatLoc 0) [0x1B, 0x41, 0x42, 0xC0, 0x04])))) ∧
    (step (((platform .ioSink 0 0x000F true).setReg .sp 0x0001).setReg .pc 0x0100 |>.load (flatLoc 0x0100) [0x5E, 0x01, 0x00]) =
      .fault (.failed (.addressOverflow 0xFFFF) [{ device := 1, offset := 1, value := 0 }])) := ⟨rfl, rfl⟩

theorem witness_OnlyHltHalts : exec .hlt State.reset = .next (State.reset.setRunState .halted) := rfl

theorem witness_OnlyNamedRegistersAreWritten :
    exec (.popReg .mb) State.reset = .next (after (exec (.popReg .mb) State.reset)) := rfl

/-- A read of an object beside a device that is none. -/
theorem witness_OnlyStoresWriteMemory :
    mayStore (.movMemReg 0xD000 .r1) = false ∧
    exec (.movMemReg 0xD000 .r1) objectPlatform = .next (after (exec (.movMemReg 0xD000 .r1) objectPlatform)) ∧
    objectPlatform.devices[0]? = some (.ram 65536 Memory.empty) := ⟨rfl, rfl, rfl⟩

theorem witness_HandlerFlagChangesOnlyByInterrupt :
    exec (.intImm 3) State.reset = .next (after (exec (.intImm 3) State.reset)) ∧
    (after (exec (.intImm 3) State.reset)).inHandler = true ∧
    exec .rti (State.reset.setHandler true) = .next (after (exec .rti (State.reset.setHandler true))) := ⟨rfl, rfl, rfl⟩

theorem witness_EngineErrorsOfAStep :
    step State.reset = .fault (.failed (.illegalOpcode 0x00 0x0000) []) ∧
    exec (.pshImm 1) (State.reset.setReg .sp 0xFFFF) = .fault (.failed (.addressOverflow 0xFFFF) []) := ⟨rfl, rfl⟩

theorem witness_HostRegistersByName :
    "r9" ∉ registerNames ∧ State.reset.runState = .running ∧ (State.reset.setRunState .halted).runState ≠ .running := by decide

/-- A step that goes on, one that halts and one that fails. -/
theorem witness_HostStepReports :
    (at10 [0x17, 0x00, 0x2A] []).runState = .running ∧
    step (at10 [0x17, 0x00, 0x2A] []) = .next (after (step (at10 [0x17, 0x00, 0x2A] []))) ∧
    (after (step (at10 [0x17, 0x00, 0x2A] []))).runState = .running ∧
    step (at10 [0xFF] []) = .next (after (step (at10 [0xFF] []))) ∧ (after (step (at10 [0xFF] []))).runState = .halted ∧
    step State.reset = .fault (.failed (.illegalOpcode 0x00 0x0000) []) := ⟨rfl, rfl, rfl, rfl, rfl, rfl⟩

/-- `$2 * $3 - $1` for the second clause; `$5 - $2 + $1` for the third. -/
theorem witness_ExpressionReduction :
    (∀ x ∈ [(ExprOp.minus, Expr.literal 1)], x.1.priority ≤ ExprOp.times.priority) ∧
    (∀ x ∈ ([] : List (ExprOp × Expr)), x.1.priority < ExprOp.plus.priority) ∧ ExprOp.minus.priority < ExprOp.plus.priority := by decide

theorem witness_ImageLengthIsCounter :
    OpcodeMap.wf OpcodeMap.default = true ∧ encodeStmts OpcodeMap.default [.label ['a'], .instr .hlt []] = .ok [0xFF] := ⟨by decide, rfl⟩

theorem witness_NamesAreBoundOnce :
    allocate OpcodeMap.default [.constant ['a'] 1] 0 [] = .ok (0, [(['a'], .value 1)]) ∧
    ['a'] ∈ [Stmt.constant ['a'] 1].flatMap Stmt.binds ∧ ['a'] ∈ (Stmt.label ['a']).binds ∧
    encodeStmts OpcodeMap.default [.label ['a'], .instr .hlt []] = .ok [0xFF] := ⟨rfl, by decide, by decide, rfl⟩

end Sys2Proof.Tests
end

section
/-! The reset state (spec 00_scope.md R8, 20_memory.md R79, 44_stack_call.md R266): the three parts of `State.wf`, the default platform,
and the frame invariant of every construction. -/

namespace Sys2Proof.Machine

/-! ## Well-formedness of the reset state -/

/-- The default table meets R101: its opcodes, its pairs and its sizes are read off the 44 rows. -/
theorem opcodeMap_wf_default : OpcodeMap.wf OpcodeMap.default = true := by decide

/-- The one region of R79 names device 0 and handle 0; both exist, as one device is there and handle 1 is the next. -/
theorem State.regionsWf_reset : State.reset.regionsWf = true := by decide

/-- A linear RAM that lists no byte is well-formed, whatever its size. -/
theorem Device.wf_ram_empty (size : Nat) : (Device.ram size Memory.empty).wf = true := by
  have within : Memory.empty.within size = true := rfl
  simp [Device.wf, Device.buffers, Device.size, within]

theorem State.memoryWf_reset : State.reset.memoryWf = true := by
  simp [State.memoryWf, State.reset, State.construct, defaultDevices, Device.wf_ram_empty]

theorem State.wf_reset : State.reset.wf = true := by
  have table : OpcodeMap.wf State.reset.config.opcodeMap = true := opcodeMap_wf_default
  simp [State.wf, table, State.regionsWf_reset, State.memoryWf_reset]

/-! ## The platform and the frame invariant -/

theorem State.flat_reset : State.reset.flat := by
  have regions : State.reset.regions = defaultRegions := rfl
  have shapes : State.reset.shapes = defaultDevices := rfl
  exact ⟨regions, shapes⟩

/-- Every construction starts with the frame invariant: `sp` and `fp` are both the stack top, and `F` is 0 (R40, R266). -/
theorem State.frameInv_construct (c : Config) (regions : List Region) (nextToken : Nat) (devices : List Device) :
    (State.construct c regions nextToken devices).frameInv := by
  have sub : (0 : Word) = c.stackTop - c.stackTop := (BitVec.sub_self c.stackTop).symm
  exact sub

/-- Settles O10: the defaults are the model's definitions, and the invariants are the lemmas above. -/
theorem resetIsDefaultAndWellFormed : Obligations.ResetIsDefaultAndWellFormed := by
  have frame : State.reset.frameInv := State.frameInv_construct defaultConfig defaultRegions 1 defaultDevices
  exact ⟨rfl, rfl, rfl, rfl, rfl, rfl, rfl, rfl, State.wf_reset, State.flat_reset, frame⟩

end Sys2Proof.Machine
end

section
/-! What a completed instruction and a completed step are: every instruction is one of ten shapes, so a proof about what instructions
change has ten cases; and what a step that completes or fails has done (spec 10_state.md R36 to R39, 40_cycle.md R160). -/

namespace Sys2Proof.Machine

/-! ## The shapes of an instruction -/

/-- A conditional jump writes `pc`: with the target when the condition holds, else with what it holds (R230). -/
theorem State.jumpIf_eq_setReg (s : State) (c : Cond) (v target : Word) :
    s.jumpIf c v target = .next (s.setReg .pc (if c.holds v (s.reg .acc) then target else s.reg .pc)) := by
  unfold State.jumpIf
  split
  · rfl
  · rw [State.setReg_self]

/-- The shared operation that an instruction is, with the registers it may write. -/
inductive ExecShape (s : State) : Instr → Prop
  /-- One register written: the moves into registers, the ALU (`dst`), the jumps (`pc`). -/
  | write {i : Instr} (d : Reg) (v : Word) (he : exec i s = .next (s.setReg d v)) (hw : mayWrite s.config i = [d]) :
      ExecShape s i
  | load {i : Instr} (a : Nat) (d : Reg) (he : exec i s = s.loadInto a d) (hw : mayWrite s.config i = [d]) : ExecShape s i
  | store {i : Instr} (a : Nat) (v : Word) (he : exec i s = s.storeWord a v) (hw : mayWrite s.config i = []) : ExecShape s i
  | push {i : Instr} (v : Word) (he : exec i s = (s.push v).toOutcome) (hw : mayWrite s.config i = [.sp]) : ExecShape s i
  | pop (r : Reg) : ExecShape s (.popReg r)
  | call {i : Instr} (target : Word)
      (he : exec i s = (s.pushState.bind fun _ s1 => .ok () (s1.setReg .pc target)).toOutcome)
      (hw : mayWrite s.config i = [.sp, .fp, .pc]) : ExecShape s i
  | ret : ExecShape s .ret
  | hlt : ExecShape s .hlt
  | int (v : Word) : ExecShape s (.intImm v)
  | rti : ExecShape s .rti

theorem exec_shape (i : Instr) (s : State) : ExecShape s i := by
  cases i
  case movRegMem | movImmMem => exact .store _ _ rfl rfl
  case movMemReg | movRegPtrReg | movImmOffReg => exact .load _ _ rfl rfl
  case jneImmMem | jneRegMem | jeqImmMem | jeqRegMem | jltImmMem | jltRegMem | jgtImmMem | jgtRegMem | jleImmMem | jleRegMem |
      jgeImmMem | jgeRegMem =>
    exact .write _ _ (s.jumpIf_eq_setReg _ _ _) rfl
  case pshImm | pshReg => exact .push _ rfl rfl
  case popReg r => exact .pop r
  case calImm | calReg => exact .call _ rfl rfl
  case ret => exact .ret
  case hlt => exact .hlt
  case intImm v => exact .int v
  case rti => exact .rti
  -- The moves into a register and the ALU.
  all_goals exact .write _ _ rfl rfl

/-! ## Completion and failure -/

/-- An instruction that completes evolves the state, or is `hlt` and halts it. -/
theorem exec_next_evolves_or_halts {i : Instr} {s t : State} (h : exec i s = .next t) :
    s.Evolves t ∨ (i = .hlt ∧ t = s.setRunState .halted) := by
  rcases exec_tame i s with ⟨x, he, hx⟩ | ⟨hi, he⟩
  · exact Or.inl (hx.ok () t (Res.toOutcome_eq_next.mp (he.symm.trans h)))
  · cases he.symm.trans h
    exact Or.inr ⟨hi, rfl⟩

/-- An instruction that stops has met an access error (R323). -/
theorem exec_fault_raisesAccess {i : Instr} {s : State} {f : Fault} (h : exec i s = .fault f) :
    ∃ e output, f = .failed e output ∧ s.RaisesAccess e ∧ s.output <+: output := by
  rcases exec_tame i s with ⟨x, he, hx⟩ | ⟨_, he⟩
  · exact hx.fault f (Res.toOutcome_eq_fault.mp (he.symm.trans h))
  · cases he.symm.trans h

/-- A step that completes is a fetch and then its instruction, or the fetch alone (R160, R113). -/
theorem step_next_cases {s t : State} (h : step s = .next t) :
    (∃ i s1, s.fetchInstr = .ok (some i) s1 ∧ exec i s1 = .next t) ∨ s.fetchInstr = .ok none t := by
  rcases step_cases h with ⟨_, hn⟩ | ⟨_, _, hn⟩ | ⟨_, ⟨i, s1, hf, hn⟩ | ⟨s1, hf, hn⟩ | ⟨_, _, hn⟩⟩
  · cases hn
  · cases hn
  · exact Or.inl ⟨i, s1, hf, hn.symm⟩
  · cases hn
    exact Or.inr hf
  · cases hn

/-- A step that fails has met an access error, or an opcode byte with no row (R301, R302). -/
theorem step_fault_error {s : State} {e : EngineError} {output : List OutputEvent} (h : step s = .fault (.failed e output)) :
    (∃ a, e = .noRegion a ∨ e = .addressOverflow a ∨ e = .deviceRange a) ∨ ∃ op a, e = .illegalOpcode op a := by
  rcases step_cases h with ⟨_, hn⟩ | ⟨_, _, hn⟩ | ⟨_, ⟨i, s1, _, hn⟩ | ⟨_, _, hn⟩ | ⟨f, hf, hn⟩⟩
  · cases hn
  · cases hn
  · obtain ⟨e', out, he, ha, _⟩ := exec_fault_raisesAccess hn.symm
    cases he
    exact Or.inl ha.kind
  · cases hn
  · cases hn
    obtain ⟨e', out, he, ha, _⟩ := State.fetchInstr_fault hf
    cases he
    exact ha.imp_left State.RaisesAccess.kind

theorem exec_samePlatform {i : Instr} {s t : State} (h : exec i s = .next t) : s.samePlatform t := by
  rcases exec_next_evolves_or_halts h with he | ⟨_, rfl⟩
  · exact he.platform
  · exact ⟨rfl, rfl, rfl, rfl⟩

/-- Settles O49: the fetch keeps the platform, and so does the instruction. -/
theorem stepKeepsPlatform : Obligations.StepKeepsPlatform := by
  intro s t h
  rcases step_next_cases h with ⟨i, s1, hf, hx⟩ | hf
  · exact State.samePlatform_trans (State.fetchInstr_ok hf).platform (exec_samePlatform hx)
  · exact (State.fetchInstr_ok hf).platform

/-- Settles O51: every instruction but `hlt` evolves the state, and an evolution keeps the run state. -/
theorem onlyHltHalts : Obligations.OnlyHltHalts := by
  intro i s t h
  rcases exec_next_evolves_or_halts h with he | ⟨hi, rfl⟩
  · exact Or.inl he.runState
  · exact Or.inr ⟨hi, rfl⟩

/-! ## Which registers an instruction writes -/

/-- What holds of the state after an operation holds of the state after the instruction that is that operation. -/
theorem Res.Post.next {R : State → State → Prop} {s t : State} {x : Res Unit} (hx : Res.Post R s x)
    (h : x.toOutcome = .next t) : R s t :=
  hx () t (Res.toOutcome_eq_next.mp h)

theorem State.loadInto_regs {s t : State} {a : Nat} {d : Reg} (h : s.loadInto a d = .next t) : s.sameRegsBut [d] t :=
  (Res.Post.bindRegs (s.memRead16_regs [d] a) fun _ _ _ =>
    Res.Post.ok (State.sameRegsBut_setReg _ List.mem_cons_self)).next h

/-- The registers of R258: those the frame protocol moves, and the saved ones. -/
theorem State.popState_frameRegs (s : State) :
    Res.Post (State.sameRegsBut [.sp, .fp, .pc, .r1, .r2, .r3, .r4, .r5, .r6, .r7, .r8]) s s.popState :=
  State.popState_regs (by decide) (by decide) (by decide) s

/-- Settles O52: one case per shape of an instruction, each by what its operation writes. -/
theorem onlyNamedRegistersAreWritten : Obligations.OnlyNamedRegistersAreWritten := by
  intro i s t h
  cases exec_shape i s with
  | write d v he hw =>
    cases he.symm.trans h
    rw [hw]
    exact State.sameRegsBut_setReg v List.mem_cons_self
  | load a d he hw =>
    rw [hw]
    exact State.loadInto_regs (he.symm.trans h)
  | store a v he hw =>
    rw [hw]
    exact (s.memWrite16_regs [] a v).next (he.symm.trans h)
  | push v he hw =>
    rw [hw]
    exact (State.push_regs List.mem_cons_self s v).next (he.symm.trans h)
  | pop r =>
    exact (Res.Post.bindRegs (State.pop_regs (rs := [.sp, r]) (by simp) s) fun _ _ _ =>
      Res.Post.ok (State.sameRegsBut_setReg _ (by simp))).next h
  | call target he hw =>
    rw [hw]
    exact (Res.Post.bindRegs (State.pushState_regs (by decide) (by decide) s) fun _ _ _ =>
      Res.Post.ok (State.sameRegsBut_setReg _ (by decide))).next (he.symm.trans h)
  | ret => exact s.popState_frameRegs.next h
  | hlt =>
    cases h
    exact fun _ _ => rfl
  | int v =>
    exact (State.requestInterrupt_regs (rs := [.sp, .fp, .pc]) (by decide) (by decide) (by decide) s v).next h
  | rti => exact (s.setHandler false).popState_frameRegs.next h

/-! ## The in-handler flag -/

theorem State.sameHandler_setReg (s : State) (r : Reg) (v : Word) : s.sameHandler (s.setReg r v) := rfl

/-- An operation that keeps `H`, with its value put into a register, keeps it. -/
theorem Res.Post.setReg_handler {s : State} {x : Res Word} (r : Reg) (hx : Res.Post State.sameHandler s x) :
    Res.Post State.sameHandler s (x.bind fun v s1 => .ok () (s1.setReg r v)) :=
  Res.Post.bind State.sameHandler_trans hx fun v t _ => Res.Post.ok (t.sameHandler_setReg r v)

theorem State.loadInto_handler {s t : State} {a : Nat} {d : Reg} (h : s.loadInto a d = .next t) : s.sameHandler t :=
  ((s.memRead16_handler a).setReg_handler d).next h

/-- A request leaves `H` as it was when it is masked, and sets it when it is accepted (R311, R312). -/
theorem State.requestInterrupt_handler {s t : State} {v : Word} (h : s.requestInterrupt v = .ok () t) :
    t.inHandler = s.inHandler ∨ t.inHandler = true := by
  unfold State.requestInterrupt at h
  split at h
  · obtain ⟨_, s1, _, h⟩ := Res.bind_eq_ok.mp h
    obtain ⟨_, s2, hread, h⟩ := Res.bind_eq_ok.mp h
    cases h
    exact Or.inr (State.memRead16_handler (s1.setHandler true) _ _ s2 hread)
  · cases h
    exact Or.inl rfl

/-- Settles O54: one case per shape of an instruction; only `int` and `rti` set the flag. -/
theorem handlerFlagChangesOnlyByInterrupt : Obligations.HandlerFlagChangesOnlyByInterrupt := by
  intro i s t h
  cases exec_shape i s with
  | write d v he =>
    cases he.symm.trans h
    exact Or.inl rfl
  | load a d he => exact Or.inl (State.loadInto_handler (he.symm.trans h))
  | store a v he => exact Or.inl ((s.memWrite16_handler a v).next (he.symm.trans h))
  | push v he => exact Or.inl ((s.push_handler v).next (he.symm.trans h))
  | pop r => exact Or.inl ((s.pop_handler.setReg_handler r).next h)
  | call target he =>
    exact Or.inl ((Res.Post.bind State.sameHandler_trans s.pushState_handler fun _ t _ =>
      Res.Post.ok (t.sameHandler_setReg .pc target)).next (he.symm.trans h))
  | ret => exact Or.inl (s.popState_handler.next h)
  | hlt =>
    cases h
    exact Or.inl rfl
  | int v =>
    rcases State.requestInterrupt_handler (Res.toOutcome_eq_next.mp h) with hsame | hset
    · exact Or.inl hsame
    · exact Or.inr (Or.inl ⟨v, rfl, hset⟩)
  | rti => exact Or.inr (Or.inr ⟨rfl, (s.setHandler false).popState_handler.next h⟩)

end Sys2Proof.Machine
end

section
/-! Register bytes (spec 10_state.md R22, 30_encoding.md R105): what a decoder reads from one, and that it reads no more of it than the
value modulo 14. -/

namespace Sys2Proof

/-- Bytes that are equal modulo 14 select the same register. -/
theorem Reg.ofByte_congr {x y : Byte} (h : x.toNat % 14 = y.toNat % 14) : Reg.ofByte x = Reg.ofByte y :=
  congrArg Reg.ofOrdinal h

/-- The instruction of a pair has the register operands that its layout carries. -/
theorem Instr.regA_ofOp {op : Op} (o : Operands) (h : Field.regA ∈ op.mode.layout) :
    (Instr.ofOp op o).operands.regA = o.regA := by
  revert h
  cases op <;> simp [Op.mode, Mode.layout, Instr.ofOp, Instr.operands]

theorem Instr.regB_ofOp {op : Op} (o : Operands) (h : Field.regB ∈ op.mode.layout) :
    (Instr.ofOp op o).operands.regB = o.regB := by
  revert h
  cases op <;> simp [Op.mode, Mode.layout, Instr.ofOp, Instr.operands]

/-- Operand bytes that the row's layout reads decode to the row's instruction with those operands (R116). -/
theorem decode_row {table : List Row} {b : Byte} {row : Row} {bytes rest : List Byte} {o : Operands}
    (hrow : OpcodeMap.rowOfByte table b = some row)
    (hbytes : decodeFields row.op.mode.layout bytes {} = some (o, rest)) :
    decode table (b :: bytes) = .ok (Instr.ofOp row.op o, rest) := by
  simp only [decode, hrow, hbytes]

/-- Two strings of operand bytes that the layout reads as the same operands, the first register from `x`. -/
theorem decode_oneRegister {table : List Row} {b x : Byte} {row : Row} {m : Mode} {u v rest : List Byte} {o : Operands}
    (hrow : OpcodeMap.rowOfByte table b = some row) (hm : row.op.mode = m) (hA : Field.regA ∈ m.layout)
    (hu : decodeFields m.layout u {} = some (o, rest)) (hv : decodeFields m.layout v {} = some (o, rest))
    (hx : o.regA = Reg.ofByte x) :
    ∃ i, decode table (b :: u) = .ok (i, rest) ∧ decode table (b :: v) = .ok (i, rest) ∧
      i.op = row.op ∧ i.operands.regA.ordinal = x.toNat % 14 := by
  subst hm
  exact ⟨Instr.ofOp row.op o, decode_row hrow hu, decode_row hrow hv, Instr.op_ofOp _ _,
    by rw [Instr.regA_ofOp o hA, hx, Reg.ordinal_ofByte]⟩

/-- The same where the layout has a second register, read from `p`. -/
theorem decode_twoRegisters {table : List Row} {b x p : Byte} {row : Row} {m : Mode} {u v rest : List Byte} {o : Operands}
    (hrow : OpcodeMap.rowOfByte table b = some row) (hm : row.op.mode = m) (hA : Field.regA ∈ m.layout)
    (hB : Field.regB ∈ m.layout) (hu : decodeFields m.layout u {} = some (o, rest))
    (hv : decodeFields m.layout v {} = some (o, rest)) (hx : o.regA = Reg.ofByte x) (hp : o.regB = Reg.ofByte p) :
    ∃ i, decode table (b :: u) = .ok (i, rest) ∧ decode table (b :: v) = .ok (i, rest) ∧
      i.op = row.op ∧ i.operands.regA.ordinal = x.toNat % 14 ∧ i.operands.regB.ordinal = p.toNat % 14 := by
  subst hm
  exact ⟨Instr.ofOp row.op o, decode_row hrow hu, decode_row hrow hv, Instr.op_ofOp _ _,
    by rw [Instr.regA_ofOp o hA, hx, Reg.ordinal_ofByte], by rw [Instr.regB_ofOp o hB, hp, Reg.ordinal_ofByte]⟩

end Sys2Proof

namespace Sys2Proof.Machine

/-- A fetch of a byte of storage reads it and moves `pc` by 1 (R162). -/
theorem State.fetch_storage {s : State} {l : Loc} (h : s.access (s.reg .pc).toNat 1 = .ok (.storage l)) :
    s.fetch = .ok (s.byteAt l) (s.setReg .pc (s.reg .pc + 1)) := by
  rw [State.fetch, State.memRead8_storage h, Res.bind_ok]

/-- Settles O6: the register is the one `Reg.ofByte` gives, which the decoder and the fetch both answer. -/
theorem registerByteModulo14 : Obligations.RegisterByteModulo14 := by
  intro b
  have decoded : decode OpcodeMap.default [0x35, b] = .ok (.incReg (Reg.ofByte b), []) := rfl
  refine ⟨Reg.ofByte b, Reg.ordinal_ofByte b, decoded, fun s l hl hb => ?_⟩
  rw [State.fetchReg, State.fetch_storage hl, Res.bind_ok, hb]

/-- Settles O7: for each mode, the operands that its layout reads from the bytes; the other register bytes give the same registers. -/
theorem registerBytesAreReduced : Obligations.RegisterBytesAreReduced := by
  intro table b x y p q c d row rest hrow hxy hpq
  have hA : Reg.ofByte x = Reg.ofByte y := Reg.ofByte_congr hxy
  have hB : Reg.ofByte p = Reg.ofByte q := Reg.ofByte_congr hpq
  refine ⟨fun hm => ?reg, fun hm => ?immReg, fun hm => ?regImm8, fun hm => ?regMem, fun hm => ?memReg, fun hm => ?regReg,
    fun hm => ?regPtrReg, fun hm => ?immOffReg⟩
  case reg =>
    exact decode_oneRegister (o := { regA := Reg.ofByte x }) hrow hm (by decide) rfl (by rw [hA]; rfl) rfl
  case immReg =>
    exact decode_oneRegister (o := { imm := joinBytes c d, regA := Reg.ofByte x }) hrow hm (by decide) rfl
      (by rw [hA]; rfl) rfl
  case regImm8 =>
    exact decode_oneRegister (o := { regA := Reg.ofByte x, imm8 := c }) hrow hm (by decide) rfl (by rw [hA]; rfl) rfl
  case regMem =>
    exact decode_oneRegister (o := { regA := Reg.ofByte x, addr := joinBytes c d }) hrow hm (by decide) rfl
      (by rw [hA]; rfl) rfl
  case memReg =>
    exact decode_oneRegister (o := { addr := joinBytes c d, regA := Reg.ofByte x }) hrow hm (by decide) rfl
      (by rw [hA]; rfl) rfl
  case regReg =>
    exact decode_twoRegisters (o := { regA := Reg.ofByte x, regB := Reg.ofByte p }) hrow hm (by decide) (by decide) rfl
      (by rw [hA, hB]; rfl) rfl rfl
  case regPtrReg =>
    exact decode_twoRegisters (o := { regA := Reg.ofByte x, regB := Reg.ofByte p }) hrow hm (by decide) (by decide) rfl
      (by rw [hA, hB]; rfl) rfl rfl
  case immOffReg =>
    exact decode_twoRegisters (o := { imm := joinBytes c d, regA := Reg.ofByte x, regB := Reg.ofByte p }) hrow hm
      (by decide) (by decide) rfl (by rw [hA, hB]; rfl) rfl rfl

end Sys2Proof.Machine
end

section
/-! Registers and reset (spec 10_state.md R23 to R25, R40), and the host's registers by name (10_state.md R41, 60_exceptions.md R302,
R330). -/

namespace Sys2Proof.Machine

/-- Settles O8: the two rules of a register read after a register write. -/
theorem registersAreIndependent : Obligations.RegistersAreIndependent := fun s r _ v =>
  ⟨s.reg_setReg_same r v, s.reg_setReg_ne v⟩

/-- Settles O9: each line of the table of R40 is a field of the construction. -/
theorem resetValues : Obligations.ResetValues := by
  intro c regions token devices s
  have zeroed : ∀ r ∈ [Reg.acc, .r1, .r2, .r3, .r4, .r5, .r6, .r7, .r8], s.reg r = 0x0000 := by
    simp [s, State.construct, State.reg, Regs.get]
  exact ⟨rfl, zeroed, rfl, rfl, rfl, rfl, rfl, rfl, rfl, rfl, rfl, rfl⟩

/-! ## Names -/

/-- The names are distinct, so each finds its own register. -/
theorem regOfName_regName (r : Reg) : regOfName (regName r) = some r := by
  cases r <;> decide

theorem regOfName_eq_none {name : String} (h : name ∉ registerNames) : regOfName name = none := by
  refine List.find?_eq_none.mpr fun r hr he => h ?_
  exact List.mem_map.mpr ⟨r, hr, by simpa using he⟩

/-! ## What the host's accesses leave -/

theorem State.onlyRegs_setReg (s : State) (r : Reg) (v : Word) : s.onlyRegs [r] (s.setReg r v) :=
  ⟨State.sameRegsBut_setReg v List.mem_cons_self, ⟨rfl, rfl, rfl⟩, ⟨rfl, rfl, rfl, rfl⟩, rfl, rfl, rfl⟩

theorem State.hostRaise_running {s : State} (e : EngineError) (h : s.runState = .running) :
    s.hostRaise e = s.fail e s.output := by
  simp only [State.hostRaise, h]

theorem State.hostRaise_stopped {s : State} (e : EngineError) (h : s.runState ≠ .running) : s.hostRaise e = s := by
  unfold State.hostRaise
  split
  next hr => exact absurd hr h
  next => rfl

/-- The word that stores an integer is its value modulo 65536 (R25). -/
theorem toNat_ofInt_word (v : Int) : ((BitVec.ofInt 16 v).toNat : Int) = v % 65536 := by
  rw [BitVec.toNat_ofInt]
  exact Int.toNat_of_nonneg (Int.emod_nonneg v (by decide))

/-- Settles O56: a name of the list finds its register, any other finds none; and a step fails only as `step_fault_error` says. -/
theorem hostRegistersByName : Obligations.HostRegistersByName := by
  refine ⟨rfl, fun s r v => ⟨?_, ?_⟩, fun s name v hname => ?_, fun s name output h => ?_⟩
  · simp only [State.hostGet, regOfName_regName]
  · refine ⟨s.setReg r (BitVec.ofInt 16 v), ?_, ?_, s.onlyRegs_setReg r _⟩
    · simp only [State.hostSet, regOfName_regName]
    · rw [State.reg_setReg_same, toNat_ofInt_word]
  · have hnone := regOfName_eq_none hname
    refine ⟨s.hostRaise (.unknownRegisterName name), ?_, ?_, fun hrun => ?_, State.hostRaise_stopped _⟩
    · simp only [State.hostGet, hnone]
    · simp only [State.hostSet, hnone]
    · rw [State.hostRaise_running _ hrun]
      exact ⟨rfl, rfl, s.samePlatform_fail _ _⟩
  · rcases step_fault_error h with ⟨_, he | he | he⟩ | ⟨_, _, he⟩ <;> cases he

end Sys2Proof.Machine
end

section
/-! Accesses (spec 20_memory.md R61 to R69, R72 to R75): where an access goes, what each kind of device answers, and what a read or a
write does there. -/

namespace Sys2Proof.Machine

/-! ## Routing -/

theorem Region.covers_iff {r : Region} {a : Nat} : r.covers a = true ↔ r.start ≤ a ∧ a ≤ r.stop := by
  simp [Region.covers]

theorem State.route_eq_none {s : State} {a : Nat} (h : ∀ r ∈ s.regions, ¬ (r.start ≤ a ∧ a ≤ r.stop)) : s.route a = none :=
  List.find?_eq_none.mpr fun r hr hc => h r hr (Region.covers_iff.mp hc)

/-- The first region that covers an address is the one behind regions that do not (R63). -/
theorem State.route_eq_some {s : State} {a : Nat} {before after : List Region} {r : Region}
    (hs : s.regions = before ++ r :: after) (hb : ∀ q ∈ before, ¬ (q.start ≤ a ∧ a ≤ q.stop)) (hr : r.start ≤ a ∧ a ≤ r.stop) :
    s.route a = some r := by
  refine List.find?_eq_some_iff_append.mpr ⟨Region.covers_iff.mpr hr, before, after, hs, fun q hq => ?_⟩
  rw [Bool.not_eq_true', Bool.eq_false_iff]
  exact fun hc => hb q hq (Region.covers_iff.mp hc)

theorem State.access_unrouted {s : State} {a n : Nat} (ha : a + n ≤ 0x10000) (hr : s.route a = none) :
    s.access a n = .error (.noRegion a) := by
  simp only [State.access, hr, if_neg (Nat.not_lt.mpr ha)]

theorem State.access_routed {s : State} {a n : Nat} {r : Region} (ha : a + n ≤ 0x10000) (hr : s.route a = some r) :
    s.access a n = s.resolve r.device (r.localAddr a) n a := by
  simp only [State.access, hr, if_neg (Nat.not_lt.mpr ha)]

/-- Settles O22: an access is an overflow, or is routed; and the route is none, or the first region that covers the first byte. -/
theorem accessIsRouted : Obligations.AccessIsRouted := by
  intro s a n hn
  refine ⟨fun ha => s.access_overflow (by omega), fun ha hnone => ?_, fun ha before after r hs hb h1 h2 => ?_⟩
  · exact State.access_unrouted (by omega) (State.route_eq_none hnone)
  · exact State.access_routed (by omega) (State.route_eq_some hs hb ⟨h1, h2⟩)

/-! ## What a device answers -/

/-- A linear RAM answers from its one buffer (R72, R73). -/
theorem State.resolve_ram {s : State} {device size : Nat} {m : Memory} (hd : s.devices[device]? = some (.ram size m)) (l n a : Nat) :
    s.resolve device l n a =
      if l + n ≤ size then .ok (.storage { device := device, bank := 0, offset := l }) else .error (.deviceRange a) := by
  simp [State.resolve, hd, Device.selected, Device.buffers, Device.size]

/-- A bank device answers from the buffer `mb` selects (R73, R74). -/
theorem State.resolve_bank {s : State} {device size : Nat} {bs : List Memory} (hd : s.devices[device]? = some (.bank size bs))
    (hbs : 0 < bs.length) (l n a : Nat) :
    s.resolve device l n a =
      if l + n ≤ size then .ok (.storage { device := device, bank := (s.reg .mb).toNat % bs.length, offset := l })
      else .error (.deviceRange a) := by
  simp [State.resolve, hd, Device.selected, Device.buffers, Device.size, Nat.mod_lt _ hbs]

/-- A sink answers every access (R75, log entry 11). -/
theorem State.resolve_sink {s : State} {device : Nat} (hd : s.devices[device]? = some .ioSink) (l n a : Nat) :
    s.resolve device l n a = .ok (.sink device l) := by
  simp only [State.resolve, hd]

/-- Another object answers inside its size (R61, R73, log entry 12). -/
theorem State.resolve_object {s : State} {device kind size x : Nat} (hd : s.devices[device]? = some (.object kind size x))
    (l n a : Nat) :
    s.resolve device l n a = if l + n ≤ size then .ok (.object device l) else .error (.deviceRange a) := by
  simp only [State.resolve, hd]

/-! ## Sinks -/

theorem State.memRead8_sink {s : State} {a d o : Nat} (h : s.access a 1 = .ok (.sink d o)) :
    s.memRead8 a = .ok (Config.ioReadByte s.draws) s.draw := by simp only [State.memRead8, h]

theorem State.memRead16_sink {s : State} {a d o : Nat} (h : s.access a 2 = .ok (.sink d o)) :
    s.memRead16 a = .ok (Config.ioReadWord s.draws) s.draw := by simp only [State.memRead16, h]

theorem State.memWrite8_sink {s : State} {a d o : Nat} (b : Byte) (h : s.access a 1 = .ok (.sink d o)) :
    s.memWrite8 a b = .ok () s := by simp only [State.memWrite8, h]

theorem State.memWrite16_sink {s : State} {a d o : Nat} (v : Word) (h : s.access a 2 = .ok (.sink d o)) :
    s.memWrite16 a v = .ok () (s.emit { device := d, offset := o, value := v }) := by simp only [State.memWrite16, h]

/-- Settles O25: the sink's rule of each of the four primitives. -/
theorem sinkReadsAndWrites : Obligations.SinkReadsAndWrites := fun _ _ _ _ v b =>
  ⟨fun h => ⟨State.memWrite16_sink v h, _, State.memRead16_sink h⟩, fun h => ⟨State.memWrite8_sink b h, _, State.memRead8_sink h⟩⟩

/-! ## Other objects -/

theorem State.memRead8_object {s : State} {a d o : Nat} (h : s.access a 1 = .ok (.object d o)) :
    s.memRead8 a = .ok (s.objectGet8 d o).1 (s.setObject d (s.objectGet8 d o).2) := by simp only [State.memRead8, h]

theorem State.memRead16_object {s : State} {a d o : Nat} (h : s.access a 2 = .ok (.object d o)) :
    s.memRead16 a = .ok (s.objectGet16 d o).1 (s.setObject d (s.objectGet16 d o).2) := by simp only [State.memRead16, h]

theorem State.memWrite8_object {s : State} {a d o : Nat} (b : Byte) (h : s.access a 1 = .ok (.object d o)) :
    s.memWrite8 a b = .ok () (s.setObject d (s.objectSet8 d o b)) := by simp only [State.memWrite8, h]

theorem State.memWrite16_object {s : State} {a d o : Nat} (v : Word) (h : s.access a 2 = .ok (.object d o)) :
    s.memWrite16 a v = .ok () (s.setObject d (s.objectSet16 d o v)) := by simp only [State.memWrite16, h]

/-- Where an access reaches an object, replacing its contents changes that object alone. -/
theorem State.changesObject_of_access {s : State} {a n d o : Nat} (h : s.access a n = .ok (.object d o)) (contents : Nat) :
    s.changesObject d contents (s.setObject d contents) := by
  obtain ⟨_, _, _, hd⟩ := State.access_object h
  exact State.changesObject_setObject contents hd

/-- Settles O23: the answer of each kind of device is one bound, which holds or does not. -/
theorem devicesAnswer : Obligations.DevicesAnswer := by
  intro s device l n a
  refine ⟨fun size m hd => ?ram, fun size bs hd hbs => ?bank, fun hd => State.resolve_sink hd l n a,
    fun kind size x hd => ?object, fun v b d o => ⟨fun h => ?byte, fun h => ?word⟩⟩
  case ram =>
    rw [State.resolve_ram hd]
    exact ⟨fun h => if_pos h, fun h => if_neg (Nat.not_le.mpr h)⟩
  case bank =>
    rw [State.resolve_bank hd hbs]
    exact ⟨fun h => if_pos h, fun h => if_neg (Nat.not_le.mpr h)⟩
  case object =>
    rw [State.resolve_object hd]
    exact ⟨fun h => if_pos h, fun h => if_neg (Nat.not_le.mpr h)⟩
  case byte =>
    exact ⟨⟨_, State.memRead8_object h, State.changesObject_of_access h _⟩,
      _, State.memWrite8_object b h, State.changesObject_of_access h _⟩
  case word =>
    exact ⟨⟨_, State.memRead16_object h, State.changesObject_of_access h _⟩,
      _, State.memWrite16_object v h, State.changesObject_of_access h _⟩

/-! ## Storage -/

theorem State.sameBytesBut_setWordAt (s : State) (l : Loc) (v : Word) : s.sameBytesBut [l, l.next] (s.setWordAt l v) := by
  intro x hx
  simp only [List.mem_cons, List.not_mem_nil, or_false, not_or] at hx
  exact s.byteAt_setWordAt_ne v hx.1 hx.2

/-- Settles O24: the write leaves the routing as it was, so the read meets the place just written. -/
theorem wordWrittenIsReadBack : Obligations.WordWrittenIsReadBack := by
  intro s a v l h
  obtain ⟨_, hbuf, _⟩ := State.access_storage h
  have hread : (s.setWordAt l v).memRead16 a = .ok v (s.setWordAt l v) := by
    rw [State.memRead16_storage ((s.access_setWordAt l v a 2).trans h), s.wordAt_setWordAt_same v hbuf]
  exact ⟨s.setWordAt l v, State.memWrite16_storage v h, hread, s.byteAt_setWordAt_hi v hbuf, s.byteAt_setWordAt_lo v hbuf,
    s.sameBytesBut_setWordAt l v⟩

/-- A word inside the storage of a bank device lies in the buffer `mb` selects (R74). -/
theorem State.access_bank {s : State} {a size : Nat} {r : Region} {bs : List Memory} (hbs : 0 < bs.length) (ha : a ≤ 0xFFFE)
    (hr : s.route a = some r) (hd : s.devices[r.device]? = some (.bank size bs)) (hl : r.localAddr a + 2 ≤ size) :
    s.access a 2 = .ok (.storage { device := r.device, bank := (s.reg .mb).toNat % bs.length, offset := r.localAddr a }) := by
  rw [State.access_routed (by omega) hr, State.resolve_bank hd hbs, if_pos hl]

/-- A store leaves the routing of every later value of `mb` as it was. -/
theorem State.access_setReg_setWordAt (s : State) (l : Loc) (v w : Word) (r : Reg) (a n : Nat) :
    ((s.setWordAt l v).setReg r w).access a n = (s.setReg r w).access a n :=
  State.access_congr (by simp) (by simp) (by simp [State.reg_setReg]) a n

/-- Settles O26: the two bytes written lie in the selected buffer, and what a buffer is selected by is `mb` alone. -/
theorem banksAreIndependent : Obligations.BanksAreIndependent := by
  intro s a v m r size bs hbs ha hr hd hl
  refine ⟨_, State.memWrite16_storage v (State.access_bank hbs ha hr hd hl), fun l _ hbank => ?_, ?_⟩
  · exact s.byteAt_setWordAt_ne v (fun he => hbank (congrArg Loc.bank he)) fun he => hbank (congrArg Loc.bank he)
  · rw [State.access_setReg_setWordAt]
    have hbank := State.access_bank (s := s.setReg .mb m) hbs ha hr hd hl
    rwa [State.reg_setReg_same] at hbank

/-! ## Data accesses that fail -/

theorem State.storeWord_error {s : State} {a : Nat} {e : EngineError} (v : Word) (h : s.access a 2 = .error e) :
    s.storeWord a v = .fault (.failed e s.output) := by
  rw [State.storeWord, State.memWrite16_eq_fault.mpr ⟨e, h, rfl⟩, Res.toOutcome_fault]

theorem State.loadInto_error {s : State} {a : Nat} {e : EngineError} (d : Reg) (h : s.access a 2 = .error e) :
    s.loadInto a d = .fault (.failed e s.output) := by
  rw [State.loadInto, State.memRead16_eq_fault.mpr ⟨e, h, rfl⟩, Res.bind_fault, Res.toOutcome_fault]

/-- Settles O14: each move is a store or a load at an address whose word ends above 0xFFFF. -/
theorem dataAccessOverflows : Obligations.DataAccessOverflows := by
  intro s imm r d
  have top : s.access 0xFFFF 2 = .error (.addressOverflow 0xFFFF) := s.access_overflow (by decide)
  refine ⟨State.storeWord_error (s.reg r) top, State.storeWord_error imm top, State.loadInto_error d top, fun hr => ?pointer,
    fun hsum => State.loadInto_error d (s.access_overflow ?offset)⟩
  case pointer =>
    have hptr : s.access (s.reg r).toNat 2 = .error (.addressOverflow 0xFFFF) := by rw [hr]; exact top
    exact State.loadInto_error d hptr
  case offset =>
    unfold offsetAddr
    omega

end Sys2Proof.Machine
end

section
/-! Mapping and unmapping (spec 20_memory.md R76, R77): the region list and the routing after each. -/

namespace Sys2Proof.Machine

/-- A mapped region takes its range and no other address (R76). -/
theorem State.route_map (s : State) (device start stop : Nat) (remap : Bool) (a : Nat) :
    (s.map device start stop remap).1.route a =
      if start ≤ a ∧ a ≤ stop then
        some { token := s.nextToken, device := device, start := start, stop := stop, remap := remap }
      else s.route a := by
  by_cases h : start ≤ a ∧ a ≤ stop <;> simp [State.map, State.route, Region.covers, h]

/-- A handle removes the one region that holds its token, and keeps the order of the others (R76). -/
theorem State.unmap_regions {s : State} {later earlier : List Region} {r : Region} (hs : s.regions = later ++ r :: earlier)
    (h : ∀ q ∈ later ++ earlier, q.token ≠ r.token) : (s.unmap r.token).regions = later ++ earlier := by
  have keeps : ∀ qs : List Region, (∀ q ∈ qs, q.token ≠ r.token) → qs.filter (fun q => q.token != r.token) = qs :=
    fun qs hqs => List.filter_eq_self.mpr fun q hq => bne_iff_ne.mpr (hqs q hq)
  obtain ⟨hlater, hearlier⟩ := List.forall_mem_append.mp h
  simp only [State.unmap, hs, List.filter_append, List.filter_cons, bne_self_eq_false, Bool.false_eq_true, if_false, keeps _ hlater,
    keeps _ hearlier]

/-- Settles O27: mapping routes as `State.route_map` says, and the new region is the first of the list that its handle is taken out of. -/
theorem mappingShadowsAndUnmaps : Obligations.MappingShadowsAndUnmaps := by
  intro s device start stop remap hfresh t token
  have undone : (t.unmap token).regions = s.regions := State.unmap_regions (s := t) (later := []) rfl hfresh
  refine ⟨fun a h1 h2 => ?_, fun a h => ?_, undone, fun a => ?_, fun _ => rfl, rfl, fun _ _ _ => State.unmap_regions⟩
  · exact ⟨_, (s.route_map device start stop remap a).trans (if_pos ⟨h1, h2⟩), rfl, rfl, rfl⟩
  · exact (s.route_map device start stop remap a).trans (if_neg h)
  · rw [State.route, undone, State.route]

end Sys2Proof.Machine
end

section
/-! What a step does to the output and to memory (spec 20_memory.md R71, R75, R79, 40_cycle.md R169): the errors of a step that fails, the
output it keeps, and what an instruction that is no store leaves. -/

namespace Sys2Proof.Machine

/-! ## Failing steps, and the output -/

/-- A step that fails has met an access error of its platform, or an opcode byte with no row; the output is kept (R169, R301). -/
theorem step_fault_raises {s : State} {e : EngineError} {output : List OutputEvent} (h : step s = .fault (.failed e output)) :
    (s.RaisesAccess e ∨ ∃ op a, e = .illegalOpcode op a) ∧ s.output <+: output := by
  rcases step_cases h with ⟨_, hn⟩ | ⟨_, _, hn⟩ | ⟨_, ⟨i, s1, hf, hn⟩ | ⟨_, _, hn⟩ | ⟨f, hf, hn⟩⟩
  · cases hn
  · cases hn
  · have fetched := State.fetchInstr_ok hf
    obtain ⟨_, _, he, hraise, hout⟩ := exec_fault_raisesAccess hn.symm
    cases he
    exact ⟨Or.inl (hraise.of_samePlatform fetched.platform), fetched.output.trans hout⟩
  · cases hn
  · cases hn
    obtain ⟨_, _, he, hraise, hout⟩ := State.fetchInstr_fault hf
    cases he
    exact ⟨hraise, hout⟩

/-- Settles O28: on the default platform an access error is an overflow. -/
theorem defaultPlatformFaults : Obligations.DefaultPlatformFaults := fun _ _ _ hflat h =>
  (step_fault_raises h).1.imp_left fun hraise => hraise.flat hflat

theorem exec_output {i : Instr} {s t : State} (h : exec i s = .next t) : s.output <+: t.output := by
  rcases exec_next_evolves_or_halts h with he | ⟨_, rfl⟩
  · exact he.output
  · exact List.prefix_rfl

/-- Settles O50: the fetch keeps the output, and so does the instruction. -/
theorem outputOnlyGrows : Obligations.OutputOnlyGrows := by
  refine fun s => ⟨fun t h => ?_, fun e output h => (step_fault_raises h).2⟩
  rcases step_next_cases h with ⟨i, s1, hf, hx⟩ | hf
  · exact (State.fetchInstr_ok hf).output.trans (exec_output hx)
  · exact (State.fetchInstr_ok hf).output

/-! ## What reads and pops keep -/

/-- A relation between the state before and after that sequencing keeps, and that a register write, a write of `F` and a 16-bit read
meet: all that the pops are made of (R251, R258). -/
structure KeptByPops (R : State → State → Prop) : Prop where
  refl : ∀ s, R s s
  trans : ∀ a b c, R a b → R b c → R a c
  setReg : ∀ s r v, R s (s.setReg r v)
  setFrameSize : ∀ s v, R s (s.setFrameSize v)
  memRead16 : ∀ s a, Res.Post R s (s.memRead16 a)

section
variable {R : State → State → Prop}

theorem KeptByPops.bind {α β : Type} (hR : KeptByPops R) {s : State} {x : Res α} {k : α → State → Res β} (hx : Res.Post R s x)
    (hk : ∀ v t, Res.Post R t (k v t)) : Res.Post R s (x.bind k) :=
  Res.Post.bind hR.trans hx fun v t _ => hk v t

theorem KeptByPops.after {α : Type} (hR : KeptByPops R) {s t : State} {x : Res α} (h : R s t) (hx : Res.Post R t x) :
    Res.Post R s x :=
  fun v u hu => hR.trans s t u h (hx v u hu)

theorem KeptByPops.pop (hR : KeptByPops R) (s : State) : Res.Post R s s.pop :=
  hR.after (hR.setReg s .sp _) <| hR.bind (hR.memRead16 _ _) fun _ t => Res.Post.ok (hR.setFrameSize t _)

theorem KeptByPops.popInto (hR : KeptByPops R) (rs : List Reg) : ∀ s : State, Res.Post R s (s.popInto rs) := by
  induction rs with
  | nil => exact fun s => Res.Post.ok (hR.refl s)
  | cons r rs ih => exact fun s => hR.bind (hR.pop s) fun v t => hR.after (hR.setReg t r v) (ih _)

theorem KeptByPops.discard (hR : KeptByPops R) (n : Nat) : ∀ s : State, Res.Post R s (s.discard n) := by
  induction n with
  | zero => exact fun s => Res.Post.ok (hR.refl s)
  | succ n ih => exact fun s => hR.bind (hR.pop s) fun _ t => ih t

theorem KeptByPops.popState (hR : KeptByPops R) (s : State) : Res.Post R s s.popState :=
  hR.after (hR.setReg s .sp _) <| hR.bind (hR.pop _) fun fs s1 =>
    hR.bind (hR.after (hR.setFrameSize s1 fs) (hR.popInto _ _)) fun _ s2 =>
      hR.bind (hR.pop s2) fun n s3 => hR.bind (hR.discard n.toNat s3) fun _ s4 => Res.Post.ok (hR.setReg s4 .fp _)

/-- An operation followed by a write of its value into a register. -/
theorem KeptByPops.into (hR : KeptByPops R) {s : State} {x : Res Word} (d : Reg) (hx : Res.Post R s x) :
    Res.Post R s (x.bind fun v s1 => .ok () (s1.setReg d v)) :=
  hR.bind hx fun v t => Res.Post.ok (hR.setReg t d v)

end

/-! ## What an instruction that is no store leaves -/

/-- The output, every stored byte, and every device that is not another object are as before. -/
structure State.KeepsStored (s t : State) : Prop where
  output : t.output = s.output
  bytes : ∀ l, t.byteAt l = s.byteAt l
  devices : ∀ k : Nat, (∀ kind size x, s.devices[k]? ≠ some (Device.object kind size x)) → t.devices[k]? = s.devices[k]?

theorem State.KeepsStored.of_devices {s t : State} (ho : t.output = s.output) (hd : t.devices = s.devices) : s.KeepsStored t :=
  ⟨ho, fun l => by simp only [State.byteAt, State.bufferAt, hd], fun k _ => by rw [hd]⟩

theorem State.KeepsStored.trans {a b c : State} (h : a.KeepsStored b) (h' : b.KeepsStored c) : a.KeepsStored c := by
  refine ⟨h'.output.trans h.output, fun l => (h'.bytes l).trans (h.bytes l), fun k hk => ?_⟩
  have hb := h.devices k hk
  exact (h'.devices k fun kind size x hx => hk kind size x (hb ▸ hx)).trans hb

/-- Replacing what an object holds changes no device that is none. -/
theorem State.KeepsStored.setObject (s : State) (d c : Nat) : s.KeepsStored (s.setObject d c) := by
  refine ⟨s.output_setObject d c, s.byteAt_setObject d c, fun k hk => ?_⟩
  rcases s.setObject_cases d c with ⟨kind, size, x, hd, he⟩ | he
  · have hne : d ≠ k := fun hdk => hk kind size x (hdk ▸ hd)
    rw [he, State.devices_setDevices, List.getElem?_set_ne hne]
  · rw [he]

theorem State.keepsStored_memRead16 (s : State) (a : Nat) : Res.Post State.KeepsStored s (s.memRead16 a) := by
  intro v t h
  rcases State.memRead16_eq_ok.mp h with ⟨_, _, _, rfl⟩ | ⟨_, _, _, _, rfl⟩ | ⟨d, o, _, _, rfl⟩
  · exact .of_devices rfl rfl
  · exact .of_devices rfl rfl
  · exact .setObject s d _

theorem State.keepsStored_keptByPops : KeptByPops State.KeepsStored where
  refl _ := .of_devices rfl rfl
  trans _ _ _ := State.KeepsStored.trans
  setReg _ _ _ := .of_devices rfl rfl
  setFrameSize _ _ := .of_devices rfl rfl
  memRead16 := State.keepsStored_memRead16

/-- An instruction that is no store, push, call or request is an operation of register writes, reads and pops (R71). -/
theorem exec_keepsStored {i : Instr} (hi : mayStore i = false) (s : State) :
    ∃ x : Res Unit, exec i s = x.toOutcome ∧ Res.Post State.KeepsStored s x := by
  have kept := State.keepsStored_keptByPops
  have write : ∀ {o} (d : Reg) (v : Word), o = .next (s.setReg d v) →
      ∃ x : Res Unit, o = x.toOutcome ∧ Res.Post State.KeepsStored s x :=
    fun d v ho => ⟨.ok () (s.setReg d v), ho, Res.Post.ok (kept.setReg s d v)⟩
  cases i
  case movRegMem | movImmMem | pshImm | pshReg | calImm | calReg | intImm => cases hi
  case movMemReg | movRegPtrReg | movImmOffReg => exact ⟨_, rfl, kept.into _ (kept.memRead16 s _)⟩
  case popReg r => exact ⟨_, rfl, kept.into r (kept.pop s)⟩
  case ret => exact ⟨_, rfl, kept.popState s⟩
  case rti => exact ⟨_, rfl, kept.after (t := s.setHandler false) (.of_devices rfl rfl) (kept.popState _)⟩
  case hlt => exact ⟨.ok () (s.setRunState .halted), rfl, Res.Post.ok (.of_devices rfl rfl)⟩
  case jneImmMem | jneRegMem | jeqImmMem | jeqRegMem | jltImmMem | jltRegMem | jgtImmMem | jgtRegMem | jleImmMem | jleRegMem |
      jgeImmMem | jgeRegMem =>
    exact write _ _ (s.jumpIf_eq_setReg _ _ _)
  -- The moves into a register and the ALU.
  all_goals exact write _ _ rfl

/-- Settles O53: such an instruction's operation keeps what is stored and what was emitted. -/
theorem onlyStoresWriteMemory : Obligations.OnlyStoresWriteMemory := by
  intro i s t hi h
  obtain ⟨x, hx, hpost⟩ := exec_keepsStored hi s
  have kept := hpost.next (hx.symm.trans h)
  exact ⟨kept.output, fun l _ => kept.bytes l, kept.devices⟩

end Sys2Proof.Machine
end

section
/-! Every step keeps the machine well-formed (spec 30_encoding.md R101, 20_memory.md R62, R73, R76): the table and the regions stand on
the platform, which nothing changes, and the memory is kept by every evolution. -/

namespace Sys2Proof.Machine

theorem State.wf_iff {s : State} :
    s.wf = true ↔ OpcodeMap.wf s.config.opcodeMap = true ∧ s.regionsWf = true ∧ s.memoryWf = true := by
  simp [State.wf, and_assoc]

/-- A platform that is the same has as many devices. -/
theorem State.samePlatform.length_devices {s t : State} (h : s.samePlatform t) : t.devices.length = s.devices.length := by
  obtain ⟨_, _, _, shapes⟩ := h
  simpa [State.shapes] using congrArg List.length shapes

/-- Whether the regions are well-formed is the platform's: the regions, the handle counter and the number of devices. -/
theorem State.samePlatform.regionsWf {s t : State} (h : s.samePlatform t) : t.regionsWf = s.regionsWf := by
  have devices := h.length_devices
  obtain ⟨_, regions, token, _⟩ := h
  have region : t.regionWf = s.regionWf := by
    funext r
    simp only [State.regionWf, devices, token]
  simp only [State.regionsWf, regions, region]

theorem State.Evolves.wf {s t : State} (h : s.Evolves t) (hs : s.wf = true) : t.wf = true := by
  obtain ⟨table, regions, memory⟩ := State.wf_iff.mp hs
  have config : t.config = s.config := h.platform.1
  exact State.wf_iff.mpr ⟨config ▸ table, h.platform.regionsWf.trans regions, h.memoryWf memory⟩

/-- An instruction keeps the machine well-formed; `hlt` writes nothing that well-formedness speaks of. -/
theorem exec_wf {i : Instr} {s t : State} (h : exec i s = .next t) (hs : s.wf = true) : t.wf = true := by
  rcases exec_next_evolves_or_halts h with he | ⟨_, rfl⟩
  · exact he.wf hs
  · exact hs

/-- Settles O48: the fetch keeps the machine well-formed, and so does the instruction. -/
theorem stepKeepsWellFormedMachine : Obligations.StepKeepsWellFormedMachine := by
  intro s t hs h
  rcases step_next_cases h with ⟨i, s1, hf, hx⟩ | hf
  · exact exec_wf hx ((State.fetchInstr_ok hf).wf hs)
  · exact (State.fetchInstr_ok hf).wf hs

end Sys2Proof.Machine
end

section
/-! The encoding (spec 30_encoding.md R101, R103, R112 to R118): the bytes of an instruction under any well-formed table and their
reading back, and how many bytes the decoder reads of a string. -/

namespace Sys2Proof

/-! ## Encoding and reading back -/

/-- The encoding of an instruction that has a row (R118). -/
theorem encode_of_row {t : List Row} {i : Instr} {row : Row} (h : OpcodeMap.rowOfOp t i.op = some row) :
    encode t i = some (row.opcode :: encodeFields i.op.mode.layout i.operands) := by
  simp only [encode, h]

/-- A row's size is one opcode byte and the fields of its layout (R101 c, R103). -/
theorem OpcodeMap.size_eq_layout {t : List Row} (hwf : OpcodeMap.wf t = true) {row : Row} (hm : row ∈ t) :
    row.size = 1 + (row.op.mode.layout.map Field.width).sum := by
  rw [OpcodeMap.size_of_wf hwf hm, Mode.size_eq_layout]

theorem length_encoding {t : List Row} (hwf : OpcodeMap.wf t = true) {op : Op} {row : Row}
    (h : OpcodeMap.rowOfOp t op = some row) (o : Operands) :
    (row.opcode :: encodeFields op.mode.layout o).length = row.size := by
  obtain ⟨hm, rfl⟩ := OpcodeMap.rowOfOp_some h
  rw [OpcodeMap.size_eq_layout hwf hm, List.length_cons, length_encodeFields, Nat.add_comm]

/-- The encoding decodes back to the instruction, with whatever follows it (R116, R118). -/
theorem decode_encoding {t : List Row} (hwf : OpcodeMap.wf t = true) {i : Instr} {row : Row}
    (h : OpcodeMap.rowOfOp t i.op = some row) (rest : List Byte) :
    decode t ((row.opcode :: encodeFields i.op.mode.layout i.operands) ++ rest) = .ok (i, rest) := by
  obtain ⟨_, hop⟩ := OpcodeMap.rowOfOp_some h
  have hfields : decodeFields row.op.mode.layout (encodeFields i.op.mode.layout i.operands ++ rest) {} =
      some (i.operands, rest) := by
    rw [hop, decodeFields_encodeFields, Instr.copy_operands]
  rw [List.cons_append, decode_row (OpcodeMap.rowOfByte_rowOfOp hwf h) hfields, hop, Instr.ofOp_operands]

/-- Settles O1: the row is the one the encoder finds. -/
theorem encodedInstructionDecodesBack : Obligations.EncodedInstructionDecodesBack := by
  intro table i hwf hi
  obtain ⟨row, hrow⟩ := OpcodeMap.exists_rowOfOp hi
  obtain ⟨hm, hop⟩ := OpcodeMap.rowOfOp_some hrow
  exact ⟨row, hm, hop, encode_of_row hrow, length_encoding hwf hrow _, decode_encoding hwf hrow⟩

/-! ## How much of a string the decoder reads -/

/-- A field is read from any string that is long enough, and only its bytes are. -/
theorem Field.exists_decode (f : Field) (o : Operands) {bytes : List Byte} (h : f.width ≤ bytes.length) :
    ∃ o', f.decode bytes o = some (o', bytes.drop f.width) := by
  cases f with
  | imm | addr =>
    match bytes, h with
    | _ :: _ :: _, _ => exact ⟨_, rfl⟩
  | regA | regB | imm8 =>
    match bytes, h with
    | _ :: _, _ => exact ⟨_, rfl⟩

theorem exists_decodeFields (fs : List Field) : ∀ (o : Operands) {bytes : List Byte},
    (fs.map Field.width).sum ≤ bytes.length →
      ∃ o', decodeFields fs bytes o = some (o', bytes.drop (fs.map Field.width).sum) := by
  induction fs with
  | nil => exact fun o _ _ => ⟨o, rfl⟩
  | cons f fs ih =>
    intro o bytes h
    rw [List.map_cons, List.sum_cons] at h ⊢
    obtain ⟨o1, hfirst⟩ := f.exists_decode o (bytes := bytes) (by omega)
    obtain ⟨o2, hrest⟩ := ih o1 (bytes := bytes.drop f.width) (by rw [List.length_drop]; omega)
    exact ⟨o2, by simp only [decodeFields, hfirst, hrest, List.drop_drop]⟩

theorem decodeFields_eq_none {fs : List Field} {bytes : List Byte} (o : Operands)
    (h : bytes.length < (fs.map Field.width).sum) : decodeFields fs bytes o = none := by
  cases hd : decodeFields fs bytes o with
  | none => rfl
  | some read =>
    have := length_decodeFields fs hd
    omega

/-- Settles O5: after the first byte the decoder reads the row's layout, which is one byte less than the row's size. -/
theorem decodeReadsTheRowsSize : Obligations.DecodeReadsTheRowsSize := by
  intro table b bytes hwf
  refine ⟨fun hnone => by simp only [decode, hnone], fun row hrow => ?_⟩
  have hsize := OpcodeMap.size_eq_layout hwf (OpcodeMap.rowOfByte_some hrow).1
  refine ⟨fun hlong => ?_, fun hshort => ?_⟩
  · rw [List.length_cons] at hlong
    obtain ⟨o, hread⟩ := exists_decodeFields row.op.mode.layout {} (bytes := bytes) (by omega)
    refine ⟨Instr.ofOp row.op o, ?_, Instr.op_ofOp _ _⟩
    rw [decode_row hrow hread, hsize, Nat.add_comm, List.drop_succ_cons]
  · rw [List.length_cons] at hshort
    have hnone := decodeFields_eq_none (fs := row.op.mode.layout) (bytes := bytes) {} (by omega)
    simp only [decode, hrow, hnone]

/-! ## Fields, written out -/

theorem toNat_hiByte (w : Word) : (hiByte w).toNat = w.toNat / 256 := by
  have hw : w.toNat < 65536 := w.isLt
  rw [hiByte, BitVec.extractLsb'_toNat, Nat.shiftRight_eq_div_pow]
  omega

theorem toNat_loByte (w : Word) : (loByte w).toNat = w.toNat % 256 := by
  rw [loByte, BitVec.extractLsb'_toNat, Nat.shiftRight_zero]

theorem Reg.toNat_toByte (r : Reg) : r.toByte.toNat = r.ordinal := by
  have hr : r.ordinal < 14 := r.ordinal_lt
  rw [Reg.toByte, BitVec.toNat_ofNat]
  omega

/-- Settles O2: each layout and each size is a line of R103's table; the bytes of a word and of a register by value. -/
theorem operandBytesOfEachMode : Obligations.OperandBytesOfEachMode := by
  refine ⟨fun o => ?layouts, ?sizes, fun w => ⟨toNat_hiByte w, toNat_loByte w⟩, fun r => ⟨r.toNat_toByte, r.ordinal_lt⟩⟩
  case layouts => exact ⟨rfl, rfl, rfl, rfl, rfl, rfl, rfl, rfl, rfl, rfl, rfl⟩
  case sizes => exact ⟨rfl, rfl, rfl, rfl, rfl, rfl, rfl, rfl, rfl, rfl, rfl⟩

/-! ## The default table -/

theorem OpcodeMap.rowOfByte_isNone_iff {t : List Row} {b : Byte} :
    (OpcodeMap.rowOfByte t b).isNone = true ↔ ∀ row ∈ t, row.opcode ≠ b := by
  simp [OpcodeMap.rowOfByte]

/-- A byte value is assigned exactly when it is a row's opcode. -/
theorem OpcodeMap.mem_assigned_iff {t : List Row} {n : Nat} :
    n ∈ (List.range 256).filter (fun n => !(OpcodeMap.rowOfByte t (BitVec.ofNat 8 n)).isNone) ↔
      n ∈ t.map fun row => row.opcode.toNat := by
  rw [List.mem_filter, List.mem_range, List.mem_map, Bool.not_eq_true', Bool.eq_false_iff, Ne,
    OpcodeMap.rowOfByte_isNone_iff]
  push Not
  constructor
  · rintro ⟨hn, row, hm, ho⟩
    exact ⟨row, hm, by rw [ho, BitVec.toNat_ofNat]; exact Nat.mod_eq_of_lt hn⟩
  · rintro ⟨row, hm, rfl⟩
    exact ⟨row.opcode.isLt, row, hm, by simp⟩

/-- Distinct opcodes assign one byte value for each row (R101 a, R113). -/
theorem OpcodeMap.length_unassigned {t : List Row} (h : OpcodeMap.opcodesDistinct t = true) :
    ((List.range 256).filter fun n => (OpcodeMap.rowOfByte t (BitVec.ofNat 8 n)).isNone).length = 256 - t.length := by
  have hdistinct : (t.map fun row => row.opcode.toNat).Nodup := by
    have hopcodes : (t.map Row.opcode).Nodup := of_decide_eq_true h
    simpa [Function.comp_def] using hopcodes.map fun _ _ => BitVec.eq_of_toNat_eq
  have hassigned := ((List.perm_ext_iff_of_nodup (List.nodup_range.filter _) hdistinct).mpr fun n =>
    OpcodeMap.mem_assigned_iff).length_eq
  have htotal := List.length_eq_length_filter_add (l := List.range 256)
    fun n => (OpcodeMap.rowOfByte t (BitVec.ofNat 8 n)).isNone
  rw [List.length_range, hassigned, List.length_map] at htotal
  omega

/-- Settles O3: the unassigned bytes are what 44 distinct opcodes leave of 256. -/
theorem defaultTableIsWellFormed : Obligations.DefaultTableIsWellFormed := by
  have distinct : OpcodeMap.opcodesDistinct OpcodeMap.default = true := by decide
  exact ⟨Machine.opcodeMap_wf_default, rfl, OpcodeMap.length_unassigned distinct, by decide⟩

/-- A word whose opcode byte selects the row, and whose other bytes the row's layout reads as the operands. -/
theorem decodesTo_row {t : List Row} {b : Byte} {bytes : List Byte} (row : Row) (o : Operands)
    (hrow : OpcodeMap.rowOfByte t b = some row) (hbytes : decodeFields row.op.mode.layout bytes {} = some (o, [])) :
    Machine.decodesTo t (b :: bytes) (Instr.ofOp row.op o) :=
  decode_row hrow hbytes

/-- Settles O4: the row of each word and the operands in it. -/
theorem decodesSpecWords : Obligations.DecodesSpecWords :=
  ⟨decodesTo_row ⟨.movImmReg, 0x10, 4⟩ { imm := 0x1234, regA := .r1 } rfl rfl,
    decodesTo_row ⟨.movImmOffReg, 0x1D, 5⟩ { imm := 0x0100, regA := .r1, regB := .r2 } rfl rfl,
    decodesTo_row ⟨.subImmReg, 0x16, 4⟩ { imm := 0x0001, regA := .r1 } rfl rfl,
    decodesTo_row ⟨.lsfRegImm8, 0x26, 3⟩ { regA := .r1, imm8 := 0x04 } rfl rfl,
    decodesTo_row ⟨.jneImmMem, 0x15, 5⟩ { imm := 0x0005, addr := 0x0040 } rfl rfl,
    decodesTo_row ⟨.calReg, 0x5F, 2⟩ { regA := .r3 } rfl rfl,
    decodesTo_row ⟨.intImm, 0xFD, 3⟩ { imm := 0x0003 } rfl rfl, rfl⟩

end Sys2Proof

namespace Sys2Proof.Machine

/-! ## An opcode byte with no row -/

theorem step_running {s : State} (h : s.runState = .running) : step s = s.fetchAndExecute := by
  simp only [step, h]

/-- Under the `fault` policy an opcode byte with no row raises `IllegalOpcode` (R113). -/
theorem State.fetchInstr_illegalOpcode {s s1 : State} {b : Byte} (hf : s.fetch = .ok b s1)
    (hnone : OpcodeMap.rowOfByte s1.config.opcodeMap b = none) (hpolicy : s1.config.unknownOpcode = .fault) :
    s.fetchInstr = s1.raise (.illegalOpcode b (s.reg .pc)) := by
  simp only [State.fetchInstr, hf, Res.bind_ok, hnone, hpolicy]

/-- Under the `nop` policy it is no instruction, and the fetch of the byte is all there is (R113). -/
theorem State.fetchInstr_nop {s s1 : State} {b : Byte} (hf : s.fetch = .ok b s1)
    (hnone : OpcodeMap.rowOfByte s1.config.opcodeMap b = none) (hpolicy : s1.config.unknownOpcode = .nop) :
    s.fetchInstr = .ok none s1 := by
  simp only [State.fetchInstr, hf, Res.bind_ok, hnone, hpolicy]

/-- Settles O45: the fetch reads the byte and moves `pc` by 1, which leaves the output and the configuration; the rest is the
policy's. -/
theorem unassignedOpcode : Obligations.UnassignedOpcode := by
  intro s b hrun ⟨l, hcode⟩ hnone
  have fetched : s.fetch = .ok b (s.setReg .pc (s.reg .pc + 1)) := State.fetch_code hcode
  rw [step_running hrun, State.fetchAndExecute]
  refine ⟨fun hpolicy => ?_, fun hpolicy => ?_⟩
  · rw [State.fetchInstr_illegalOpcode fetched hnone hpolicy]
    rfl
  · rw [State.fetchInstr_nop fetched hnone hpolicy]

end Sys2Proof.Machine
end

section
/-! The reduction of a flat expression list (spec 30_encoding.md R126): where the highest priority is, which operator collapses, and that a
collapse is one step of the reduction. -/

namespace Sys2Proof.Machine

/-- A priority that some operator has and none exceeds is the highest. -/
theorem maxPriority_eq {l : List (ExprOp × Expr)} {p : Nat} (hmem : ∃ x ∈ l, x.1.priority = p)
    (hle : ∀ x ∈ l, x.1.priority ≤ p) : maxPriority l = p := by
  have hfold : maxPriority l = (l.map fun x => x.1.priority).foldr max ⊥ := by
    rw [← List.foldl_eq_foldr, List.foldl_map]
    rfl
  obtain ⟨x, hx, hp⟩ := hmem
  rw [hfold]
  apply Nat.le_antisymm
  · exact List.max_le_of_forall_le _ _ (List.forall_mem_map.mpr hle)
  · exact List.le_max_of_le (List.mem_map.mpr ⟨x, hx, hp⟩) le_rfl

/-- An operator of the priority asked for collapses with the element before it. -/
theorem collapse_cons (e : Expr) (op : ExprOp) (b : Expr) (after : List (ExprOp × Expr)) :
    collapse op.priority e ((op, b) :: after) = (.binOp op e b, after) := by
  rw [collapse, if_pos rfl]

/-- Behind operators of other priorities the first operator of the priority collapses with its two neighbours. -/
theorem collapse_append {op op' : ExprOp} {before : List (ExprOp × Expr)} (a b : Expr) (after : List (ExprOp × Expr))
    (hbefore : ∀ x ∈ before, x.1.priority ≠ op.priority) (hop' : op'.priority ≠ op.priority) :
    ∀ e, collapse op.priority e (before ++ (op', a) :: (op, b) :: after) = (e, before ++ (op', .binOp op a b) :: after) := by
  induction before with
  | nil =>
    intro e
    rw [List.nil_append, collapse, if_neg hop', collapse_cons, List.nil_append]
  | cons x before ih =>
    intro e
    obtain ⟨hx, hrest⟩ := List.forall_mem_cons.mp hbefore
    rw [List.cons_append, collapse, if_neg hx, ih hrest, List.cons_append]

/-- A reduction goes on from its first collapse (R126). -/
theorem reduce_eq_of_collapse {e e' : Expr} {l l' : List (ExprOp × Expr)} {p : Nat} (hp : maxPriority l = p)
    (hc : collapse p e l = (e', l')) (hlen : l.length = l'.length + 1) : reduce e l = reduce e' l' := by
  rw [reduce, hlen, reduceTimes, hp, hc, reduce]

/-- Settles O58: at the place named the priority is the highest and no operator before has it, so that operator collapses. -/
theorem expressionReduction : Obligations.ExpressionReduction := by
  refine ⟨fun e => rfl, fun e op b after hafter => ?_, fun e before op' a op b after hbefore hop' hafter => ?_⟩
  · have hmax : maxPriority ((op, b) :: after) = op.priority :=
      maxPriority_eq ⟨(op, b), List.mem_cons_self, rfl⟩ (List.forall_mem_cons.mpr ⟨le_rfl, hafter⟩)
    exact reduce_eq_of_collapse hmax (collapse_cons e op b after) rfl
  · have hmax : maxPriority (before ++ (op', a) :: (op, b) :: after) = op.priority := by
      refine maxPriority_eq ⟨(op, b), by simp, rfl⟩ (List.forall_mem_append.mpr ⟨fun x hx => (hbefore x hx).le, ?_⟩)
      exact List.forall_mem_cons.mpr ⟨hop'.le, List.forall_mem_cons.mpr ⟨le_rfl, hafter⟩⟩
    exact reduce_eq_of_collapse hmax (collapse_append a b after (fun x hx => (hbefore x hx).ne) hop'.ne e)
      (by simp only [List.length_append, List.length_cons]; omega)

end Sys2Proof.Machine
end

section
/-! The two passes of the assembler (spec 30_encoding.md R128 to R132): what one statement and what a program does to the counter and to
the symbol table, and how many bytes it emits. -/

namespace Sys2Proof.Machine

theorem exceptMap_eq_ok {ε α β : Type} {f : α → β} {x : Except ε α} {b : β} : x.map f = .ok b ↔ ∃ a, x = .ok a ∧ f a = b := by
  cases x <;> simp [Except.map]

/-! ## The symbol table -/

/-- The names that a symbol table binds, the last bound first. -/
def SymTab.names (t : SymTab) : List Name := t.map Prod.fst

theorem lookupName_eq_none {t : SymTab} {name : Name} : lookupName t name = none ↔ name ∉ t.names := by
  induction t with
  | nil => simp [lookupName, SymTab.names]
  | cons entry rest ih =>
    obtain ⟨n, x⟩ := entry
    by_cases hn : n = name
    · simp [lookupName, SymTab.names, hn]
    · simp only [lookupName, if_neg hn, ih, SymTab.names, List.map_cons, List.mem_cons, not_or, Ne.symm hn, not_false_eq_true,
        true_and]

theorem SymTab.bind_eq_ok {t t1 : SymTab} {name : Name} {x : Symbol} :
    t.bind name x = .ok t1 ↔ name ∉ t.names ∧ t1 = (name, x) :: t := by
  rw [← lookupName_eq_none]
  cases h : lookupName t name <;> simp [SymTab.bind, h, eq_comm]

theorem SymTab.bind_duplicate {t : SymTab} {name : Name} (h : name ∈ t.names) (x : Symbol) :
    t.bind name x = .error (.duplicate name) := by
  cases hl : lookupName t name with
  | none => exact absurd h (lookupName_eq_none.mp hl)
  | some _ => simp only [SymTab.bind, hl]

/-! ## One statement -/

/-- The bytes a statement takes in the image (R128, R130); an instruction's are its row's. -/
def Stmt.imageSize (map : List Row) : Stmt → Except AsmError Nat
  | .label _ => .ok 0
  | .constant _ _ => .ok 0
  | .struct _ _ => .ok 0
  | .data8 _ vs => .ok vs.length
  | .data16 _ vs => .ok (2 * vs.length)
  | .instr op _ => sizeInTable map op

/-- A statement either binds no name and is an instruction, or binds one name, by `SymTab.bind`, and takes a fixed number of bytes. -/
theorem Stmt.allocate_shape (map : List Row) (i : Stmt) (counter : Nat) (t : SymTab) :
    (i.binds = [] ∧ i.allocate map counter t = (i.imageSize map).map fun n => (counter + n, t)) ∨
      ∃ name x n, i.binds = [name] ∧ i.imageSize map = .ok n ∧
        i.allocate map counter t = (t.bind name x).map fun t1 => (counter + n, t1) := by
  cases i with
  | label name => exact .inr ⟨name, _, 0, rfl, rfl, rfl⟩
  | constant name v => exact .inr ⟨name, _, 0, rfl, rfl, rfl⟩
  | struct name members => exact .inr ⟨name, _, 0, rfl, rfl, rfl⟩
  | data8 name vs => exact .inr ⟨name, _, vs.length, rfl, rfl, rfl⟩
  | data16 name vs => exact .inr ⟨name, _, 2 * vs.length, rfl, rfl, rfl⟩
  | instr op xs => exact .inl ⟨rfl, rfl⟩

/-- What a statement of pass 1 that succeeds has done: the counter is past its bytes, and its names, none bound before, are bound. -/
theorem Stmt.allocate_ok {map : List Row} {i : Stmt} {counter counter1 : Nat} {t t1 : SymTab}
    (h : i.allocate map counter t = .ok (counter1, t1)) :
    (∃ n, i.imageSize map = .ok n ∧ counter1 = counter + n) ∧ t1.names = i.binds ++ t.names ∧
      (t.names.Nodup → t1.names.Nodup) := by
  rcases i.allocate_shape map counter t with ⟨hbinds, heq⟩ | ⟨name, x, n, hbinds, hsize, heq⟩
  · obtain ⟨n, hsize, he⟩ := exceptMap_eq_ok.mp (heq.symm.trans h)
    cases he
    exact ⟨⟨n, hsize, rfl⟩, by rw [hbinds, List.nil_append], id⟩
  · obtain ⟨t2, hbind, he⟩ := exceptMap_eq_ok.mp (heq.symm.trans h)
    obtain ⟨hnew, rfl⟩ := SymTab.bind_eq_ok.mp hbind
    cases he
    exact ⟨⟨n, hsize, rfl⟩, by rw [hbinds]; rfl, fun hnodup => List.nodup_cons.mpr ⟨hnew, hnodup⟩⟩

/-- A statement that binds a name already bound fails and names it (R129). -/
theorem Stmt.allocate_duplicate {i : Stmt} {t : SymTab} {name : Name} (hi : name ∈ i.binds) (ht : name ∈ t.names)
    (map : List Row) (counter : Nat) : i.allocate map counter t = .error (.duplicate name) := by
  rcases i.allocate_shape map counter t with ⟨hbinds, _⟩ | ⟨bound, x, n, hbinds, _, heq⟩
  · rw [hbinds] at hi
    cases hi
  · rw [hbinds, List.mem_singleton] at hi
    rw [heq, ← hi, SymTab.bind_duplicate ht]
    rfl

/-- The encoding of an instruction is as long as its row says (R101 c, R118). -/
theorem length_of_encode {map : List Row} (hwf : OpcodeMap.wf map = true) {i : Instr} {bytes : List Byte}
    (h : encode map i = some bytes) : sizeInTable map i.op = .ok bytes.length := by
  cases hrow : OpcodeMap.rowOfOp map i.op with
  | none => simp only [encode, hrow, reduceCtorEq] at h
  | some row =>
    rw [encode_of_row hrow] at h
    cases h
    rw [length_encoding hwf hrow, sizeInTable, hrow]

theorem Stmt.emit_instr_ok {map : List Row} {symbols : SymTab} {op : Op} {xs : List AsmOperand} {bytes : List Byte}
    (h : (Stmt.instr op xs).emit map symbols = .ok bytes) : ∃ o, encode map (Instr.ofOp op o) = some bytes := by
  simp only [Stmt.emit] at h
  split at h
  next o _ =>
    split at h
    next he =>
      cases h
      exact ⟨o, he⟩
    next => cases h
  next => cases h

/-- A statement of pass 2 emits as many bytes as pass 1 counted for it (R132). -/
theorem Stmt.length_emit {map : List Row} (hwf : OpcodeMap.wf map = true) {symbols : SymTab} {i : Stmt} {bytes : List Byte}
    (h : i.emit map symbols = .ok bytes) : i.imageSize map = .ok bytes.length := by
  cases i with
  | label | constant | struct =>
    cases h
    rfl
  | data8 name vs =>
    cases h
    rw [List.length_map, Stmt.imageSize]
  | data16 name vs =>
    cases h
    simp [Stmt.imageSize, Nat.mul_comm]
  | instr op xs =>
    obtain ⟨o, he⟩ := Stmt.emit_instr_ok h
    have hsize := length_of_encode hwf he
    rwa [Instr.op_ofOp] at hsize

/-! ## A program -/

theorem allocate_cons_ok {map : List Row} {i : Stmt} {rest : List Stmt} {counter : Nat} {t : SymTab} {r : Nat × SymTab} :
    allocate map (i :: rest) counter t = .ok r ↔
      ∃ counter1 t1, i.allocate map counter t = .ok (counter1, t1) ∧ allocate map rest counter1 t1 = .ok r := by
  cases h : i.allocate map counter t with
  | error e => simp [allocate, h]
  | ok first =>
    obtain ⟨counter1, t1⟩ := first
    simp [allocate, h]

theorem emitAll_cons_ok {map : List Row} {symbols : SymTab} {i : Stmt} {rest : List Stmt} {image : List Byte} :
    emitAll map symbols (i :: rest) = .ok image ↔
      ∃ bytes more, i.emit map symbols = .ok bytes ∧ emitAll map symbols rest = .ok more ∧ bytes ++ more = image := by
  cases h : i.emit map symbols <;> cases h' : emitAll map symbols rest <;> simp [emitAll, h, h']

theorem encodeStmts_ok {map : List Row} {stmts : List Stmt} {image : List Byte} (h : encodeStmts map stmts = .ok image) :
    ∃ counter symbols, allocate map stmts 0 [] = .ok (counter, symbols) ∧ emitAll map symbols stmts = .ok image := by
  unfold encodeStmts at h
  split at h
  next counter symbols ha => exact ⟨counter, symbols, ha, h⟩
  next => cases h

/-- Pass 1 moves the counter by as many bytes as pass 2 emits, under any symbol table. -/
theorem allocate_counter {map : List Row} (hwf : OpcodeMap.wf map = true) {symbols : SymTab} (stmts : List Stmt) :
    ∀ {counter counter1 : Nat} {t t1 : SymTab} {image : List Byte}, allocate map stmts counter t = .ok (counter1, t1) →
      emitAll map symbols stmts = .ok image → counter1 = counter + image.length := by
  induction stmts with
  | nil =>
    intro counter counter1 t t1 image ha he
    cases ha
    cases he
    rfl
  | cons i rest ih =>
    intro counter counter1 t t1 image ha he
    obtain ⟨counter2, t2, hi, hrest⟩ := allocate_cons_ok.mp ha
    obtain ⟨bytes, more, hemit, hmore, rfl⟩ := emitAll_cons_ok.mp he
    obtain ⟨⟨n, hsize, rfl⟩, _, _⟩ := Stmt.allocate_ok hi
    cases hsize.symm.trans (Stmt.length_emit hwf hemit)
    rw [ih hrest hmore, List.length_append, Nat.add_assoc]

/-- Settles O59: from 0 the counter moves by the length of the image. -/
theorem imageLengthIsCounter : Obligations.ImageLengthIsCounter := by
  intro table stmts image hwf h
  obtain ⟨counter, symbols, ha, he⟩ := encodeStmts_ok h
  have hcounter := allocate_counter hwf stmts ha he
  rw [Nat.zero_add] at hcounter
  exact ⟨symbols, hcounter ▸ ha⟩

/-- Pass 1 binds each statement's names, the last first. -/
theorem allocate_names {map : List Row} (stmts : List Stmt) :
    ∀ {counter counter1 : Nat} {t t1 : SymTab}, allocate map stmts counter t = .ok (counter1, t1) →
      t1.names.Perm (stmts.flatMap Stmt.binds ++ t.names) ∧ (t.names.Nodup → t1.names.Nodup) := by
  induction stmts with
  | nil =>
    intro counter counter1 t t1 h
    cases h
    exact ⟨List.Perm.refl _, id⟩
  | cons i rest ih =>
    intro counter counter1 t t1 h
    obtain ⟨counter2, t2, hi, hrest⟩ := allocate_cons_ok.mp h
    obtain ⟨_, hnames, hnodup⟩ := Stmt.allocate_ok hi
    obtain ⟨hperm, hnodup'⟩ := ih hrest
    refine ⟨?_, hnodup' ∘ hnodup⟩
    rw [hnames] at hperm
    rw [List.flatMap_cons, List.append_assoc]
    exact hperm.trans (List.perm_append_comm_assoc _ _ _)

/-- A program whose first statements succeed fails as the next one does. -/
theorem allocate_append_error {map : List Row} {i : Stmt} {after : List Stmt} {e : AsmError} (before : List Stmt) :
    ∀ {counter counter1 : Nat} {t t1 : SymTab}, allocate map before counter t = .ok (counter1, t1) →
      i.allocate map counter1 t1 = .error e → allocate map (before ++ i :: after) counter t = .error e := by
  induction before with
  | nil =>
    intro counter counter1 t t1 h hi
    cases h
    rw [List.nil_append, allocate, hi]
  | cons j before ih =>
    intro counter counter1 t t1 h hi
    obtain ⟨counter2, t2, hj, hrest⟩ := allocate_cons_ok.mp h
    rw [List.cons_append, allocate, hj]
    exact ih hrest hi

/-- Settles O60: after pass 1 the table binds exactly the names of the statements, each once; a statement that binds one of them fails. -/
theorem namesAreBoundOnce : Obligations.NamesAreBoundOnce := by
  refine ⟨fun table before after i name counter symbols ha hbefore hi => ?_, fun table stmts image h => ?_⟩
  · have hbound : name ∈ symbols.names := (allocate_names before ha).1.mem_iff.mpr (List.mem_append_left _ hbefore)
    have hfails := Stmt.allocate_duplicate hi hbound table counter
    rw [encodeStmts, allocate_append_error before ha hfails]
  · obtain ⟨counter, symbols, ha, _⟩ := encodeStmts_ok h
    obtain ⟨hperm, hnodup⟩ := allocate_names stmts ha
    exact List.Nodup.of_append_left (hperm.nodup_iff.mp (hnodup List.nodup_nil))

end Sys2Proof.Machine
end

section
/-! The step (spec 40_cycle.md R160 to R166, R169): what each fetch reads from storage, that a step runs the instruction that the bytes
at `pc` decode to, and what the host's step reports. -/

namespace Sys2Proof

/-! ## What decodes to an instruction -/

/-- A string decodes to an instruction exactly when its first byte selects a row, whose layout the other bytes are read by (R116). -/
theorem decode_eq_ok {t : List Row} {bytes rest : List Byte} {i : Instr} :
    decode t bytes = .ok (i, rest) ↔ ∃ b tail row o, bytes = b :: tail ∧ OpcodeMap.rowOfByte t b = some row ∧
      decodeFields row.op.mode.layout tail {} = some (o, rest) ∧ Instr.ofOp row.op o = i := by
  constructor
  · intro h
    cases bytes with
    | nil => cases h
    | cons b tail =>
      rw [decode] at h
      split at h
      · cases h
      next row hrow =>
        split at h
        next o _ hfields =>
          cases h
          exact ⟨b, tail, row, o, rfl, hrow, hfields, rfl⟩
        · cases h
  · rintro ⟨b, tail, row, o, rfl, hrow, hfields, rfl⟩
    exact decode_row hrow hfields

theorem Instr.size_ofOp (op : Op) (o : Operands) : (Instr.ofOp op o).size = 1 + (op.mode.layout.map Field.width).sum := by
  rw [Instr.size, Instr.op_ofOp, Mode.size_eq_layout]

/-- The decoder reads as many bytes as the instruction's size (R103, R114). -/
theorem length_decode {t : List Row} {bytes rest : List Byte} {i : Instr} (h : decode t bytes = .ok (i, rest)) :
    bytes.length = i.size + rest.length := by
  obtain ⟨b, tail, row, o, rfl, _, hfields, rfl⟩ := decode_eq_ok.mp h
  rw [List.length_cons, length_decodeFields _ hfields, Instr.size_ofOp]
  omega

end Sys2Proof

namespace Sys2Proof.Machine

/-! ## The fetches -/

/-- A fetch of a word of storage reads it and moves `pc` by 2 (R163). -/
theorem State.fetch16_storage {s : State} {l : Loc} (h : s.access (s.reg .pc).toNat 2 = .ok (.storage l)) :
    s.fetch16 = .ok (s.wordAt l) (s.setReg .pc (s.reg .pc + 2)) := by
  rw [State.fetch16, State.memRead16_storage h, Res.bind_ok]

/-- A fetch of a word whose access fails, fails for that reason (R170). -/
theorem State.fetch16_error {s : State} {e : EngineError} (h : s.access (s.reg .pc).toNat 2 = .error e) :
    s.fetch16 = .fault (.failed e s.output) := by
  rw [State.fetch16, State.memRead16_eq_fault.mpr ⟨e, h, rfl⟩, Res.bind_fault]

/-- Settles O46: the two reads from storage, the register of the byte read, and a word at 0xFFFF, which would end past the address
space. -/
theorem fetchRules : Obligations.FetchRules := by
  intro s l
  refine ⟨fun hbyte => ?_, State.fetch16_storage, fun hpc => ?_⟩
  · have fetched := State.fetch_storage hbyte
    refine ⟨fetched, Reg.ofByte (s.byteAt l), ?_, Reg.ordinal_ofByte _⟩
    rw [State.fetchReg, fetched, Res.bind_ok]
  · have overflow : s.access 0xFFFF 2 = .error (.addressOverflow 0xFFFF) := s.access_overflow (by decide)
    exact State.fetch16_error (by rw [hpc]; exact overflow)

/-! ## A step runs the decoded instruction -/

/-- Code that decodes to an instruction is fetched as that instruction, and `pc` is moved past it (R117, R165). -/
theorem State.fetchInstr_code {s : State} {l : Loc} {bytes rest : List Byte} {i : Instr} (hcode : s.codeFrom l bytes)
    (hdecode : decode s.config.opcodeMap bytes = .ok (i, rest)) :
    s.fetchInstr = .ok (some i) (s.setReg .pc (s.reg .pc + BitVec.ofNat 16 i.size)) := by
  obtain ⟨b, tail, row, o, rfl, hrow, hfields, rfl⟩ := decode_eq_ok.mp hdecode
  have opcode := State.fetch_code hcode
  have operands := State.fetchFields_code _ (State.codeFrom_tail hcode) hfields
  have hrow' : OpcodeMap.rowOfByte (s.setReg .pc (s.reg .pc + 1)).config.opcodeMap b = some row := hrow
  have hpc : s.reg .pc + 1 + BitVec.ofNat 16 (row.op.mode.layout.map Field.width).sum =
      s.reg .pc + BitVec.ofNat 16 (Instr.ofOp row.op o).size := by
    rw [Instr.size_ofOp, BitVec.ofNat_add, ← BitVec.add_assoc]
    rfl
  simp only [State.fetchInstr, opcode, Res.bind_ok, hrow', operands]
  rw [State.reg_setReg_same, State.setReg_setReg_pc, hpc]

/-- Settles O44: the instruction is fetched with `pc` moved by its size, which is the number of bytes decoded. -/
theorem stepRunsDecodedInstruction : Obligations.StepRunsDecodedInstruction := by
  intro s bytes i hrun ⟨l, hcode⟩ hdecode
  have hlength : bytes.length = i.size := length_decode hdecode
  refine ⟨?_, hlength⟩
  rw [step_running hrun, State.fetchAndExecute, State.fetchInstr_code hcode hdecode, hlength]

/-! ## What the host's step reports -/

theorem State.hostStep_next {s t : State} (h : step s = .next t) :
    s.hostStep = (t, if t.runState = .halted then .haltFired else .continues) := by
  simp only [State.hostStep, h]

theorem State.hostStep_failed {s : State} {e : EngineError} {output : List OutputEvent}
    (h : step s = .fault (.failed e output)) : s.hostStep = (s.fail e output, .failed e) := by
  simp only [State.hostStep, h]

/-- Settles O57: the report of a step that completes is read off the run state after it; one that fails leaves the failed engine. -/
theorem hostStepReports : Obligations.HostStepReports := by
  intro s _
  refine ⟨fun t h hrun => ?_, fun t h hhalt => ?_, fun e output h => ?_⟩
  · have hne : t.runState ≠ .halted := by rw [hrun]; decide
    rw [State.hostStep_next h, if_neg hne]
  · rw [State.hostStep_next h, if_pos hhalt]
  · exact ⟨s.fail e output, State.hostStep_failed h, rfl, rfl, s.samePlatform_fail e output⟩

end Sys2Proof.Machine
end

section
/-! The moves (spec 41_move.md R180 to R186): what a write of one register, a load and a store complete with, for any instruction that is
one; each move is then one of the three. -/

namespace Sys2Proof.Machine

/-! ## One register written -/

theorem State.computes_of_setReg {s : State} {i : Instr} {d : Reg} {v : Word} (he : exec i s = .next (s.setReg d v)) :
    s.computes i d v.toNat :=
  ⟨s.setReg d v, he, congrArg BitVec.toNat (s.reg_setReg_same d v), s.onlyRegs_setReg d v⟩

/-- Settles O11: each of the two writes its destination. -/
theorem movesIntoRegister : Obligations.MovesIntoRegister := fun _ _ _ _ =>
  ⟨⟨encode_of_row (row := ⟨.movImmReg, 0x10, 4⟩) rfl, State.computes_of_setReg rfl⟩,
    ⟨encode_of_row (row := ⟨.movRegReg, 0x11, 3⟩) rfl, State.computes_of_setReg rfl⟩⟩

/-! ## What the updates of an access leave -/

theorem State.sameHidden_setObject (s : State) (d c : Nat) : s.sameHidden (s.setObject d c) :=
  ⟨s.frameSize_setObject d c, s.inHandler_setObject d c, s.runState_setObject d c⟩

theorem State.sameOutput_setObject (s : State) (d c : Nat) : s.sameOutput (s.setObject d c) :=
  ⟨s.output_setObject d c, s.draws_setObject d c⟩

theorem State.sameRegsBut_setObject (rs : List Reg) (s : State) (d c : Nat) : s.sameRegsBut rs (s.setObject d c) :=
  fun r _ => s.reg_setObject d c r

theorem State.sameHidden_setWordAt (s : State) (l : Loc) (v : Word) : s.sameHidden (s.setWordAt l v) :=
  ⟨s.frameSize_setWordAt l v, s.inHandler_setWordAt l v, s.runState_setWordAt l v⟩

theorem State.sameOutput_setWordAt (s : State) (l : Loc) (v : Word) : s.sameOutput (s.setWordAt l v) :=
  ⟨s.output_setWordAt l v, s.draws_setWordAt l v⟩

theorem State.sameRegsBut_setWordAt (rs : List Reg) (s : State) (l : Loc) (v : Word) : s.sameRegsBut rs (s.setWordAt l v) :=
  fun r _ => s.reg_setWordAt l v r

/-! ## Stores -/

/-- A store completes as its write does. -/
theorem State.storeWord_ok {s t : State} {a : Nat} {v : Word} (h : s.memWrite16 a v = .ok () t) : s.storeWord a v = .next t :=
  Res.toOutcome_eq_next.mpr h

/-- An instruction that is a store completes or fails as the access at its address does (R67, R69, R75). -/
theorem State.stores_of_storeWord {s : State} {i : Instr} {a : Nat} {v : Word} (he : exec i s = s.storeWord a v) :
    s.stores i a v := by
  refine ⟨fun l h => ?storage, fun d o h => ?sink, fun d o h => ?object, fun e h => he.trans (State.storeWord_error v h)⟩
  case storage =>
    obtain ⟨_, buffer, _⟩ := State.access_storage h
    exact ⟨s.setWordAt l v, he.trans (State.storeWord_ok (State.memWrite16_storage v h)), s.byteAt_setWordAt_hi v buffer,
      s.byteAt_setWordAt_lo v buffer, s.sameBytesBut_setWordAt l v, s.sameObjects_setWordAt l v, s.sameRegsBut_setWordAt [] l v,
      s.sameHidden_setWordAt l v, (State.Evolves.setWordAt v h).platform, s.sameOutput_setWordAt l v⟩
  case sink =>
    exact ⟨s.emit ⟨d, o, v⟩, he.trans (State.storeWord_ok (State.memWrite16_sink v h)), s.output_emit _, fun _ _ => rfl,
      ⟨rfl, rfl, rfl⟩, (State.Evolves.emit s _).platform, rfl, rfl⟩
  case object =>
    exact ⟨s.setObject d (s.objectSet16 d o v), he.trans (State.storeWord_ok (State.memWrite16_object v h)),
      State.changesObject_of_access h _, s.sameRegsBut_setObject [] d _, s.sameHidden_setObject d _,
      (State.Evolves.setObject s d _).platform, s.sameOutput_setObject d _⟩

/-- Settles O12: each of the two is a store at its address. -/
theorem storesToMemory : Obligations.StoresToMemory := fun _ _ _ _ =>
  ⟨⟨encode_of_row (row := ⟨.movRegMem, 0x12, 4⟩) rfl, State.stores_of_storeWord rfl⟩,
    ⟨encode_of_row (row := ⟨.movImmMem, 0x1B, 5⟩) rfl, State.stores_of_storeWord rfl⟩⟩

/-! ## Loads -/

/-- A load completes with the word read in its destination. -/
theorem State.loadInto_ok {s t : State} {a : Nat} {v : Word} (d : Reg) (h : s.memRead16 a = .ok v t) :
    s.loadInto a d = .next (t.setReg d v) := by
  rw [State.loadInto, h, Res.bind_ok, Res.toOutcome_ok]

/-- An instruction that is a load completes or fails as the access at its address does (R67, R69, R75). -/
theorem State.loads_of_loadInto {s : State} {i : Instr} {a : Nat} {dst : Reg} (he : exec i s = s.loadInto a dst) :
    s.loads i a dst := by
  refine ⟨fun l h => ?storage, fun d o h => ?sink, fun d o h => ?object, fun e h => he.trans (State.loadInto_error dst h)⟩
  case storage =>
    exact ⟨s.setReg dst (s.wordAt l), he.trans (State.loadInto_ok dst (State.memRead16_storage h)), s.reg_setReg_same dst _,
      s.onlyRegs_setReg dst _⟩
  case sink =>
    obtain ⟨regs, hidden, platform, devices, output, draws⟩ := s.draw.onlyRegs_setReg dst (Config.ioReadWord s.draws)
    exact ⟨_, he.trans (State.loadInto_ok dst (State.memRead16_sink h)), regs, hidden, platform, devices, output, draws⟩
  case object =>
    have regs := State.sameRegsBut_trans (s.sameRegsBut_setObject [dst] d (s.objectGet16 d o).2)
      (State.sameRegsBut_setReg (s.objectGet16 d o).1 List.mem_cons_self)
    exact ⟨_, he.trans (State.loadInto_ok dst (State.memRead16_object h)), State.reg_setReg_same _ dst _, regs,
      s.sameHidden_setObject d _, (State.Evolves.setObject s d _).platform, State.changesObject_of_access h _,
      s.sameOutput_setObject d _⟩

/-- Settles O13: each of the three is a load at its address, the sum of base and index not wrapped. -/
theorem loadsFromMemory : Obligations.LoadsFromMemory := fun _ _ _ _ _ _ =>
  ⟨⟨encode_of_row (row := ⟨.movMemReg, 0x13, 4⟩) rfl, State.loads_of_loadInto rfl⟩,
    ⟨encode_of_row (row := ⟨.movRegPtrReg, 0x1C, 3⟩) rfl, State.loads_of_loadInto rfl⟩,
    ⟨encode_of_row (row := ⟨.movImmOffReg, 0x1D, 5⟩) rfl, State.loads_of_loadInto rfl⟩⟩

end Sys2Proof.Machine
end

section
/-! The ALU (spec 42_alu.md R200 to R216): what each operation on words computes, as a number or bit by bit; every ALU instruction is then
one result written to its destination. -/

namespace Sys2Proof.Machine

/-! ## The operations on words, as numbers -/

/-- A difference modulo 65536; 65536 is added first, as a subtraction of naturals stops at 0 (R203, R204). -/
theorem toNat_sub_word (x y : Word) : (x - y).toNat = (x.toNat + 65536 - y.toNat) % 65536 := by
  have hy : y.toNat < 65536 := y.isLt
  rw [BitVec.toNat_sub]
  omega

/-- One less, modulo 65536 (R206). -/
theorem toNat_sub_one_word (x : Word) : (x - 1).toNat = (x.toNat + 65535) % 65536 :=
  toNat_sub_word x 1

theorem toNat_shiftLeft_word (x : Word) (n : Nat) : (shiftLeft x n).toNat = x.toNat * 2 ^ (n % 32) % 65536 := by
  rw [shiftLeft, shiftCount, BitVec.toNat_shiftLeft, Nat.shiftLeft_eq]

theorem toNat_shiftRight_word (x : Word) (n : Nat) : (shiftRight x n).toNat = x.toNat / 2 ^ (n % 32) := by
  rw [shiftRight, shiftCount, BitVec.toNat_ushiftRight, Nat.shiftRight_eq_div_pow]

/-! ## Bit by bit -/

/-- XOR with 0xFFFF complements each of the 16 bits (R216). -/
theorem getLsbD_ones_xor (x : Word) {k : Nat} (h : k < 16) : ((0xFFFF : Word) ^^^ x).getLsbD k = !x.getLsbD k := by
  have ones : (0xFFFF : Word) = BitVec.allOnes 16 := rfl
  rw [ones, BitVec.allOnes_xor, BitVec.getLsbD_not, decide_eq_true h, Bool.true_and]

/-! ## A result written to its destination -/

/-- An ALU instruction completes with the number its result is (R200). -/
theorem State.computes_of_aluResult {s : State} {i : Instr} {d : Reg} {v : Word} {n : Nat} (he : exec i s = s.aluResult d v)
    (hv : v.toNat = n) : s.computes i d n :=
  hv ▸ State.computes_of_setReg he

/-- An ALU instruction into `acc` completes with the bits its result has (R200). -/
theorem State.bits_of_aluResult {s : State} {i : Instr} {v : Word} {bit : Nat → Bool} (he : exec i s = s.aluResult .acc v)
    (hbits : ∀ k < 16, v.getLsbD k = bit k) :
    ∃ t, exec i s = .next t ∧ s.onlyRegs [.acc] t ∧ ∀ k < 16, (t.reg .acc).getLsbD k = bit k :=
  ⟨s.setReg .acc v, he, s.onlyRegs_setReg .acc v, fun k hk => by rw [State.reg_setReg_same, hbits k hk]⟩

/-! ## The instructions -/

/-- Settles O15: the sums and the differences of words, as numbers. -/
theorem addAndSubtract : Obligations.AddAndSubtract := fun _ _ _ _ =>
  ⟨⟨encode_of_row (row := ⟨.addRegReg, 0x14, 3⟩) rfl, State.computes_of_aluResult rfl (BitVec.toNat_add _ _)⟩,
    ⟨encode_of_row (row := ⟨.addImmReg, 0x3F, 4⟩) rfl, State.computes_of_aluResult rfl (BitVec.toNat_add _ _)⟩,
    ⟨encode_of_row (row := ⟨.subImmReg, 0x16, 4⟩) rfl, State.computes_of_aluResult rfl (toNat_sub_word _ _)⟩,
    ⟨encode_of_row (row := ⟨.subRegReg, 0x1F, 3⟩) rfl, State.computes_of_aluResult rfl (toNat_sub_word _ _)⟩⟩

/-- Settles O16: the destination of the statement is `aluDst`, under either setting of `ALU_INPLACE`. -/
theorem incrementAndDecrement : Obligations.IncrementAndDecrement := fun _ _ =>
  ⟨⟨encode_of_row (row := ⟨.incReg, 0x35, 2⟩) rfl, State.computes_of_aluResult rfl (BitVec.toNat_add _ 1)⟩,
    ⟨encode_of_row (row := ⟨.decReg, 0x36, 2⟩) rfl, State.computes_of_aluResult rfl (toNat_sub_one_word _)⟩⟩

/-- Settles O17: the product of words, as a number. -/
theorem multiply : Obligations.Multiply := fun _ _ _ _ =>
  ⟨⟨encode_of_row (row := ⟨.mulImmReg, 0x20, 4⟩) rfl, State.computes_of_aluResult rfl (BitVec.toNat_mul _ _)⟩,
    ⟨encode_of_row (row := ⟨.mulRegReg, 0x21, 3⟩) rfl, State.computes_of_aluResult rfl (BitVec.toNat_mul _ _)⟩⟩

/-- Settles O18: the two shifts as numbers, by a count from the instruction and from a register. -/
theorem shifts : Obligations.Shifts := fun _ _ _ _ =>
  ⟨⟨encode_of_row (row := ⟨.lsfRegImm8, 0x26, 3⟩) rfl, State.computes_of_aluResult rfl (toNat_shiftLeft_word _ _)⟩,
    ⟨encode_of_row (row := ⟨.lsfRegReg, 0x27, 3⟩) rfl, State.computes_of_aluResult rfl (toNat_shiftLeft_word _ _)⟩,
    ⟨encode_of_row (row := ⟨.rsfRegImm8, 0x2A, 3⟩) rfl, State.computes_of_aluResult rfl (toNat_shiftRight_word _ _)⟩,
    ⟨encode_of_row (row := ⟨.rsfRegReg, 0x2B, 3⟩) rfl, State.computes_of_aluResult rfl (toNat_shiftRight_word _ _)⟩⟩

/-- Settles O19: the bits of the four results. -/
theorem bitwiseOperations : Obligations.BitwiseOperations := fun _ _ _ =>
  ⟨⟨encode_of_row (row := ⟨.andRegReg, 0x2F, 3⟩) rfl, State.bits_of_aluResult rfl fun _ _ => BitVec.getLsbD_and⟩,
    ⟨encode_of_row (row := ⟨.orRegReg, 0x31, 3⟩) rfl, State.bits_of_aluResult rfl fun _ _ => BitVec.getLsbD_or⟩,
    ⟨encode_of_row (row := ⟨.xorRegReg, 0x33, 3⟩) rfl, State.bits_of_aluResult rfl fun _ _ => BitVec.getLsbD_xor⟩,
    ⟨encode_of_row (row := ⟨.notReg, 0x34, 2⟩) rfl, State.bits_of_aluResult rfl fun _ hk => getLsbD_ones_xor _ hk⟩⟩

end Sys2Proof.Machine
end

section
/-! The conditional jumps (spec 43_branch.md R230 to R243): what each of the six conditions says of the numbers, and what any jump
completes with; every jump is then one condition and one operand. -/

namespace Sys2Proof.Machine

/-! ## The conditions, as relations of numbers (R231) -/

theorem Cond.holds_ne_iff (v acc : Word) : Cond.ne.holds v acc = true ↔ v.toNat ≠ acc.toNat :=
  bne_iff_ne.trans BitVec.toNat_inj.symm.not

theorem Cond.holds_eq_iff (v acc : Word) : Cond.eq.holds v acc = true ↔ v.toNat = acc.toNat :=
  beq_iff_eq.trans BitVec.toNat_inj.symm

theorem Cond.holds_lt_iff (v acc : Word) : Cond.lt.holds v acc = true ↔ v.toNat < acc.toNat :=
  decide_eq_true_iff

theorem Cond.holds_gt_iff (v acc : Word) : Cond.gt.holds v acc = true ↔ acc.toNat < v.toNat :=
  decide_eq_true_iff

theorem Cond.holds_le_iff (v acc : Word) : Cond.le.holds v acc = true ↔ v.toNat ≤ acc.toNat :=
  decide_eq_true_iff

theorem Cond.holds_ge_iff (v acc : Word) : Cond.ge.holds v acc = true ↔ acc.toNat ≤ v.toNat :=
  decide_eq_true_iff

/-! ## A jump -/

/-- An instruction that is a conditional jump completes at its target exactly when its condition holds; taken or not, it is a write of
`pc` alone (R230). -/
theorem State.jumps_of_jumpIf {s : State} {i : Instr} {c : Cond} {v target : Word} {taken : Prop}
    (he : exec i s = s.jumpIf c v target) (hc : c.holds v (s.reg .acc) = true ↔ taken) : s.jumps i taken target := by
  refine ⟨_, he.trans (s.jumpIf_eq_setReg c v target), fun h => ?taken, fun h => ?untaken, s.onlyRegs_setReg .pc _⟩
  case taken => rw [State.reg_setReg_same, if_pos (hc.mpr h)]
  case untaken => rw [State.reg_setReg_same, if_neg (mt hc.mp h)]

/-! ## The instructions -/

/-- Settles O20: the six conditions of the immediate and `acc`. -/
theorem jumpsOnImmediate : Obligations.JumpsOnImmediate := fun _ _ _ =>
  ⟨⟨encode_of_row (row := ⟨.jneImmMem, 0x15, 5⟩) rfl, State.jumps_of_jumpIf rfl (Cond.holds_ne_iff _ _)⟩,
    ⟨encode_of_row (row := ⟨.jeqImmMem, 0x41, 5⟩) rfl, State.jumps_of_jumpIf rfl (Cond.holds_eq_iff _ _)⟩,
    ⟨encode_of_row (row := ⟨.jltImmMem, 0x43, 5⟩) rfl, State.jumps_of_jumpIf rfl (Cond.holds_lt_iff _ _)⟩,
    ⟨encode_of_row (row := ⟨.jgtImmMem, 0x45, 5⟩) rfl, State.jumps_of_jumpIf rfl (Cond.holds_gt_iff _ _)⟩,
    ⟨encode_of_row (row := ⟨.jleImmMem, 0x47, 5⟩) rfl, State.jumps_of_jumpIf rfl (Cond.holds_le_iff _ _)⟩,
    ⟨encode_of_row (row := ⟨.jgeImmMem, 0x49, 5⟩) rfl, State.jumps_of_jumpIf rfl (Cond.holds_ge_iff _ _)⟩⟩

/-- Settles O21: the six conditions of the register and `acc`; `pc` as the operand is read as it stands. -/
theorem jumpsOnRegister : Obligations.JumpsOnRegister := fun _ _ _ =>
  ⟨⟨encode_of_row (row := ⟨.jneRegMem, 0x40, 4⟩) rfl, State.jumps_of_jumpIf rfl (Cond.holds_ne_iff _ _)⟩,
    ⟨encode_of_row (row := ⟨.jeqRegMem, 0x3E, 4⟩) rfl, State.jumps_of_jumpIf rfl (Cond.holds_eq_iff _ _)⟩,
    ⟨encode_of_row (row := ⟨.jltRegMem, 0x42, 4⟩) rfl, State.jumps_of_jumpIf rfl (Cond.holds_lt_iff _ _)⟩,
    ⟨encode_of_row (row := ⟨.jgtRegMem, 0x44, 4⟩) rfl, State.jumps_of_jumpIf rfl (Cond.holds_gt_iff _ _)⟩,
    ⟨encode_of_row (row := ⟨.jleRegMem, 0x46, 4⟩) rfl, State.jumps_of_jumpIf rfl (Cond.holds_le_iff _ _)⟩,
    ⟨encode_of_row (row := ⟨.jgeRegMem, 0x48, 4⟩) rfl, State.jumps_of_jumpIf rfl (Cond.holds_ge_iff _ _)⟩⟩

end Sys2Proof.Machine
end

section
/-! Push and pop (spec 44_stack_call.md R250 to R252, R260 to R262): what every push and every pop moves, whatever it reaches; a push
instruction is then one push, and `pop` one pop into a register. -/

namespace Sys2Proof.Machine

/-! ## What a push moves -/

theorem State.memWrite16_frameSize {s t : State} {a : Nat} {v : Word} (h : s.memWrite16 a v = .ok () t) :
    t.frameSize = s.frameSize := by
  rcases State.memWrite16_eq_ok.mp h with ⟨l, _, rfl⟩ | ⟨_, _, _, rfl⟩ | ⟨d, _, _, rfl⟩
  · exact s.frameSize_setWordAt l v
  · rfl
  · exact s.frameSize_setObject d _

/-- A push is its write, and then `sp` and `F` (R250). -/
theorem State.push_of_memWrite16 {s t : State} {v : Word} (h : s.memWrite16 (s.reg .sp).toNat v = .ok () t) :
    s.push v = .ok () ((t.setReg .sp (t.reg .sp - 2)).setFrameSize (t.frameSize + 2)) :=
  State.push_eq_ok.mpr ⟨t, h, rfl⟩

theorem State.push_frameSize {s t : State} {v : Word} (h : s.push v = .ok () t) : t.frameSize = s.frameSize + 2 := by
  obtain ⟨s1, hwrite, rfl⟩ := State.push_eq_ok.mp h
  rw [State.frameSize_setFrameSize, State.memWrite16_frameSize hwrite]

/-- What a push changes of the engine, whatever its access reaches: `sp` and `F` alone (R250). -/
theorem State.push_engine {s t : State} {v : Word} (h : s.push v = .ok () t) :
    t.reg .sp = s.reg .sp - 2 ∧ t.frameSize = s.frameSize + 2 ∧ s.sameRegsBut [.sp] t ∧ t.inHandler = s.inHandler ∧
      t.runState = s.runState ∧ s.samePlatform t := by
  obtain ⟨sp, _⟩ := State.push_keeps h
  have evolves : s.Evolves t := (s.push_tame v).ok () t h
  exact ⟨sp, State.push_frameSize h, State.push_regs List.mem_cons_self s v () t h, s.push_handler v () t h, evolves.runState,
    evolves.platform⟩

/-- An instruction that is a push completes or fails as the access at `sp` does (R250, R67, R69, R75). -/
theorem State.pushes_of_push {s : State} {i : Instr} {v : Word} (he : exec i s = (s.push v).toOutcome) : s.pushes i v := by
  have completes : ∀ {t}, s.push v = .ok () t → exec i s = .next t := fun h => he.trans (Res.toOutcome_eq_next.mpr h)
  refine ⟨fun l h => ?storage, fun d o h => ?sink, fun d o h => ?object, fun e h => ?fails⟩
  case storage =>
    have hpush := State.push_of_memWrite16 (State.memWrite16_storage v h)
    obtain ⟨sp, frameSize, regs, handler, run, platform⟩ := State.push_engine hpush
    obtain ⟨_, buffer, _⟩ := State.access_storage h
    exact ⟨_, completes hpush, s.byteAt_setWordAt_hi v buffer, s.byteAt_setWordAt_lo v buffer, s.sameBytesBut_setWordAt l v,
      s.sameObjects_setWordAt l v, sp, frameSize, regs, handler, run, platform, s.sameOutput_setWordAt l v⟩
  case sink =>
    have hpush := State.push_of_memWrite16 (State.memWrite16_sink v h)
    obtain ⟨sp, frameSize, regs, handler, run, platform⟩ := State.push_engine hpush
    exact ⟨_, completes hpush, s.output_emit _, sp, frameSize, regs, handler, run, platform, rfl, rfl⟩
  case object =>
    have hpush := State.push_of_memWrite16 (State.memWrite16_object v h)
    obtain ⟨sp, frameSize, regs, handler, run, platform⟩ := State.push_engine hpush
    exact ⟨_, completes hpush, State.changesObject_of_access h _, sp, frameSize, regs, handler, run, platform,
      s.sameOutput_setObject d _⟩
  case fails => rw [he, State.push_eq_fault.mpr ⟨e, h, rfl⟩, Res.toOutcome_fault]

/-- Settles O29: each of the two is a push, of the value as it is before the push. -/
theorem pushInstructions : Obligations.PushInstructions := fun _ _ _ =>
  ⟨⟨encode_of_row (row := ⟨.pshImm, 0x17, 3⟩) rfl, State.pushes_of_push rfl⟩,
    ⟨encode_of_row (row := ⟨.pshReg, 0x18, 2⟩) rfl, State.pushes_of_push rfl⟩⟩

/-! ## What a pop moves -/

theorem State.memRead16_frameSize {s t : State} {a : Nat} {v : Word} (h : s.memRead16 a = .ok v t) :
    t.frameSize = s.frameSize := by
  rcases State.memRead16_eq_ok.mp h with ⟨_, _, _, rfl⟩ | ⟨_, _, _, _, rfl⟩ | ⟨d, _, _, _, rfl⟩
  · rfl
  · rfl
  · exact s.frameSize_setObject d _

theorem State.pop_frameSize {s t : State} {v : Word} (h : s.pop = .ok v t) : t.frameSize = s.frameSize - 2 := by
  obtain ⟨s1, hread, rfl⟩ := State.pop_eq_ok.mp h
  rw [State.frameSize_setFrameSize, State.memRead16_frameSize hread, State.frameSize_setReg]

/-- Where accesses go does not depend on `sp`, so a pop's own update of it does not redirect the read (R251). -/
theorem State.access_setReg_sp (s : State) (v : Word) (a n : Nat) : (s.setReg .sp v).access a n = s.access a n :=
  State.access_setReg s v (by decide) a n

/-- A pop from a sink: a free value, one more drawn (R75, R251). -/
theorem State.pop_sink {s : State} {d o : Nat} (h : s.access (s.reg .sp + 2).toNat 2 = .ok (.sink d o)) :
    s.pop = .ok (Config.ioReadWord s.draws) ((s.setReg .sp (s.reg .sp + 2)).draw.setFrameSize (s.frameSize - 2)) :=
  State.pop_eq_ok.mpr ⟨_, State.memRead16_sink ((s.access_setReg_sp _ _ _).trans h), rfl⟩

/-- A pop from another object: what its `get16` answers, which no update of `sp` changes (R61, R251). -/
theorem State.pop_object {s : State} {d o : Nat} (h : s.access (s.reg .sp + 2).toNat 2 = .ok (.object d o)) :
    s.pop = .ok (s.objectGet16 d o).1
      (((s.setReg .sp (s.reg .sp + 2)).setObject d (s.objectGet16 d o).2).setFrameSize (s.frameSize - 2)) := by
  have hread := State.memRead16_object ((s.access_setReg_sp (s.reg .sp + 2) _ _).trans h)
  rw [State.objectGet16_setReg _ _ (by decide)] at hread
  rw [State.pop, hread, Res.bind_ok, State.frameSize_setObject, State.frameSize_setReg]

/-- What `pop r` changes of the engine, whatever its access reaches: `sp`, then `r`, and `F` (R262). -/
theorem execPopReg_of_pop {s t : State} {v : Word} (r : Reg) (h : s.pop = .ok v t) :
    exec (.popReg r) s = .next (t.setReg r v) ∧ (r ≠ .sp → (t.setReg r v).reg .sp = s.reg .sp + 2) ∧
      t.frameSize = s.frameSize - 2 ∧ s.sameRegsBut [.sp, r] (t.setReg r v) ∧ t.inHandler = s.inHandler ∧
      t.runState = s.runState ∧ s.samePlatform t := by
  have hexec : exec (.popReg r) s = .next (t.setReg r v) :=
    show (s.pop.bind fun v s1 => .ok () (s1.setReg r v)).toOutcome = _ by rw [h, Res.bind_ok, Res.toOutcome_ok]
  obtain ⟨sp, _⟩ := State.pop_keeps h
  have evolves : s.Evolves t := s.pop_tame.ok v t h
  exact ⟨hexec, fun hr => (t.reg_setReg_ne v (Ne.symm hr)).trans sp, State.pop_frameSize h,
    onlyNamedRegistersAreWritten (.popReg r) s _ hexec, s.pop_handler v t h, evolves.runState, evolves.platform⟩

/-- Settles O30: one case per answer of the access at `sp + 2`. -/
theorem popInstruction : Obligations.PopInstruction := by
  refine fun s r => ⟨encode_of_row (row := ⟨.popReg, 0x1A, 2⟩) rfl, fun l h => ?storage, fun d o h => ?sink, fun d o h => ?object,
    fun e h => ?fails⟩
  case storage =>
    obtain ⟨hexec, sp, frameSize, regs, handler, run, platform⟩ := execPopReg_of_pop r (State.pop_storage h)
    exact ⟨_, hexec, State.reg_setReg_same _ r _, sp, frameSize, regs, handler, run, platform, rfl, rfl, rfl⟩
  case sink =>
    obtain ⟨hexec, sp, frameSize, regs, handler, run, platform⟩ := execPopReg_of_pop r (State.pop_sink h)
    exact ⟨_, hexec, sp, frameSize, regs, handler, run, platform, rfl, rfl, rfl⟩
  case object =>
    obtain ⟨hexec, sp, frameSize, regs, handler, run, platform⟩ := execPopReg_of_pop r (State.pop_object h)
    exact ⟨_, hexec, State.reg_setReg_same _ r _, sp, frameSize, regs, handler, run, platform,
      State.changesObject_of_access ((s.access_setReg_sp (s.reg .sp + 2) _ _).trans h) _, State.sameOutput_setObject _ d _⟩
  case fails =>
    show (s.pop.bind fun v s1 => .ok () (s1.setReg r v)).toOutcome = _
    rw [State.pop_eq_fault.mpr ⟨e, h, rfl⟩, Res.bind_fault, Res.toOutcome_fault]

/-- Settles O31: the pop's access is the push's, as `sp - 2 + 2 = sp`, and it meets the word just stored. -/
theorem pushThenPop : Obligations.PushThenPop := by
  intro s t v l h hpush
  obtain ⟨sp, hacc⟩ := State.push_keeps hpush
  have frameSize := State.push_frameSize hpush
  have back : t.reg .sp + 2 = s.reg .sp := by rw [sp, BitVec.sub_add_cancel]
  have hpop := State.pop_storage (s := t) (l := l) (by rw [back, hacc, h])
  have word : t.wordAt l = v := by
    cases (State.push_storage v h).symm.trans hpush
    obtain ⟨_, buffer, _⟩ := State.access_storage h
    exact s.wordAt_setWordAt_same v buffer
  rw [word] at hpop
  refine ⟨_, hpop, ?_, ?_, rfl⟩
  · rw [State.reg_setFrameSize, State.reg_setReg_same, back]
  · rw [State.frameSize_setFrameSize, frameSize, BitVec.add_sub_cancel]

end Sys2Proof.Machine
end

section
/-! Call and return (spec 44_stack_call.md R253 to R259, R263 to R266): `pushState()` as one run of ten pushes, what a call and a return
complete with, and what a return answers to a call. -/

namespace Sys2Proof.Machine

/-! ## The frame that a call pushes -/

theorem State.pushAll_frameSize (vs : List Word) : ∀ {s t : State}, s.pushAll vs = .ok () t →
    t.frameSize = s.frameSize + 2 * BitVec.ofNat 16 vs.length := by
  induction vs with
  | nil =>
    intro s t h
    cases h
    simp
  | cons v vs ih =>
    intro s t h
    obtain ⟨_, s1, hpush, hrest⟩ := Res.bind_eq_ok.mp h
    rw [ih hrest, State.push_frameSize hpush, List.length_cons, ofNat_succ_word]
    ring

/-- `pushState()` is one run of ten pushes: the frame size, read after nine of them, is `F + 18`, so the word pushed is `F + 20`
(R256, R257). -/
theorem State.pushState_eq_pushAll (s : State) :
    s.pushState = (s.pushAll s.frameWords).bind fun _ t => .ok () ((t.setReg .fp (t.reg .sp)).setFrameSize 0) := by
  rw [State.pushState, State.frameWords, State.pushAll_append]
  cases h : s.pushAll (savedRegs.map s.reg) with
  | fault f => rfl
  | ok _ s1 =>
    have saved : s1.frameSize + 2 = s.frameSize + 20 := by
      rw [State.pushAll_frameSize _ h]
      exact BitVec.add_assoc s.frameSize 18 2
    rw [Res.bind_ok, Res.bind_ok, saved, State.pushAll]
    cases s1.push (s.frameSize + 20) with
    | fault f => rfl
    | ok _ s2 => rfl

/-- `pushState()` with room for the ten words: what it leaves (R256, R257). -/
theorem State.pushState_room {s : State} {place : Nat → Loc} (hroom : s.roomFor 10 place) :
    ∃ t, s.pushState = .ok () t ∧ s.wroteWords t s.frameWords place ∧ s.sameObjects t ∧ t.reg .sp = s.reg .sp - 20 ∧
      t.reg .fp = s.reg .sp - 20 ∧ t.frameSize = 0 ∧ s.sameRegsBut [.sp, .fp] t ∧ t.inHandler = s.inHandler ∧
      t.runState = s.runState ∧ s.samePlatform t ∧ s.sameOutput t := by
  obtain ⟨t, hpush, P⟩ := State.pushAll_room s.frameWords (place := place) hroom
  have sp : t.reg .sp = s.reg .sp - 20 := P.sp
  refine ⟨(t.setReg .fp (t.reg .sp)).setFrameSize 0, ?_, P.wrote, P.objects, sp, ?_, rfl, ?_, P.handler, P.evolves.runState,
    P.evolves.platform, P.output⟩
  · rw [State.pushState_eq_pushAll, hpush, Res.bind_ok]
  · rw [State.reg_setFrameSize, State.reg_setReg_same, sp]
  · exact State.sameRegsBut_trans (State.sameRegsBut_mono P.regs (by decide)) (State.sameRegsBut_setReg _ (by decide))

/-- The outcome of a call: the frame pushed, then the jump (R263, R264). -/
theorem State.call_of_pushState {s t : State} (target : Word) (h : s.pushState = .ok () t) :
    (s.pushState.bind fun _ s1 => .ok () (s1.setReg .pc target)).toOutcome = .next (t.setReg .pc target) := by
  rw [h, Res.bind_ok, Res.toOutcome_ok]

/-- An instruction that is a call completes where its ten words have room (R256, R257). -/
theorem exec_call_room {s : State} {i : Instr} {target : Word} {place : Nat → Loc}
    (he : exec i s = (s.pushState.bind fun _ s1 => .ok () (s1.setReg .pc target)).toOutcome) (hroom : s.roomFor 10 place) :
    ∃ t, exec i s = .next t ∧ t.reg .pc = target ∧ s.wroteWords t s.frameWords place ∧ s.sameObjects t ∧
      t.reg .sp = s.reg .sp - 20 ∧ t.reg .fp = s.reg .sp - 20 ∧ t.frameSize = 0 ∧ s.sameRegsBut [.pc, .sp, .fp] t ∧
      t.inHandler = s.inHandler ∧ t.runState = s.runState ∧ s.samePlatform t ∧ s.sameOutput t := by
  obtain ⟨t, hpush, wrote, objects, sp, fp, frameSize, regs, handler, run, platform, output⟩ := State.pushState_room hroom
  have regs' : s.sameRegsBut [.pc, .sp, .fp] (t.setReg .pc target) :=
    State.sameRegsBut_trans (State.sameRegsBut_mono regs (by decide)) (State.sameRegsBut_setReg target (by decide))
  exact ⟨t.setReg .pc target, he.trans (State.call_of_pushState target hpush), t.reg_setReg_same .pc target, wrote, objects, sp, fp,
    frameSize, regs', handler, run, platform, output⟩

/-- Settles O32: both forms are a call, to a target read before the pushes. -/
theorem callPushesFrame : Obligations.CallPushesFrame := fun _ _ _ _ hroom =>
  ⟨encode_of_row (row := ⟨.calImm, 0x5E, 3⟩) rfl, encode_of_row (row := ⟨.calReg, 0x5F, 2⟩) rfl, exec_call_room rfl hroom,
    exec_call_room rfl hroom⟩

/-! ## The frame that a return pops -/

/-- An instruction that is a return, `H` set to `h` before it, completes from storage (R258, R315). -/
theorem State.returns_of_popState {s : State} {i : Instr} {h : Bool} {place : Nat → Loc}
    (he : exec i s = (s.setHandler h).popState.toOutcome)
    (hplace : ∀ k < 11 + (s.wordAt (place 10)).toNat, s.access (slotUp (s.reg .fp) k).toNat 2 = .ok (.storage (place k))) :
    s.returns i h place := by
  obtain ⟨t, hpop, saved, sp, fp, frameSize, handler, run, regs, platform, devices, output⟩ :=
    State.popState_storage (s := s.setHandler h) hplace
  have word : ∀ (k : Nat) (hk : k < 9), t.reg savedRegs.reverse[k] = s.wordAt (place (k + 1)) := saved
  exact ⟨t, he.trans (Res.toOutcome_eq_next.mpr hpop), word 0 (by decide), word 1 (by decide), word 2 (by decide), word 3 (by decide),
    word 4 (by decide), word 5 (by decide), word 6 (by decide), word 7 (by decide), word 8 (by decide), sp, fp, frameSize, handler,
    run, regs .acc (by decide), regs .im (by decide), regs .mb (by decide), platform, devices, output⟩

/-- Settles O35: `ret` leaves `H` as it is, which is to set it to what it holds; `rti` clears it first. -/
theorem returnPopsFrame : Obligations.ReturnPopsFrame := fun _ _ hplace =>
  ⟨encode_of_row (row := ⟨.ret, 0x60, 1⟩) rfl, State.returns_of_popState rfl hplace,
    encode_of_row (row := ⟨.rti, 0xFC, 1⟩) rfl, State.returns_of_popState rfl hplace⟩

/-! ## A return answers a call -/

/-- On the default platform the state `t` holds in memory the frame that `s` pushes. -/
def State.frameIn (s t : State) : Prop := ∀ k < 10, s.frameWords[k]? = some (t.flatWord (slotDown (s.reg .sp) k))

/-- The pops into registers run through the saved registers backwards, from the word before the frame size (R257, R258). -/
theorem State.frameWords_saved (s : State) {k : Nat} (hk : k < savedRegs.reverse.length) :
    s.frameWords[8 - k]? = some (s.reg savedRegs.reverse[k]) := by
  change k < 9 at hk
  interval_cases k <;> rfl

/-- The words of the frame, as the pops meet them, are those the pushes met, last first. -/
theorem slotUp_frame (a : Word) {k : Nat} (hk : k < 10) : slotUp (a - 20) k = slotDown a (9 - k) := by
  have h := slotUp_slotDown a (9 - k) k
  rwa [show 9 - k + k + 1 = 10 by omega] at h

/-- Above the frame the pops meet what lies above the caller's `sp`: the count and the arguments (R257). -/
theorem slotUp_above_frame (a : Word) (k : Nat) : slotUp (a - 20) (10 + k) = slotUp a k := by
  rw [← slotUp_add]
  exact congrArg (slotUp · k) (BitVec.sub_add_cancel a 20)

/-- `popState()` on the default platform over the frame that `s` pushed (R259). -/
theorem State.popState_frameIn {s u : State} {n : Word} (hflat : u.flat) (hfp : u.reg .fp = s.reg .sp - 20)
    (hdown : ∀ k < 10, slotDown (s.reg .sp) k ≠ 0xFFFF) (hup : ∀ k ≤ n.toNat, slotUp (s.reg .sp) k ≠ 0xFFFF)
    (hframe : s.frameIn u) (hn : n = u.flatWord (s.reg .sp + 2)) :
    ∃ v, u.popState = .ok () v ∧ (∀ r ∈ savedRegs, v.reg r = s.reg r) ∧ v.reg .sp = s.reg .sp + 2 + 2 * n ∧
      v.reg .fp = s.reg .sp + s.frameSize ∧ v.frameSize = s.frameSize - 2 * n := by
  have below : ∀ k < 10, s.frameWords[9 - k]? = some (u.wordAt (flatLoc (slotUp (u.reg .fp) k).toNat)) := by
    intro k hk
    rw [hfp, slotUp_frame _ hk]
    exact hframe (9 - k) (by omega)
  have count : u.wordAt (flatLoc (slotUp (u.reg .fp) 10).toNat) = n := by
    rw [hfp, slotUp_above_frame _ 0, slotUp_zero, hn]
    rfl
  have inside : ∀ k < 11 + n.toNat, slotUp (u.reg .fp) k ≠ 0xFFFF := by
    intro k hk
    rw [hfp]
    rcases Nat.lt_or_ge k 10 with hlt | hge
    · rw [slotUp_frame _ hlt]
      exact hdown (9 - k) (by omega)
    · obtain ⟨j, rfl⟩ := Nat.exists_eq_add_of_le hge
      rw [slotUp_above_frame]
      exact hup j (by omega)
  obtain ⟨v, hpop, saved, sp, fp, frameSize, _⟩ :=
    State.popState_storage (s := u) (place := fun k => flatLoc (slotUp (u.reg .fp) k).toNat) fun k hk =>
      State.access_flat hflat (by decide) (toNat_le_of_ne_top (inside k (by rwa [count] at hk)))
  have pushed := Option.some.inj (below 0 (by decide))
  rw [count] at sp frameSize
  rw [← pushed] at fp frameSize
  refine ⟨v, hpop, fun r hr => ?_, ?_, ?_, ?_⟩
  · obtain ⟨k, hk, rfl⟩ := List.mem_iff_getElem.mp (List.mem_reverse.mpr hr)
    have met := below (k + 1) (Nat.succ_lt_succ hk)
    rw [show 9 - (k + 1) = 8 - k from Nat.add_sub_add_right 8 1 k, s.frameWords_saved hk] at met
    rw [saved k hk, Option.some.inj met]
  · rw [sp, hfp]
    ring
  · rw [fp, hfp]
    ring
  · rw [frameSize]
    ring

/-- After a call on the default platform the frame lies in memory, with `fp` below it (R257). -/
theorem exec_call_flat {s t : State} {i : Instr} {target : Word}
    (he : exec i s = (s.pushState.bind fun _ s1 => .ok () (s1.setReg .pc target)).toOutcome) (hflat : s.flat)
    (hdown : ∀ k < 10, slotDown (s.reg .sp) k ≠ 0xFFFF) (h : exec i s = .next t) :
    t.reg .fp = s.reg .sp - 20 ∧ s.frameIn t := by
  obtain ⟨t', hnext, _, ⟨words, _⟩, _, _, fp, _⟩ := exec_call_room he (State.roomFor_flat hflat (by decide) hdown)
  cases h.symm.trans hnext
  exact ⟨fp, fun k hk => (List.getElem?_eq_getElem hk).trans (congrArg some (words k hk).symm)⟩

/-- Settles O36: the call leaves its frame in memory, the run in between leaves it there, and the return pops it. -/
theorem callThenReturn : Obligations.CallThenReturn := by
  intro s t u target n r hflat hdown hup hcall hflat' hfp hn hkept
  obtain ⟨fp, frame⟩ : t.reg .fp = s.reg .sp - 20 ∧ s.frameIn t := by
    rcases hcall with h | h
    · exact exec_call_flat rfl hflat hdown h
    · exact exec_call_flat rfl hflat hdown h
  have frame' : s.frameIn u := fun k hk => by rw [hkept k hk, frame k hk]
  obtain ⟨v, hpop, saved, sp', fp', frameSize'⟩ := State.popState_frameIn hflat' (hfp.trans fp) hdown hup frame' hn
  refine ⟨v, Res.toOutcome_eq_next.mpr hpop, saved .pc (by decide), fun q hq => saved q ?_, sp', fp', frameSize', fun inv => ?_⟩
  · exact List.mem_append_left [.pc] hq
  · rw [fp', inv, BitVec.add_comm, BitVec.sub_add_cancel]

/-! ## The frame invariant -/

/-- `F + sp` is unchanged: what `F` and `sp` move by is opposite, as in every push and every pop (R250, R251). -/
def State.sameSum (s t : State) : Prop := t.frameSize + t.reg .sp = s.frameSize + s.reg .sp

theorem State.sameSum_trans (a b c : State) (h : a.sameSum b) (h' : b.sameSum c) : a.sameSum c := Eq.trans h' h

/-- The frame invariant, as a sum (R266). -/
theorem State.frameInv_iff {s : State} : s.frameInv ↔ s.frameSize + s.reg .sp = s.reg .fp :=
  ⟨fun h => by rw [h, BitVec.sub_add_cancel], fun h => by rw [State.frameInv, ← h, BitVec.add_sub_cancel]⟩

theorem State.frameInv_of_sameSum {s t : State} (h : s.sameSum t) (hfp : t.reg .fp = s.reg .fp) (hs : s.frameInv) : t.frameInv :=
  State.frameInv_iff.mpr ((h.trans (State.frameInv_iff.mp hs)).trans hfp.symm)

theorem State.push_sameSum {s t : State} {v : Word} (h : s.push v = .ok () t) : s.sameSum t := by
  obtain ⟨sp, frameSize, _⟩ := State.push_engine h
  rw [State.sameSum, sp, frameSize]
  ring

theorem State.pop_sameSum (s : State) : Res.Post State.sameSum s s.pop := by
  intro v t h
  obtain ⟨sp, _⟩ := State.pop_keeps h
  rw [State.sameSum, sp, State.pop_frameSize h]
  ring

theorem State.popInto_sameSum (rs : List Reg) : .sp ∉ rs → ∀ s : State, Res.Post State.sameSum s (s.popInto rs) := by
  induction rs with
  | nil => exact fun _ _ => Res.Post.ok rfl
  | cons r rs ih =>
    intro hsp s
    simp only [List.mem_cons, not_or] at hsp
    obtain ⟨hr, hrs⟩ := hsp
    refine Res.Post.bind State.sameSum_trans s.pop_sameSum fun v t _ => ?_
    have written : t.sameSum (t.setReg r v) := by rw [State.sameSum, State.reg_setReg_ne _ _ hr, State.frameSize_setReg]
    exact fun w u h => State.sameSum_trans _ _ _ written (ih hrs _ w u h)

theorem State.discard_sameSum (n : Nat) : ∀ s : State, Res.Post State.sameSum s (s.discard n) := by
  induction n with
  | zero => exact fun _ => Res.Post.ok rfl
  | succ n ih => exact fun s => Res.Post.bind State.sameSum_trans s.pop_sameSum fun _ t _ => ih t

/-- `F` is loaded when `sp` is 2 above the `fp` at entry, and `fp` then becomes that `fp` plus `F`: from there on `F + sp` is 2 above
the new `fp`, whatever else is popped (R258, R266). -/
theorem State.popState_frameSize {s t : State} (h : s.popState = .ok () t) : t.frameSize = t.reg .fp - t.reg .sp + 2 := by
  obtain ⟨fs, s1, hfs, h⟩ := Res.bind_eq_ok.mp h
  obtain ⟨_, s2, hinto, h⟩ := Res.bind_eq_ok.mp h
  obtain ⟨n, s3, hcount, h⟩ := Res.bind_eq_ok.mp h
  obtain ⟨_, s4, hdiscard, h⟩ := Res.bind_eq_ok.mp h
  cases h
  have loaded : s1.reg .sp = s.reg .fp + 2 := by
    obtain ⟨sp, _⟩ := State.pop_keeps hfs
    rw [sp, State.reg_setReg_same]
  have sum : s4.frameSize + s4.reg .sp = fs + s1.reg .sp :=
    calc s4.frameSize + s4.reg .sp
      _ = s3.frameSize + s3.reg .sp := State.discard_sameSum _ s3 _ _ hdiscard
      _ = s2.frameSize + s2.reg .sp := s2.pop_sameSum _ _ hcount
      _ = fs + s1.reg .sp := State.popInto_sameSum _ (by decide) (s1.setFrameSize fs) _ _ hinto
  rw [State.frameSize_setReg, State.reg_setReg_same, State.reg_setReg_ne _ _ (by decide), eq_sub_of_add_eq sum, loaded]
  ring

theorem State.pushState_frameInv {s t : State} (h : s.pushState = .ok () t) : t.frameInv := by
  obtain ⟨_, s1, _, h⟩ := Res.bind_eq_ok.mp h
  obtain ⟨_, s2, _, h⟩ := Res.bind_eq_ok.mp h
  cases h
  rw [State.frameInv, State.frameSize_setFrameSize, State.reg_setFrameSize, State.reg_setFrameSize, State.reg_setReg_same,
    State.reg_setReg_ne _ _ (by decide)]
  exact (BitVec.sub_self _).symm

theorem exec_push_frameInv {s t : State} {i : Instr} {v : Word} (he : exec i s = (s.push v).toOutcome) (hs : s.frameInv)
    (h : exec i s = .next t) : t.frameInv := by
  have hpush := Res.toOutcome_eq_next.mp (he.symm.trans h)
  obtain ⟨_, _, regs, _⟩ := State.push_engine hpush
  exact State.frameInv_of_sameSum (State.push_sameSum hpush) (regs .fp (by decide)) hs

theorem exec_call_frameInv {s t : State} {i : Instr} {target : Word}
    (he : exec i s = (s.pushState.bind fun _ s1 => .ok () (s1.setReg .pc target)).toOutcome) (h : exec i s = .next t) :
    t.frameInv := by
  obtain ⟨_, s1, hpush, hjump⟩ := Res.bind_eq_ok.mp (Res.toOutcome_eq_next.mp (he.symm.trans h))
  cases hjump
  have entry : s1.frameInv := State.pushState_frameInv hpush
  exact entry

theorem exec_popReg_frameInv {s t : State} {q : Reg} (hsp : q ≠ .sp) (hfp : q ≠ .fp) (hs : s.frameInv)
    (h : exec (.popReg q) s = .next t) : t.frameInv := by
  obtain ⟨v, s1, hpop, hwrite⟩ := Res.bind_eq_ok.mp (Res.toOutcome_eq_next.mp h)
  cases hwrite
  obtain ⟨_, keeps, _⟩ := State.pop_keeps hpop
  refine State.frameInv_of_sameSum (s := s) ?_ ?_ hs
  · rw [State.sameSum, State.frameSize_setReg, State.reg_setReg_ne _ _ (Ne.symm hsp)]
    exact s.pop_sameSum v s1 hpop
  · rw [State.reg_setReg_ne _ _ (Ne.symm hfp), keeps .fp (by decide)]

/-- Settles O37: the pushes and the pops keep `F + sp`, a call sets `fp` to `sp` and `F` to 0, and a return is `popState()`. -/
theorem frameInvariant : Obligations.FrameInvariant := fun _ _ _ _ _ hsp hfp =>
  ⟨exec_push_frameInv rfl, exec_push_frameInv rfl, exec_popReg_frameInv hsp hfp, exec_call_frameInv rfl, exec_call_frameInv rfl,
    fun h => State.popState_frameSize (Res.toOutcome_eq_next.mp h), fun h => State.popState_frameSize (Res.toOutcome_eq_next.mp h)⟩

end Sys2Proof.Machine
end

section
/-! The system instructions (spec 45_system.md R280): what `hlt` completes with, and that a halted engine takes no step. -/

namespace Sys2Proof.Machine

/-- A halted engine takes no step (R37, R160). -/
theorem step_halted {s : State} (h : s.runState = .halted) : step s = .fault .engineHalted := by rw [step, h]

theorem exec_hlt (s : State) : exec .hlt s = .next (s.setRunState .halted) := rfl

theorem State.sameRegsBut_setRunState (rs : List Reg) (s : State) (r : RunState) : s.sameRegsBut rs (s.setRunState r) :=
  fun q _ => s.reg_setRunState r q

theorem State.samePlatform_setRunState (s : State) (r : RunState) : s.samePlatform (s.setRunState r) :=
  ⟨s.config_setRunState r, s.regions_setRunState r, s.nextToken_setRunState r, s.shapes_setRunState r⟩

theorem State.sameOutput_setRunState (s : State) (r : RunState) : s.sameOutput (s.setRunState r) :=
  ⟨s.output_setRunState r, s.draws_setRunState r⟩

/-- Settles O38: `hlt` writes the run state alone, and a halted engine takes no step. -/
theorem haltStops : Obligations.HaltStops := fun s =>
  have halted : (s.setRunState .halted).runState = .halted := s.runState_setRunState .halted
  ⟨encode_of_row (row := ⟨.hlt, 0xFF, 1⟩) rfl, s.setRunState .halted, exec_hlt s, halted, step_halted halted,
    s.sameRegsBut_setRunState [] .halted, s.frameSize_setRunState .halted, s.inHandler_setRunState .halted,
    s.samePlatform_setRunState .halted, s.devices_setRunState .halted, s.sameOutput_setRunState .halted⟩

end Sys2Proof.Machine
end

section
/-! Stopped engines and the errors of a step (spec 60_exceptions.md R301, R302, R322, R323): what a halted or failed engine answers, and
what a step that fails can fail with. -/

namespace Sys2Proof.Machine

/-! ## A halted or failed engine -/

/-- A stopped engine takes no step: `step` answers one of the two faults that only a stopped engine raises (R37, R160). -/
theorem step_stopped {s : State} (h : s.runState ≠ .running) :
    step s = .fault .engineHalted ∨ ∃ e, step s = .fault (.engineFailed e) := by
  rcases step_cases (s := s) rfl with ⟨_, hstep⟩ | ⟨e, _, hstep⟩ | ⟨hrun, _⟩
  · exact Or.inl hstep
  · exact Or.inr ⟨e, hstep⟩
  · exact absurd hrun h

theorem State.hostStep_stopped {s : State} (h : s.runState ≠ .running) : s.hostStep = (s, .notRunning) := by
  rcases step_stopped h with hstep | ⟨e, hstep⟩ <;> simp only [State.hostStep, hstep]

theorem State.hostInterrupt_stopped {s : State} (v : Word) (h : s.runState ≠ .running) : s.hostInterrupt v = (s, none) := by
  unfold State.hostInterrupt
  split
  next hrun => exact absurd hrun h
  next => rfl

/-- Settles O47: neither `step` nor the host's step nor a request does anything to an engine that is not running. -/
theorem stoppedEngineTakesNoStep : Obligations.StoppedEngineTakesNoStep := by
  intro s v h
  refine ⟨fun t hnext => ?_, congrArg Prod.fst (State.hostStep_stopped h), State.hostInterrupt_stopped v h⟩
  rcases step_stopped h with hstep | ⟨e, hstep⟩ <;> cases hstep.symm.trans hnext

/-! ## The errors of a step -/

/-- Every instruction has its meaning (R117). -/
theorem exec_ne_refused (i : Instr) (s : State) (x : Refusal) : exec i s ≠ .refused x := by
  intro h
  rcases exec_tame i s with ⟨y, he, _⟩ | ⟨_, he⟩
  · exact y.toOutcome_ne_refused x (he.symm.trans h)
  · cases he.symm.trans h

theorem step_ne_refused (s : State) (x : Refusal) : step s ≠ .refused x := by
  intro h
  rcases step_cases h with ⟨_, hn⟩ | ⟨_, _, hn⟩ | ⟨_, ⟨i, s1, _, hn⟩ | ⟨_, _, hn⟩ | ⟨_, _, hn⟩⟩
  · cases hn
  · cases hn
  · exact exec_ne_refused i s1 x hn.symm
  · cases hn
  · cases hn

/-- Settles O55: a step fails in its fetch or in its instruction, and an instruction only by an access. -/
theorem engineErrorsOfAStep : Obligations.EngineErrorsOfAStep := by
  refine fun s => ⟨step_ne_refused s, fun e output h => step_fault_error h, fun i f h => ?_⟩
  obtain ⟨e, output, hf, raised, _⟩ := exec_fault_raisesAccess h
  exact ⟨e, output, hf, raised.kind⟩

end Sys2Proof.Machine
end

section
/-! Interrupt requests (spec 45_system.md R281, 60_exceptions.md R310 to R314, R330): a request by `int` and one by the host are the same
operation; what it is when the line is masked, and when it is accepted inside a handler. -/

namespace Sys2Proof.Machine

/-! ## By `int` and from the host -/

theorem exec_intImm (v : Word) (s : State) : exec (.intImm v) s = (s.requestInterrupt v).toOutcome := rfl

theorem State.hostInterrupt_ok {s t : State} {v : Word} (hrun : s.runState = .running) (h : s.requestInterrupt v = .ok () t) :
    s.hostInterrupt v = (t, none) := by
  simp only [State.hostInterrupt, hrun, h]

theorem State.hostInterrupt_failed {s : State} {v : Word} {e : EngineError} {output : List OutputEvent}
    (hrun : s.runState = .running) (h : s.requestInterrupt v = .fault (.failed e output)) :
    s.hostInterrupt v = (s.fail e output, some e) := by
  simp only [State.hostInterrupt, hrun, h]

/-- Where `int` completes, so does the host's request, with the same state (R314, R330). -/
theorem State.requestCompletes_of_exec {s t : State} {v : Word} (h : exec (.intImm v) s = .next t) : s.requestCompletes v t :=
  ⟨h, fun hrun => State.hostInterrupt_ok hrun (Res.toOutcome_eq_next.mp h)⟩

/-- Where `int` fails, the host's request leaves the engine failed for the same error (R314, R330, R169). -/
theorem State.requestFails_of_exec {s : State} {v : Word} {e : EngineError} {output : List OutputEvent}
    (h : exec (.intImm v) s = .fault (.failed e output)) : s.requestFails v e output :=
  ⟨h, fun hrun => ⟨s.fail e output, State.hostInterrupt_failed hrun (Res.toOutcome_eq_fault.mp h), rfl, rfl,
    s.samePlatform_fail e output⟩⟩

/-! ## The line of a request -/

/-- A request reads of its value the line alone (R310). -/
theorem State.requestInterrupt_congr (s : State) {v w : Word} (h : interruptLine v = interruptLine w) :
    s.requestInterrupt v = s.requestInterrupt w := by
  rw [State.requestInterrupt, State.requestInterrupt, h]

/-- Settles O42: values equal modulo 16 have one line, so they are one request. -/
theorem requestLineModulo16 : Obligations.RequestLineModulo16 := by
  intro s v w h
  have same : s.requestInterrupt v = s.requestInterrupt w := s.requestInterrupt_congr h
  exact ⟨congrArg Res.toOutcome same, by rw [State.hostInterrupt, State.hostInterrupt, same]⟩

/-! ## Masked -/

/-- A masked request is discarded (R311). -/
theorem State.requestInterrupt_masked {s : State} {v : Word} (h : (s.reg .im).getLsbD (interruptLine v) = false) :
    s.requestInterrupt v = .ok () s :=
  if_neg (Bool.eq_false_iff.mp h)

/-- Settles O39: the discarded request completes with the state it met, and on a stopped engine there is none. -/
theorem maskedRequestIsIgnored : Obligations.MaskedRequestIsIgnored := by
  intro s v h
  have discarded : s.requestInterrupt v = .ok () s := State.requestInterrupt_masked h
  refine ⟨Res.toOutcome_eq_next.mpr discarded, ?_⟩
  by_cases hrun : s.runState = .running
  · exact State.hostInterrupt_ok hrun discarded
  · exact State.hostInterrupt_stopped v hrun

/-! ## Accepted -/

/-- An accepted request saves what it saves, sets `H`, and loads `pc` from the line's vector slot (R312). -/
theorem State.requestInterrupt_accepted {s : State} {v : Word} (h : (s.reg .im).getLsbD (interruptLine v) = true) :
    s.requestInterrupt v = s.saveForInterrupt.bind fun _ s1 =>
      ((s1.setHandler true).memRead16 (s1.vectorSlot (interruptLine v))).bind fun handler s2 => .ok () (s2.setReg .pc handler) :=
  if_pos h

/-- Inside a handler nothing is saved (R313). -/
theorem State.saveForInterrupt_nested {s : State} (h : s.inHandler = true) : s.saveForInterrupt = .ok () s :=
  if_pos h

theorem State.setHandler_self (s : State) : s.setHandler s.inHandler = s := rfl

/-- An accepted request inside a handler is a load of `pc` from the vector slot, `H` being set already (R313). -/
theorem exec_intImm_nested {s : State} {v : Word} (hm : (s.reg .im).getLsbD (interruptLine v) = true)
    (hh : s.inHandler = true) : exec (.intImm v) s = s.loadInto (s.vectorSlot (interruptLine v)) .pc := by
  have already : s.setHandler true = s := hh ▸ s.setHandler_self
  rw [exec_intImm, State.requestInterrupt_accepted hm, State.saveForInterrupt_nested hh, Res.bind_ok, already, State.loadInto]

/-- Settles O41: the request loads `pc` as a move loads a register, so its four outcomes are those of a load. -/
theorem nestedRequestSavesNothing : Obligations.NestedRequestSavesNothing := by
  intro s v hm hh
  obtain ⟨storage, sink, object, fails⟩ := State.loads_of_loadInto (exec_intImm_nested hm hh)
  refine ⟨fun l h => ?storage, fun d o h => ?sink, fun d o h => ?object, fun e h => State.requestFails_of_exec (fails e h),
    fun h => State.requestFails_of_exec (fails _ (s.access_overflow ?slot))⟩
  case storage =>
    obtain ⟨t, hexec, pc, rest⟩ := storage l h
    exact ⟨t, State.requestCompletes_of_exec hexec, pc, rest⟩
  case sink =>
    obtain ⟨t, hexec, rest⟩ := sink d o h
    exact ⟨t, State.requestCompletes_of_exec hexec, rest⟩
  case object =>
    obtain ⟨t, hexec, pc, rest⟩ := object d o h
    exact ⟨t, State.requestCompletes_of_exec hexec, pc, rest⟩
  case slot => exact Nat.add_lt_add_right h 2

end Sys2Proof.Machine
end

section
/-! Taking an interrupt outside a handler (spec 60_exceptions.md R312, R314 to R317): the eleven words an accepted request pushes, what it
completes with, and what `rti` answers to it. -/

namespace Sys2Proof.Machine

/-! ## What a request saves -/

/-- The eleven words an accepted request pushes outside a handler, in that order: the count 0, then the frame of R257, whose saved frame
size counts the push of the 0 (R312). -/
def State.interruptWords (s : State) : List Word := 0 :: (savedRegs.map s.reg ++ [s.frameSize + 22])

/-- They are 0 and then the frame of any state that has the saved registers of `s` and `F` one push higher. -/
theorem State.interruptWords_eq {s t : State} (regs : ∀ r ∈ savedRegs, t.reg r = s.reg r) (frameSize : t.frameSize = s.frameSize + 2) :
    s.interruptWords = 0 :: t.frameWords := by
  have saved : t.frameSize + 20 = s.frameSize + 22 := by
    rw [frameSize]
    exact BitVec.add_assoc s.frameSize 2 20
  rw [State.interruptWords, State.frameWords, List.map_congr_left regs, saved]

/-- Outside a handler the save is one run of eleven pushes, and then `fp` and `F` are set (R312, R256). -/
theorem State.saveForInterrupt_eq_pushAll {s : State} (h : s.inHandler = false) :
    s.saveForInterrupt = (s.pushAll s.interruptWords).bind fun _ t => .ok () ((t.setReg .fp (t.reg .sp)).setFrameSize 0) := by
  have save : s.saveForInterrupt = (s.push 0).bind fun _ s1 => s1.pushState := if_neg (Bool.eq_false_iff.mp h)
  rw [save]
  cases hpush : s.push 0 with
  | fault f => rw [State.interruptWords, State.pushAll, hpush, Res.bind_fault, Res.bind_fault, Res.bind_fault]
  | ok _ s1 =>
    obtain ⟨_, frameSize, regs, _⟩ := State.push_engine hpush
    have kept : ∀ r ∈ savedRegs, s1.reg r = s.reg r := fun r hr =>
      regs r fun hsp => absurd (List.mem_singleton.mp hsp ▸ hr) (by decide)
    rw [State.interruptWords_eq kept frameSize, State.pushAll, hpush, Res.bind_ok, Res.bind_ok, State.pushState_eq_pushAll]

theorem State.saveForInterrupt_of_pushAll {s t : State} (h : s.inHandler = false) (hpush : s.pushAll s.interruptWords = .ok () t) :
    s.saveForInterrupt = .ok () ((t.setReg .fp (t.reg .sp)).setFrameSize 0) := by
  rw [State.saveForInterrupt_eq_pushAll h, hpush, Res.bind_ok]

/-- The save with room for its eleven words: what it leaves (R312). -/
theorem State.saveForInterrupt_room {s : State} {place : Nat → Loc} (h : s.inHandler = false) (hroom : s.roomFor 11 place) :
    ∃ t, s.saveForInterrupt = .ok () t ∧ s.wroteWords t s.interruptWords place ∧ s.sameObjects t ∧ t.reg .sp = s.reg .sp - 22 ∧
      t.reg .fp = s.reg .sp - 22 ∧ t.frameSize = 0 ∧ s.sameRegsBut [.sp, .fp] t ∧ s.Evolves t ∧ s.sameOutput t := by
  obtain ⟨t, hpush, P⟩ := State.pushAll_room s.interruptWords (place := place) hroom
  have sp : t.reg .sp = s.reg .sp - 22 := P.sp
  have hsave := State.saveForInterrupt_of_pushAll h hpush
  refine ⟨_, hsave, P.wrote, P.objects, sp, ?_, rfl, ?_, s.saveForInterrupt_tame.ok _ _ hsave, P.output⟩
  · rw [State.reg_setFrameSize, State.reg_setReg_same, sp]
  · exact State.sameRegsBut_trans (State.sameRegsBut_mono P.regs (by decide)) (State.sameRegsBut_setReg _ (by decide))

/-! ## The vector slot -/

theorem State.saveForInterrupt_regs (s : State) : Res.Post (State.sameRegsBut [.sp, .fp]) s s.saveForInterrupt := by
  cases hh : s.inHandler with
  | true =>
    rw [State.saveForInterrupt_nested hh]
    exact Res.Post.ok (State.sameRegsBut_refl _ s)
  | false =>
    rw [State.saveForInterrupt_eq_pushAll hh]
    exact Res.Post.bindRegs (State.pushAll_regs (by decide) _ s) fun _ t _ => Res.Post.ok (State.sameRegsBut_setReg _ (by decide))

/-- A save moves neither the vector slots nor what an access reaches, so the slot is read where it was (R312). -/
theorem State.saveForInterrupt_keeps {s t : State} (h : s.saveForInterrupt = .ok () t) :
    (∀ line, t.vectorSlot line = s.vectorSlot line) ∧ ∀ a n, t.access a n = s.access a n := by
  obtain ⟨⟨config, regions, _, shapes⟩, _⟩ := s.saveForInterrupt_tame.ok () t h
  have mb : t.reg .mb = s.reg .mb := s.saveForInterrupt_regs () t h .mb (by decide)
  exact ⟨fun line => by rw [State.vectorSlot, State.vectorSlot, config], State.access_congr regions shapes mb⟩

/-- An accepted request that has saved reads its vector slot and jumps there (R312). -/
theorem State.requestInterrupt_saved {s t : State} {v : Word} {l : Loc} (hm : (s.reg .im).getLsbD (interruptLine v) = true)
    (hsave : s.saveForInterrupt = .ok () t) (hslot : s.access (s.vectorSlot (interruptLine v)) 2 = .ok (.storage l)) :
    s.requestInterrupt v = .ok () ((t.setHandler true).setReg .pc (t.wordAt l)) := by
  obtain ⟨slot, hacc⟩ := State.saveForInterrupt_keeps hsave
  have hread : (t.setHandler true).memRead16 (t.vectorSlot (interruptLine v)) = .ok (t.wordAt l) (t.setHandler true) :=
    State.memRead16_storage (by rw [State.access_setHandler, slot, hacc, hslot])
  rw [State.requestInterrupt_accepted hm, hsave, Res.bind_ok, hread, Res.bind_ok]

/-! ## Entry -/

/-- Settles O40: the save leaves the eleven words, and after it only `H` and `pc` are written. -/
theorem interruptEntry : Obligations.InterruptEntry := by
  intro s v place l hm hh hroom hslot
  obtain ⟨t, hsave, wrote, objects, sp, fp, frameSize, regs, evolves, output⟩ := State.saveForInterrupt_room hh hroom
  have hexec := Res.toOutcome_eq_next.mpr (State.requestInterrupt_saved hm hsave hslot)
  have regs' : s.sameRegsBut [.pc, .sp, .fp] ((t.setHandler true).setReg .pc (t.wordAt l)) :=
    State.sameRegsBut_trans (State.sameRegsBut_mono regs (by decide)) (State.sameRegsBut_setReg _ (by decide))
  exact ⟨encode_of_row (row := ⟨.intImm, 0xFD, 3⟩) rfl, _, State.requestCompletes_of_exec hexec, wrote, objects,
    State.reg_setReg_same _ .pc _, sp, fp, frameSize, rfl, regs', evolves.runState, evolves.platform, output⟩

/-! ## Round trip -/

/-- On the default platform the vector slot of a request that was taken lies in storage: above 0xFFFE its read would overflow (R79). -/
theorem State.access_vectorSlot_flat {s t : State} {v : Word} (hflat : s.flat) (hm : (s.reg .im).getLsbD (interruptLine v) = true)
    (h : s.requestInterrupt v = .ok () t) :
    s.access (s.vectorSlot (interruptLine v)) 2 = .ok (.storage (flatLoc (s.vectorSlot (interruptLine v)))) := by
  refine State.access_flat hflat (by decide) (Nat.not_lt.mp fun htop => ?_)
  rw [State.requestInterrupt_accepted hm] at h
  obtain ⟨_, s1, hsave, h⟩ := Res.bind_eq_ok.mp h
  obtain ⟨handler, s2, hread, _⟩ := Res.bind_eq_ok.mp h
  obtain ⟨slot, _⟩ := State.saveForInterrupt_keeps hsave
  have overflow := State.access_overflow (s1.setHandler true) htop
  rw [slot, State.memRead16_eq_fault.mpr ⟨_, overflow, rfl⟩] at hread
  cases hread

/-- A request taken outside a handler on the default platform leaves its words in memory, with `fp` below them (R312). -/
theorem State.requestInterrupt_flat {s t : State} {v : Word} (hflat : s.flat) (hh : s.inHandler = false)
    (hm : (s.reg .im).getLsbD (interruptLine v) = true) (hdown : ∀ k < 11, slotDown (s.reg .sp) k ≠ 0xFFFF)
    (h : s.requestInterrupt v = .ok () t) :
    t.reg .fp = s.reg .sp - 22 ∧ ∀ k < 11, s.interruptWords[k]? = some (t.flatWord (slotDown (s.reg .sp) k)) := by
  obtain ⟨_, t', ⟨hexec, _⟩, ⟨words, _⟩, _, _, _, fp, _⟩ :=
    interruptEntry s v _ _ hm hh (State.roomFor_flat hflat (by decide) hdown) (State.access_vectorSlot_flat hflat hm h)
  cases (Res.toOutcome_eq_next.mpr h).symm.trans hexec
  exact ⟨fp, fun k hk => (List.getElem?_eq_getElem hk).trans (congrArg some (words k hk).symm)⟩

/-- The engine as a push of the count leaves it, on the memory there was (R250). -/
def State.countPushed (s : State) : State := (s.setReg .sp (s.reg .sp - 2)).setFrameSize (s.frameSize + 2)

theorem State.reg_countPushed (s : State) {r : Reg} (hr : r ∈ savedRegs) : s.countPushed.reg r = s.reg r :=
  s.reg_setReg_ne _ fun hsp => absurd (hsp ▸ hr) (by decide)

/-- The words of a request are the count and the frame of a call made after it (R312). -/
theorem State.interruptWords_countPushed (s : State) : s.interruptWords = 0 :: s.countPushed.frameWords :=
  State.interruptWords_eq (fun _ => s.reg_countPushed) rfl

/-- Memory that holds the words of a request holds the count 0 at `sp` and below it the frame of that call. -/
theorem State.frameIn_countPushed {s u : State}
    (h : ∀ k < 11, s.interruptWords[k]? = some (u.flatWord (slotDown (s.reg .sp) k))) :
    u.flatWord (s.reg .sp) = 0 ∧ s.countPushed.frameIn u := by
  simp only [State.interruptWords_countPushed] at h
  have count := h 0 (by decide)
  rw [slotDown_zero, List.getElem?_cons_zero] at count
  refine ⟨(Option.some.inj count).symm, fun k hk => ?_⟩
  have word := h (k + 1) (by omega)
  rwa [List.getElem?_cons_succ, ← slotDown_succ] at word

/-- Settles O43: `rti` answers the request as a return answers a call made after a push of the count, which is 0, so that no argument is
discarded. -/
theorem interruptRoundTrip : Obligations.InterruptRoundTrip := by
  intro s t u v hflat hh hm hdown hreq hflat' hfp hkept
  obtain ⟨fp, words⟩ := State.requestInterrupt_flat hflat hh hm hdown hreq
  obtain ⟨count, frame⟩ := State.frameIn_countPushed (s := s) (u := u) fun k hk => by rw [hkept k hk, words k hk]
  have sp : s.countPushed.reg .sp + 2 = s.reg .sp := BitVec.sub_add_cancel (s.reg .sp) 2
  have below : t.reg .fp = s.countPushed.reg .sp - 20 := fp.trans (BitVec.sub_sub (s.reg .sp) 2 20).symm
  have inside : ∀ k < 10, slotDown (s.countPushed.reg .sp) k ≠ 0xFFFF := fun k hk => by
    have top := hdown (k + 1) (by omega)
    rwa [← slotDown_succ] at top
  have countInside : ∀ k ≤ (0 : Word).toNat, slotUp (s.countPushed.reg .sp) k ≠ 0xFFFF := fun k hk => by
    have top := hdown 0 (by decide)
    rw [Nat.le_zero.mp hk, slotUp_zero, sp]
    rwa [slotDown_zero] at top
  obtain ⟨w, hpop, saved, wsp, wfp, _⟩ := State.popState_frameIn (s := s.countPushed) (u := u.setHandler false) (n := 0) hflat'
    (hfp.trans below) inside countInside frame (by rw [sp]; exact count.symm)
  have above : w.reg .fp = s.reg .sp + s.frameSize := by
    rw [wfp, State.countPushed, State.frameSize_setFrameSize, State.reg_setFrameSize, State.reg_setReg_same]
    ring
  refine ⟨w, Res.toOutcome_eq_next.mpr hpop, (saved .pc (by decide)).trans (s.reg_countPushed (by decide)), fun r hr => ?_,
    State.popState_handler _ () w hpop, ?_, above, State.popState_frameSize hpop, fun inv => ?_⟩
  · have hsaved : r ∈ savedRegs := List.mem_append_left [Reg.pc] hr
    exact (saved r hsaved).trans (s.reg_countPushed hsaved)
  · rw [wsp, sp]
    exact BitVec.add_zero _
  · rw [above, BitVec.add_comm, State.frameInv_iff.mp inv]

end Sys2Proof.Machine
end

section
/-! Where calls, requests and returns stop (spec 60_exceptions.md R303, R312, 44_stack_call.md R258): the first push or pop whose access
fails is the one reported. -/

namespace Sys2Proof.Machine

/-! ## Calls -/

/-- `pushState()` reports the first of its ten pushes whose access fails (R256, R303). -/
theorem State.pushState_fault {s : State} {k : Nat} {e : EngineError} (hk : k < 10)
    (hj : ∀ j < k, ∃ g, s.access (slotDown (s.reg .sp) j).toNat 2 = .ok g)
    (he : s.access (slotDown (s.reg .sp) k).toNat 2 = .error e) :
    ∃ output, s.pushState = .fault (.failed e output) ∧ s.output <+: output := by
  obtain ⟨output, hpush, kept⟩ := State.pushAll_fault s.frameWords k hk hj he
  exact ⟨output, by rw [State.pushState_eq_pushAll, hpush, Res.bind_fault], kept⟩

/-- Settles O33: both forms are a call, which jumps only when its frame is pushed. -/
theorem callReportsFirstFault : Obligations.CallReportsFirstFault := by
  intro s target r k e hk hj he
  obtain ⟨output, hpush, kept⟩ := State.pushState_fault hk hj he
  have fails : ∀ w, (s.pushState.bind fun _ s1 => .ok () (s1.setReg .pc w)).toOutcome = .fault (.failed e output) := fun w => by
    rw [hpush, Res.bind_fault, Res.toOutcome_fault]
  exact ⟨⟨output, fails target, kept⟩, output, fails (s.reg r), kept⟩

/-! ## Requests -/

/-- Outside a handler a request that fails in its pushes reports the first whose access fails (R303, R312). -/
theorem exec_intImm_pushFault {s : State} {v : Word} {k : Nat} {e : EngineError}
    (hm : (s.reg .im).getLsbD (interruptLine v) = true) (hh : s.inHandler = false) (hk : k < 11)
    (hj : ∀ j < k, ∃ g, s.access (slotDown (s.reg .sp) j).toNat 2 = .ok g)
    (he : s.access (slotDown (s.reg .sp) k).toNat 2 = .error e) :
    ∃ output, exec (.intImm v) s = .fault (.failed e output) ∧ s.output <+: output := by
  obtain ⟨output, hpush, kept⟩ := State.pushAll_fault s.interruptWords k hk hj he
  refine ⟨output, ?_, kept⟩
  rw [exec_intImm, State.requestInterrupt_accepted hm, State.saveForInterrupt_eq_pushAll hh, hpush, Res.bind_fault, Res.bind_fault,
    Res.toOutcome_fault]

/-- Outside a handler a request whose pushes are all done reports the failing access to its vector slot (R303, R312). -/
theorem exec_intImm_slotFault {s : State} {v : Word} {e : EngineError} (hm : (s.reg .im).getLsbD (interruptLine v) = true)
    (hh : s.inHandler = false) (hj : ∀ j < 11, ∃ g, s.access (slotDown (s.reg .sp) j).toNat 2 = .ok g)
    (he : s.access (s.vectorSlot (interruptLine v)) 2 = .error e) :
    ∃ output, exec (.intImm v) s = .fault (.failed e output) ∧ s.output <+: output := by
  obtain ⟨t, hpush, _⟩ := State.pushAll_ok_of_access s.interruptWords hj
  have hsave := State.saveForInterrupt_of_pushAll hh hpush
  obtain ⟨slot, hacc⟩ := State.saveForInterrupt_keeps hsave
  refine ⟨t.output, ?_, (s.saveForInterrupt_tame.ok _ _ hsave).output⟩
  rw [exec_intImm, State.requestInterrupt_accepted hm, hsave, Res.bind_ok,
    State.memRead16_eq_fault.mpr ⟨e, by rw [State.access_setHandler, slot, hacc, he], rfl⟩, Res.bind_fault, Res.toOutcome_fault]
  rfl

/-! ## Returns -/

/-- What any run of `n` pops leaves of what later pops meet: `sp` past them, routing, stored words and output as before (R251). -/
structure State.PoppedPast (s t : State) (n : Nat) : Prop where
  sp : t.reg .sp = s.reg .sp + 2 * BitVec.ofNat 16 n
  access : ∀ a m, t.access a m = s.access a m
  word : ∀ l, t.wordAt l = s.wordAt l
  output : t.output = s.output

/-- Of the words that pops from `s` on meet, the k-th is the first whose access fails, with the error `e`. -/
structure State.FirstFailingPop (s : State) (k : Nat) (e : EngineError) : Prop where
  before : ∀ j < k, ∃ g, s.access (slotUp (s.reg .sp) j).toNat 2 = .ok g
  fails : s.access (slotUp (s.reg .sp) k).toNat 2 = .error e

/-- `x` pops `n` words: it reports the first whose access fails, and where none fails it completes past them (R303). -/
structure State.Pops {α : Type} (s : State) (x : Res α) (n : Nat) : Prop where
  fault : ∀ {k e}, k < n → s.FirstFailingPop k e → x = .fault (.failed e s.output)
  ok : (∀ j < n, ∃ g, s.access (slotUp (s.reg .sp) j).toNat 2 = .ok g) → ∃ v t, x = .ok v t ∧ s.PoppedPast t n

theorem State.PoppedPast.trans {a b c : State} {n m : Nat} (h : a.PoppedPast b n) (h' : b.PoppedPast c m) :
    a.PoppedPast c (n + m) := by
  refine ⟨?_, fun x i => (h'.access x i).trans (h.access x i), fun l => (h'.word l).trans (h.word l), h'.output.trans h.output⟩
  rw [h'.sp, h.sp, BitVec.ofNat_add]
  ring

/-- After `n` pops the k-th word up is the one that was `n + k` up. -/
theorem State.PoppedPast.slot {s t : State} {n : Nat} (h : s.PoppedPast t n) (k : Nat) :
    t.access (slotUp (t.reg .sp) k).toNat 2 = s.access (slotUp (s.reg .sp) (n + k)).toNat 2 := by
  rw [h.access, h.sp, slotUp_add]

theorem State.PoppedPast.firstFailingPop {s t : State} {n k : Nat} {e : EngineError} (h : s.PoppedPast t n)
    (hs : s.FirstFailingPop (n + k) e) : t.FirstFailingPop k e := by
  refine ⟨fun j hj => ?_, (h.slot k).trans hs.fails⟩
  rw [h.slot]
  exact hs.before (n + j) (by omega)

/-- Pops in sequence: the failing one is among the first `n`, or it is the first failing one of what comes after them. -/
theorem State.Pops.bind_fault {α β : Type} {s : State} {x : Res α} {f : α → State → Res β} {n k : Nat} {e : EngineError}
    (hx : s.Pops x n) (h : s.FirstFailingPop k e)
    (hf : ∀ v t m, k = n + m → x = .ok v t → s.PoppedPast t n → t.FirstFailingPop m e → f v t = .fault (.failed e t.output)) :
    x.bind f = .fault (.failed e s.output) := by
  rcases Nat.lt_or_ge k n with hlt | hge
  · rw [hx.fault hlt h, Res.bind_fault]
  · obtain ⟨m, rfl⟩ := Nat.exists_eq_add_of_le hge
    obtain ⟨v, t, hxt, P⟩ := hx.ok fun j hj => h.before j (by omega)
    rw [hxt, Res.bind_ok, hf v t m rfl hxt P (P.firstFailingPop h), P.output]

theorem State.pop_pops (s : State) : s.Pops s.pop 1 := by
  refine ⟨fun {k e} hk h => ?_, fun hj => ?_⟩
  · have fails := h.fails
    rw [Nat.lt_one_iff.mp hk, slotUp_zero] at fails
    exact State.pop_eq_fault.mpr ⟨e, fails, rfl⟩
  · have reached := hj 0 Nat.one_pos
    rw [slotUp_zero] at reached
    obtain ⟨v, t, hpop⟩ := State.pop_ok_of_access reached
    obtain ⟨sp, _, access, word, output⟩ := State.pop_keeps hpop
    exact ⟨v, t, hpop, sp, access, word, output⟩

theorem State.popInto_pops {rs : List Reg} (hsp : .sp ∉ rs) (hmb : .mb ∉ rs) (s : State) : s.Pops (s.popInto rs) rs.length := by
  obtain ⟨fault, ok⟩ := State.popInto_spec rs (s := s) hsp hmb
  refine ⟨fun {k e} hk h => fault k e hk h.before h.fails, fun hj => ?_⟩
  obtain ⟨t, hinto, sp, access, word, output⟩ := ok hj
  exact ⟨(), t, hinto, sp, access, word, output⟩

/-- No pop reads `F`. -/
theorem State.Pops.of_setFrameSize {α : Type} {s : State} {x : Res α} {n : Nat} {v : Word} (h : (s.setFrameSize v).Pops x n) :
    s.Pops x n := by
  refine ⟨fun hk hs => h.fault hk ⟨hs.before, hs.fails⟩, fun hj => ?_⟩
  obtain ⟨w, t, hx, sp, access, word, output⟩ := h.ok hj
  exact ⟨w, t, hx, sp, access, word, output⟩

/-- The count and its arguments: the pop that fails is the count's or, the count read from storage, an argument's (R258). -/
theorem State.popArguments_fault {s : State} {f : Unit → State → Res Unit} {k : Nat} {e : EngineError}
    (hk : k < 1 ∨ ∃ l, s.access (slotUp (s.reg .sp) 0).toNat 2 = .ok (.storage l) ∧ k < 1 + (s.wordAt l).toNat)
    (h : s.FirstFailingPop k e) : (s.pop.bind fun n t => (t.discard n.toNat).bind f) = .fault (.failed e s.output) := by
  refine s.pop_pops.bind_fault h fun n t m hm hpop _ ht => ?_
  obtain ⟨l, hl, hlt⟩ := hk.resolve_left (by omega)
  rw [slotUp_zero] at hl
  have count : n = s.wordAt l := by
    cases hpop.symm.trans (State.pop_storage hl)
    rfl
  rw [State.discard_fault n.toNat m (by rw [count]; omega) ht.before ht.fails, Res.bind_fault]

/-- `popState()` reports its first failing pop: of the frame's eleven words, or of the arguments (R258, R303). -/
theorem State.popState_fault {s : State} {k : Nat} {e : EngineError}
    (hk : k < 11 ∨ ∃ l, s.access (slotUp (s.reg .fp) 10).toNat 2 = .ok (.storage l) ∧ k < 11 + (s.wordAt l).toNat)
    (hj : ∀ j < k, ∃ g, s.access (slotUp (s.reg .fp) j).toNat 2 = .ok g)
    (he : s.access (slotUp (s.reg .fp) k).toNat 2 = .error e) : s.popState = .fault (.failed e s.output) := by
  have start : ∀ j, (s.setReg .sp (s.reg .fp)).access (slotUp ((s.setReg .sp (s.reg .fp)).reg .sp) j).toNat 2 =
      s.access (slotUp (s.reg .fp) j).toNat 2 := fun j => by rw [State.reg_setReg_same, State.access_setReg_sp]
  refine (State.pop_pops _).bind_fault (k := k) ⟨fun j hjk => (start j).symm ▸ hj j hjk, (start k).trans he⟩
    fun fs t1 m1 hm1 _ P1 h1 => ?_
  have saved : t1.Pops ((t1.setFrameSize fs).popInto savedRegs.reverse) 9 :=
    State.Pops.of_setFrameSize (State.popInto_pops (by decide) (by decide) _)
  refine saved.bind_fault h1 fun _ t2 m2 hm2 _ P2 h2 => ?_
  have P : (s.setReg .sp (s.reg .fp)).PoppedPast t2 10 := P1.trans P2
  refine State.popArguments_fault (hk.imp (fun hlt => by omega) fun ⟨l, hl, hlt⟩ => ⟨l, ?_, ?_⟩) h2
  · exact ((P.slot 0).trans (start 10)).trans hl
  · rw [P.word, State.wordAt_setReg]
    omega

/-- Settles O34: `int` stops in its save or at its vector slot, and the host's request fails as `int` does; `ret` and `rti` are
`popState()`, which does not read `H`. -/
theorem requestsAndReturnsReportFirstFault : Obligations.RequestsAndReturnsReportFirstFault := by
  intro s v k e
  refine ⟨fun hm hh => ⟨fun hk hj he => ?_, fun hj he => ?_⟩, fun hk hj he => ?_⟩
  · obtain ⟨output, hexec, kept⟩ := exec_intImm_pushFault hm hh hk hj he
    exact ⟨output, State.requestFails_of_exec hexec, kept⟩
  · obtain ⟨output, hexec, kept⟩ := exec_intImm_slotFault hm hh hj he
    exact ⟨output, State.requestFails_of_exec hexec, kept⟩
  · exact ⟨Res.toOutcome_eq_fault.mpr (State.popState_fault hk hj he),
      Res.toOutcome_eq_fault.mpr (State.popState_fault (s := s.setHandler false) hk hj he)⟩

end Sys2Proof.Machine
end
